-- ==== Sys2Proof/Word.lean ====
section
/-! DEFINITION. Sys2Proof/Word.lean: the word types of the core. -/

namespace Sys2Proof

/-- A byte (R7). -/
abbrev Byte := BitVec 8

/-- A register, a command word, a ChaCha20 state word: 32 bits (R6, R20, R90). -/
abbrev Word := BitVec 32

/-- A 128-bit number: a GHASH or Poly1305 operand (R35). -/
abbrev Quad := BitVec 128

end Sys2Proof
end

