-- ==== Sys2Proof/Syntax.lean ====
section
/-! DEFINITION. Sys2Proof/Syntax.lean: the six commands of the core (R91, spec/opcode_table.json). -/

namespace Sys2Proof

/-- OPMODE of INIT (R92). WRAP and UNWRAP decode, and INIT rejects them (R231). -/
inductive Opmode where
  | encrypt
  | decrypt
  | wrap
  | unwrap
  deriving DecidableEq, Repr

/-- FAMILY of INIT (R93). The value 3 decodes, and INIT rejects it (R231). -/
inductive FamilyField where
  | cp
  | gcm
  | stream
  | fam3
  deriving DecidableEq, Repr

/-- A command: one row of the opcode table each. Operands other than these fields come from the ARG registers (R98). -/
inductive Instr where
  /-- INIT, with OPMODE, FAMILY and TAGLEN (R230). TAGLEN is a count of bytes below 32 (R94), see `Instr.wellFormed`. -/
  | init (opmode : Opmode) (family : FamilyField) (taglen : Nat)
  /-- UPDATE_AAD (R240). -/
  | updateAad
  /-- UPDATE (R270). -/
  | update
  /-- FINALIZE (R270). -/
  | finalize
  /-- OUTPUT_SIZE, with FINAL (R245, R95). -/
  | outputSize (final : Bool)
  /-- ABORT (R250). -/
  | abort
  deriving DecidableEq, Repr

end Sys2Proof
end

