-- ==== Sys2Proof/WellFormed.lean ====
section
/-! DEFINITION. Sys2Proof/WellFormed.lean: which commands have an encoding. -/

namespace Sys2Proof

/-- A command is well formed when its fields fit the fields of its word. The one field that can fail to fit is TAGLEN, an
unsigned 5-bit value (R94); all 512 INIT encodings are legal (R100). -/
def Instr.wellFormed : Instr → Bool
  | .init _ _ taglen => taglen < 32
  | .updateAad => true
  | .update => true
  | .finalize => true
  | .outputSize _ => true
  | .abort => true

end Sys2Proof
end

