-- ==== Sys2Proof/Decode.lean ====
section
/-! DEFINITION. Sys2Proof/Decode.lean: the decoder of CMD words (R90 to R103), total and rejecting by name, and the
encoder written from the same tables. -/

namespace Sys2Proof

/-- Why a word decodes to ILLEGAL (R97): its opcode is not one of R91, or a bit is set that its opcode's mask of R96
requires to be 0. Either way the command completes with ILLEGAL_COMMAND (R101). -/
inductive IllegalWord where
  | opcode (opc : Byte)
  | reservedBits (opc : Byte)
  deriving DecidableEq, Repr

/-- OPC, bits [7:0] (R90). -/
def opcField (w : Word) : Byte := w.extractLsb' 0 8

/-- OPMODE, bits [9:8] (R90). -/
def opmodeField (w : Word) : BitVec 2 := w.extractLsb' 8 2

/-- FAMILY, bits [11:10] (R90). -/
def familyField (w : Word) : BitVec 2 := w.extractLsb' 10 2

/-- TAGLEN, bits [20:16] (R90). -/
def taglenField (w : Word) : BitVec 5 := w.extractLsb' 16 5

/-- FINAL, bit [24] (R90). -/
def finalField (w : Word) : Bool := w.getLsbD 24

/-- The OPMODE values (R92). -/
def decodeOpmode (v : BitVec 2) : Opmode :=
  if v = 0#2 then .encrypt else if v = 1#2 then .decrypt else if v = 2#2 then .wrap else .unwrap

/-- The FAMILY values (R93). -/
def decodeFamily (v : BitVec 2) : FamilyField :=
  if v = 0#2 then .cp else if v = 1#2 then .gcm else if v = 2#2 then .stream else .fam3

/-- One row of the opcode table: the opcode, the mask of R96 and how the row's fields are read. -/
structure OpRow where
  opc : Byte
  mask : Word
  read : Word → Instr

/-- The opcode table (R91, R96, spec/opcode_table.json). -/
def opRows : List OpRow :=
  [ ⟨0x01#8, 0xFFE0F0FF#32,
      fun w => .init (decodeOpmode (opmodeField w)) (decodeFamily (familyField w)) (taglenField w).toNat⟩,
    ⟨0x02#8, 0xFFFFFFFF#32, fun _ => .updateAad⟩,
    ⟨0x03#8, 0xFFFFFFFF#32, fun _ => .update⟩,
    ⟨0x04#8, 0xFFFFFFFF#32, fun _ => .finalize⟩,
    ⟨0x05#8, 0xFEFFFFFF#32, fun w => .outputSize (finalField w)⟩,
    ⟨0x06#8, 0xFFFFFFFF#32, fun _ => .abort⟩ ]

/-- R97: every word decodes to exactly one command or to ILLEGAL. A row is taken by its opcode; its reserved bits are
checked after. -/
def decode (w : Word) : Except IllegalWord Instr :=
  match opRows.find? (fun row => row.opc == opcField w) with
  | none => .error (.opcode (opcField w))
  | some row =>
    if w &&& row.mask = row.opc.setWidth 32 then .ok (row.read w) else .error (.reservedBits row.opc)

/-- OPC of a command (R91). -/
def Instr.opc : Instr → Byte
  | .init _ _ _ => 0x01#8
  | .updateAad => 0x02#8
  | .update => 0x03#8
  | .finalize => 0x04#8
  | .outputSize _ => 0x05#8
  | .abort => 0x06#8

/-- The mask of a command's opcode (R96). -/
def Instr.mask : Instr → Word
  | .init _ _ _ => 0xFFE0F0FF#32
  | .updateAad => 0xFFFFFFFF#32
  | .update => 0xFFFFFFFF#32
  | .finalize => 0xFFFFFFFF#32
  | .outputSize _ => 0xFEFFFFFF#32
  | .abort => 0xFFFFFFFF#32

/-- The OPMODE number (R92). -/
def Opmode.code : Opmode → Nat
  | .encrypt => 0
  | .decrypt => 1
  | .wrap => 2
  | .unwrap => 3

/-- The FAMILY number (R93). -/
def FamilyField.code : FamilyField → Nat
  | .cp => 0
  | .gcm => 1
  | .stream => 2
  | .fam3 => 3

/-- The word of a command (R90, R91): each field at its place. -/
def encode : Instr → Word
  | .init m f t => BitVec.ofNat 32 (0x01 + m.code * 2 ^ 8 + f.code * 2 ^ 10 + t * 2 ^ 16)
  | .updateAad => 0x02#32
  | .update => 0x03#32
  | .finalize => 0x04#32
  | .outputSize final => BitVec.ofNat 32 (0x05 + final.toNat * 2 ^ 24)
  | .abort => 0x06#32

/-- The command the decoder reads from an instruction whose bits are `w`, numbered as spec/opcode_table.json numbers them;
`nbits` bits of it are given and the bits above are 0. Every command is exactly one 32-bit word (R103). -/
def decodeTableWord (nbits w : Nat) : Option Instr :=
  match decode (BitVec.ofNat 32 (w % 2 ^ nbits)) with
  | .ok i => some i
  | .error _ => none

end Sys2Proof
end

