-- ==== Sys2Proof/Machine/Bytes.lean ====
section
/-! DEFINITION. Sys2Proof/Machine/Bytes.lean: byte strings and their conversions (R7, R8). -/

namespace Sys2Proof.Machine

/-- `zeros(n)` (R7). -/
def zeros (n : Nat) : List Byte := List.replicate n 0#8

/-- `s[i:j]`, the bytes i to j - 1 (R7). -/
def slice (s : List Byte) (i j : Nat) : List Byte := (s.drop i).take (j - i)

/-- `xor` of two byte strings of equal length (R7). -/
def xorBytes (a b : List Byte) : List Byte := List.zipWith (fun x y => x ^^^ y) a b

/-- `le(s)`, the number whose little-endian encoding is `s` (R8). -/
def leNat : List Byte → Nat
  | [] => 0
  | b :: bs => b.toNat + 256 * leNat bs

/-- `enc_le(v, n)`, the n-byte little-endian encoding (R8). -/
def encLe (v : Nat) : Nat → List Byte
  | 0 => []
  | n + 1 => BitVec.ofNat 8 v :: encLe (v / 256) n

/-- `be(s)` (R8). -/
def beNat (s : List Byte) : Nat := leNat s.reverse

/-- `enc_be(v, n)` (R8). -/
def encBe (v n : Nat) : List Byte := (encLe v n).reverse

/-- `le32(s)` as a word (R8). -/
def le32 (s : List Byte) : Word := BitVec.ofNat 32 (leNat s)

/-- How many zero bytes bring a string of `n` bytes to a multiple of 16: pad(n) of R190. -/
def pad16 (n : Nat) : Nat := (16 - n % 16) % 16

/-- `f` applied `n` times. -/
def iterate {α : Type} (f : α → α) : Nat → α → α
  | 0, x => x
  | n + 1, x => iterate f n (f x)

end Sys2Proof.Machine
end

