-- ==== Sys2Proof/Machine/Chacha.lean ====
section
/-! DEFINITION. Sys2Proof/Machine/Chacha.lean: the ChaCha20 block transform (R110 to R115). -/

namespace Sys2Proof.Machine

/-- The four constant words (R111). -/
def chachaConstants : List Word := [0x61707865#32, 0x3320646e#32, 0x79622d32#32, 0x6b206574#32]

/-- The initial state: constants, 8 key words, the counter word, 3 nonce words (R112). -/
def chachaInit (key : List Byte) (ctr : Word) (nonce : List Byte) : List Word :=
  chachaConstants ++ (List.range 8).map (fun i => le32 (slice key (4 * i) (4 * i + 4))) ++ [ctr] ++
    (List.range 3).map (fun j => le32 (slice nonce (4 * j) (4 * j + 4)))

/-- The quarter round on four words, rotations 16, 12, 8, 7 (R113). -/
def quarterWords (a b c d : Word) : Word × Word × Word × Word :=
  let a := a + b
  let d := (d ^^^ a).rotateLeft 16
  let c := c + d
  let b := (b ^^^ c).rotateLeft 12
  let a := a + b
  let d := (d ^^^ a).rotateLeft 8
  let c := c + d
  let b := (b ^^^ c).rotateLeft 7
  (a, b, c, d)

/-- QR(a, b, c, d) on the state `x` (R113). -/
def quarterRound (x : List Word) (a b c d : Nat) : List Word :=
  let q := quarterWords (x.getD a 0#32) (x.getD b 0#32) (x.getD c 0#32) (x.getD d 0#32)
  (((x.set a q.1).set b q.2.1).set c q.2.2.1).set d q.2.2.2

/-- The double round: four columns, then four diagonals (R114). -/
def doubleRound (x : List Word) : List Word :=
  let x := quarterRound x 0 4 8 12
  let x := quarterRound x 1 5 9 13
  let x := quarterRound x 2 6 10 14
  let x := quarterRound x 3 7 11 15
  let x := quarterRound x 0 5 10 15
  let x := quarterRound x 1 6 11 12
  let x := quarterRound x 2 7 8 13
  quarterRound x 3 4 9 14

/-- `ChaCha20Block(k, c, n)`: 64 bytes (R115). -/
def chacha20Block (key : List Byte) (ctr : Word) (nonce : List Byte) : List Byte :=
  let w := chachaInit key ctr nonce
  let x := iterate doubleRound 10 w
  (List.zipWith (fun p q => p + q) x w).flatMap (fun v => encLe v.toNat 4)

end Sys2Proof.Machine
end

