-- ==== Sys2Proof/Config.lean ====
section
/-! DEFINITION. Sys2Proof/Config.lean: the core's parameters (R6) and the one free value of the spec. -/

namespace Sys2Proof

/-- The implementation parameters of R6 that the spec leaves open or lets a model take as an argument. A machine carries
its parameters in `State.cfg`; no step changes them (log entry 1). -/
structure Config where
  /-- DMEM_SIZE, the bytes of data memory (D10). -/
  dmemSize : Nat
  /-- PBUF_CAP, the capacity of the pending buffer in bytes (D11). -/
  pbufCap : Nat
  /-- NONCE_MAX, the longest accepted GCM IV in bytes (D12). -/
  nonceMax : Nat
  /-- EXHAUST_SHIFT, log2 of the counter space used for exhaustion (D16). -/
  exhaustShift : Nat
  /-- REG_BASE, the bus address of the register block (R20, R81). -/
  regBase : Nat
  /-- DMEM_BASE, the bus address of DMEM (R72, R81). -/
  dmemBase : Nat
  deriving DecidableEq, Repr

/-- The allowed values of the parameters (93_implementation_defined.md section 2). That the two windows do not overlap on
the bus is DEDUCED from R70: an address of both spaces would name two things (log entry 5). -/
abbrev Config.wf (c : Config) : Prop :=
  1 ≤ c.dmemSize ∧ c.dmemSize ≤ 2 ^ 32 ∧ 64 ≤ c.pbufCap ∧ 12 ≤ c.nonceMax ∧
  2 ≤ c.exhaustShift ∧ c.exhaustShift ≤ 32 ∧
  (c.regBase + 64 ≤ c.dmemBase ∨ c.dmemBase + c.dmemSize ≤ c.regBase)

/-- The parameters of the hardware that the spec fixes (NONCE_MAX 128, EXHAUST_SHIFT 32), with the values of
95_test_vectors.md for the open sizes. The two bus bases are a DESIGN CHOICE (log entry 1). -/
def Config.vectors : Config :=
  { dmemSize := 4096, pbufCap := 4096, nonceMax := 128, exhaustShift := 32, regBase := 0, dmemBase := 65536 }

/-- FREE VALUE (R351, I10): the byte that DMEM holds at an address no one has written since reset, for each reset
("each byte may hold any value, and a model draws it"). First argument: which reset; second: the address. It has no body
here, so nothing can be proved of its value (log entry 2). -/
opaque Config.freeByte : Nat → Nat → Byte

end Sys2Proof
end

