-- ==== Sys2Proof/Machine/State.lean ====
section
/-! DEFINITION. Sys2Proof/Machine/State.lean: everything the spec gives the machine (R20 to R36), as plain data, with its
value at reset (R350), and the named reasons for which a step can stop. -/

namespace Sys2Proof.Machine

/-- The status codes of R321. Codes 10 to 15 are never written, so they have no constructor. -/
inductive ErrCode where
  | ok
  | invalidKey
  | invalidParameter
  | bufferTooSmall
  | authenticationFailed
  | counterExhausted
  | illegalState
  | capacityExceeded
  | illegalCommand
  | addressError
  deriving DecidableEq, Repr

/-- STATUS.STATE (R22, R24). Values 5 to 7 never occur, so they have no constructor. -/
inductive Phase where
  | idle
  | init
  | acceptingAad
  | acceptingData
  | finalized
  deriving DecidableEq, Repr

/-- STATUS.FAMILY, the family of a session (R22, R25). Value 3 never occurs. -/
inductive Family where
  | cp
  | gcm
  | stream
  deriving DecidableEq, Repr

/-- STATUS.DIR, the direction of a session (R22, R25). -/
inductive Dir where
  | encrypt
  | decrypt
  deriving DecidableEq, Repr

/-- The fields of STATUS (R22). The register's word, in which the reserved bits read 0, is `Status.word` (Flags.lean). -/
structure Status where
  err : ErrCode
  phase : Phase
  family : Family
  dir : Dir
  reinitRequired : Bool
  aadClosed : Bool
  deriving DecidableEq, Repr

/-- ARG0 to ARG4 (R29). -/
structure Args where
  a0 : Word
  a1 : Word
  a2 : Word
  a3 : Word
  a4 : Word
  deriving DecidableEq, Repr

/-- The session record (R32). Its family and direction are STATUS.FAMILY and STATUS.DIR. -/
structure Session where
  /-- The key bytes. -/
  key : List Byte
  /-- For GCM, the AES key schedule wk (R119), which is part of the stored key (R32, R234). -/
  schedule : List (List Byte)
  /-- The nonce or IV as given. -/
  nonce : List Byte
  /-- Tag bytes: CP 16, GCM 12 to 16, STREAM 0. -/
  tagLen : Nat
  /-- B, the encrypt buffering block: CP 64, GCM 16, STREAM 1. -/
  block : Nat
  deriving DecidableEq, Repr

/-- A guard slot (R33): EMPTY, or the key bytes and nonce bytes of the last ENCRYPT INIT of its families. -/
abbrev GuardSlot := Option (List Byte × List Byte)

/-- The keystream generator's state (R34). -/
structure Keystream where
  ctr : Word
  used : Nat
  maxBlocks : Nat
  j0 : List Byte
  buf : List Byte
  pos : Nat
  deriving DecidableEq, Repr

/-- The authenticator's state (R35). -/
structure Auth where
  aadLen : Nat
  ctLen : Nat
  stage : List Byte
  r : Quad
  s : Quad
  acc : Nat
  h : Quad
  y : Quad
  ej0 : List Byte
  deriving DecidableEq, Repr

/-- DMEM (R71): the bytes written since reset, by address. -/
abbrev Memory := List Host.Cell

/-- What a bus access does (R72, R73). -/
inductive BusOp where
  | read
  | write (data : Word)
  deriving DecidableEq, Repr

/-- One access of the host on the bus: its address, how many bytes it moves, and what it does. -/
structure Access where
  addr : Nat
  bytes : Nat
  op : BusOp
  deriving DecidableEq, Repr

/-- What the outside world can do to the core: an access of the host (R70), the reset input (R350), or an access of a second
bus master that breaks into the host's sequence (R85, R362). -/
inductive BusEvent where
  | access (a : Access)
  | reset
  | foreign (a : Access)
  deriving DecidableEq, Repr

/-- The machine: the parameters, the host-visible registers (R20 to R31), the internal state (R32 to R36), DMEM (R71), and
the model's own fields `epoch`, `bus` and `readData` (log entries 2, 3 and 4). -/
structure State where
  /-- The parameters of R6; no step writes them. -/
  cfg : Config
  /-- STATUS (R22). -/
  status : Status
  /-- RESULT (R28). -/
  result : Word
  /-- ARG0 to ARG4 (R29). -/
  args : Args
  /-- The session record (R32). -/
  session : Session
  /-- guard[CHACHA], of CP and STREAM (R33). -/
  guardChacha : GuardSlot
  /-- guard[GCM] (R33). -/
  guardGcm : GuardSlot
  /-- The keystream generator (R34). -/
  ks : Keystream
  /-- The authenticator (R35). -/
  auth : Auth
  /-- The pending buffer; plen is its length (R36). -/
  pbuf : List Byte
  /-- DMEM (R71). -/
  dmem : Memory
  /-- The model's own: which draw of DMEM's unspecified contents is in force (log entry 2). -/
  epoch : Nat
  /-- The model's own: the bus events not yet performed, oldest first (log entry 3). -/
  bus : List BusEvent
  /-- The model's own: what the last host read returned (log entry 4). -/
  readData : Word
  deriving DecidableEq, Repr

/-- Why the machine stops with a fault. Every one is a bus error of a host access (R325), raised by `busAccess`
(Machine/Bus.lean). Safe: the model stops where the spec gives the host program no result ("a model treats it as `fault`"). -/
inductive Fault where
  /-- A REG access that is not an aligned 32-bit word (R73). Raised by `regAccess`. Safe. -/
  | regAccessForm
  /-- A DMEM access of a width other than 1 and 4 bytes (R72). Raised by `dmemAccess`. Safe. -/
  | dmemWidth
  /-- A DMEM word access at an address that is no multiple of 4 (R72). Raised by `dmemAccess`. Safe. -/
  | dmemMisaligned
  /-- A DMEM access at or past DMEM_SIZE (R72). Raised by `dmemAccess`. Safe. -/
  | dmemOutOfRange
  /-- A bus address below DMEM_BASE and outside the register block: it names no place of the core (R70, log entry 5). Raised by
  `busAccess`. Safe. -/
  | noSuchAddress
  deriving DecidableEq, Repr

/-- Why the machine refuses to go on. -/
inductive Refusal where
  /-- The command has no meaning in this model. Only a refused arm of `exec` may answer it; there is none. Safe. -/
  | notModelled (mnemonic : String)
  /-- A second bus master breaks into the host's sequence: "a model refuses such a program" (R85, R362, log entry 6). Raised by
  `busEvent`. Safe. -/
  | unserialisedMaster
  deriving DecidableEq, Repr

/-- STATUS after reset: OK, IDLE, CP, ENCRYPT, 0, 0 (R22, R350). -/
def Status.reset : Status :=
  { err := .ok, phase := .idle, family := .cp, dir := .encrypt, reinitRequired := false, aadClosed := false }

/-- ARG0 to ARG4 after reset (R29, R350). -/
def Args.reset : Args := { a0 := 0#32, a1 := 0#32, a2 := 0#32, a3 := 0#32, a4 := 0#32 }

/-- The session record at its reset value (R32). -/
def Session.zero : Session := { key := [], schedule := [], nonce := [], tagLen := 0, block := 0 }

/-- The keystream state at its reset value (R34). -/
def Keystream.zero : Keystream :=
  { ctr := 0#32, used := 0, maxBlocks := 0, j0 := List.replicate 16 0#8, buf := [], pos := 0 }

/-- The authenticator state at its reset value (R35). -/
def Auth.zero : Auth :=
  { aadLen := 0, ctLen := 0, stage := [], r := 0#128, s := 0#128, acc := 0, h := 0#128, y := 0#128,
    ej0 := List.replicate 16 0#8 }

/-- The machine with parameters `c` right after its reset number `epoch` (R350, R351), with the bus events `bus` still to come. -/
def State.resetWith (c : Config) (epoch : Nat) (bus : List BusEvent) : State :=
  { cfg := c, status := .reset, result := 0#32, args := .reset, session := .zero, guardChacha := none, guardGcm := none,
    ks := .zero, auth := .zero, pbuf := [], dmem := [], epoch := epoch, bus := bus, readData := 0#32 }

/-- The machine right after reset (R350), with the parameters of 95_test_vectors.md (log entry 1), the first draw of DMEM (log
entry 2) and no bus event pending (log entry 3). -/
def State.reset : State := State.resetWith Config.vectors 0 []

end Sys2Proof.Machine
end

