-- ==== Sys2Proof/Machine/Keystream.lean ====
section
/-! DEFINITION. Sys2Proof/Machine/Keystream.lean: the counter-mode keystream generator (R140 to R154). -/

namespace Sys2Proof.Machine

/-- `CB(ctr)`, the GCM counter block: the first 12 bytes of J0, then the counter, big-endian (R142). -/
def counterBlock (j0 : List Byte) (ctr : Word) : List Byte := slice j0 0 12 ++ encBe ctr.toNat 4

/-- `KsBlock(ctr)`: the ChaCha20 block of CP and STREAM (R141), the encrypted counter block of GCM (R142). AES runs on the
session's stored key schedule (R32). -/
def ksBlock (fam : Family) (ses : Session) (j0 : List Byte) (ctr : Word) : List Byte :=
  match fam with
  | .cp => chacha20Block ses.key ctr ses.nonce
  | .gcm => aesWithSchedule ses.schedule (counterBlock j0 ctr)
  | .stream => chacha20Block ses.key ctr ses.nonce

/-- `NextBlock()` (R143): none when the limit is reached, with no state change. -/
def nextBlock (blk : Word → List Byte) (k : Keystream) : Option Keystream :=
  if k.used = k.maxBlocks then none
  else some { k with buf := blk k.ctr, ctr := k.ctr + 1#32, used := k.used + 1, pos := 0 }

/-- The keystream state with a byte to give: a new block only if none is left (R143). -/
def refill (blk : Word → List Byte) (k : Keystream) : Option Keystream :=
  if k.pos = k.buf.length then nextBlock blk k else some k

/-- What `KsXor` leaves (R144): the bytes made, the keystream state, and whether the limit was met. -/
structure XorResult where
  out : List Byte
  ks : Keystream
  exhausted : Bool
  deriving DecidableEq, Repr

/-- `KsXor(data)` (R144). -/
def ksXor (blk : Word → List Byte) (k : Keystream) : List Byte → XorResult
  | [] => ⟨[], k, false⟩
  | x :: xs =>
    match refill blk k with
    | none => ⟨[], k, true⟩
    | some k1 =>
      let rest := ksXor blk { k1 with pos := k1.pos + 1 } xs
      ⟨(x ^^^ k1.buf.getD k1.pos 0#8) :: rest.out, rest.ks, rest.exhausted⟩

/-- Bytes of one keystream block: 64 for ChaCha20, 16 for AES (R6, R275). -/
def blockBytes : Family → Nat
  | .cp => 64
  | .gcm => 16
  | .stream => 64

/-- `max_blocks` (R145), with S = EXHAUST_SHIFT. -/
def maxBlocksOf (c : Config) : Family → Nat
  | .cp => 2 ^ c.exhaustShift
  | .gcm => 2 ^ c.exhaustShift - 2
  | .stream => 2 ^ c.exhaustShift

end Sys2Proof.Machine
end

