-- ==== Sys2Proof/Machine/Authenticator.lean ====
section
/-! DEFINITION. Sys2Proof/Machine/Authenticator.lean: the GHASH accumulator, the Poly1305 engine and their wiring (R170 to
R193), and J0 (R149), which is a GHASH value. -/

namespace Sys2Proof.Machine

/-- The reduction constant of R172: x^128 + x^7 + x^2 + x + 1 in the representation of R171. -/
def gfPoly : Quad := 0xE1000000000000000000000000000000#128

/-- One pass of GFMul's loop on (Z, V), for bit 127 - i of X (R172). -/
def gfStep (x : Quad) (zv : Quad × Quad) (i : Nat) : Quad × Quad :=
  (if x.getLsbD (127 - i) then zv.1 ^^^ zv.2 else zv.1,
   if zv.2.getLsbD 0 then (zv.2 >>> 1) ^^^ gfPoly else zv.2 >>> 1)

/-- `GFMul(X, Y)` (R172). -/
def gfMul (x y : Quad) : Quad := ((List.range 128).foldl (gfStep x) (0#128, y)).1

/-- `be(X)` of a 16-byte block as a 128-bit number (R171). -/
def beQuad (block : List Byte) : Quad := BitVec.ofNat 128 (beNat block)

/-- GHASH absorb of one 16-byte block into `y` (R173). -/
def ghAbsorb (h y : Quad) (block : List Byte) : Quad := gfMul (y ^^^ beQuad block) h

/-- `GHASH_H(X)` for a string whose length is a multiple of 16 (R175). -/
def ghashOneShot (h : Quad) (x : List Byte) : List Byte :=
  encBe ((List.range (x.length / 16)).foldl (fun y i => ghAbsorb h y (slice x (16 * i) (16 * i + 16))) 0#128).toNat 16

/-- J0 from the IV and the subkey (R149). -/
def j0Of (h : Quad) (iv : List Byte) : List Byte :=
  if iv.length = 12 then iv ++ [0#8, 0#8, 0#8, 1#8]
  else ghashOneShot h (iv ++ zeros (pad16 iv.length) ++ zeros 8 ++ encBe (8 * iv.length) 8)

/-- The prime P = 2^130 - 5 (R179). -/
def polyP : Nat := 2 ^ 130 - 5

/-- The clamp of r (R179). -/
def polyClamp : Quad := 0x0ffffffc0ffffffc0ffffffc0fffffff#128

/-- r of a one-time key (R179). -/
def polyR (otk : List Byte) : Quad := BitVec.ofNat 128 (leNat (slice otk 0 16)) &&& polyClamp

/-- s of a one-time key (R179). -/
def polyS (otk : List Byte) : Quad := BitVec.ofNat 128 (leNat (slice otk 16 32))

/-- Poly1305 absorb of a block of 1 to 16 bytes, exact before the reduction (R180, R183): a block of 16 bytes adds 2^128. -/
def polyAbsorb (r : Quad) (acc : Nat) (m : List Byte) : Nat := ((acc + leNat m + 2 ^ (8 * m.length)) * r.toNat) % polyP

/-- Absorb of one full 16-byte block by the session's engine: GHASH for GCM (R173), Poly1305 for CP (R180). STREAM has none
(R192). -/
def absorb (fam : Family) (a : Auth) (block : List Byte) : Auth :=
  match fam with
  | .cp => { a with acc := polyAbsorb a.r a.acc block }
  | .gcm => { a with y := ghAbsorb a.h a.y block }
  | .stream => a

/-- One byte into the staging buffer (the loop body of R174 and R181). -/
def stageByte (fam : Family) (a : Auth) (x : Byte) : Auth :=
  if (a.stage ++ [x]).length = 16 then { absorb fam a (a.stage ++ [x]) with stage := [] }
  else { a with stage := a.stage ++ [x] }

/-- `GhUpdate(b)` and `PolyUpdate(b)` (R174, R181). -/
def engineUpdate (fam : Family) (a : Auth) (b : List Byte) : Auth := b.foldl (stageByte fam) a

/-- `GhPad()` and `PolyPad()` (R174, R181): nothing on an empty stage. -/
def enginePad (fam : Family) (a : Auth) : Auth :=
  if 0 < a.stage.length then
    { absorb fam a (a.stage ++ zeros (16 - a.stage.length)) with stage := [] }
  else a

/-- `PolyFinal()` (R181). -/
def polyFinal (a : Auth) : List Byte :=
  let acc := if 0 < a.stage.length then polyAbsorb a.r a.acc a.stage else a.acc
  encLe ((acc + a.s.toNat) % 2 ^ 128) 16

/-- `AuthUpdateAad(b)` (R185). -/
def authUpdateAad (fam : Family) (a : Auth) (b : List Byte) : Auth :=
  let a' := engineUpdate fam a b
  { a' with aadLen := a'.aadLen + b.length }

/-- `AuthCloseAad()` (R186). -/
def authCloseAad (fam : Family) (a : Auth) : Auth := enginePad fam a

/-- `AuthUpdateData(c)` (R187). -/
def authUpdateData (fam : Family) (a : Auth) (c : List Byte) : Auth :=
  let a' := engineUpdate fam a c
  { a' with ctLen := a'.ctLen + c.length }

/-- `GcmTag()` (R177): the first tag_len bytes. -/
def gcmTag (tagLen : Nat) (a : Auth) : List Byte :=
  let a1 := enginePad .gcm a
  let a2 := absorb .gcm a1 (encBe (8 * a1.aadLen) 8 ++ encBe (8 * a1.ctLen) 8)
  slice (xorBytes (encBe a2.y.toNat 16) a2.ej0) 0 tagLen

/-- `CpTag()` (R184). -/
def cpTag (a : Auth) : List Byte :=
  let a1 := enginePad .cp a
  polyFinal (engineUpdate .cp a1 (encLe a1.aadLen 8 ++ encLe a1.ctLen 8))

/-- `AuthTag()` (R188). STREAM has no tag (R192). -/
def authTag (fam : Family) (tagLen : Nat) (a : Auth) : List Byte :=
  match fam with
  | .cp => cpTag a
  | .gcm => gcmTag tagLen a
  | .stream => []

/-- `AADMAX(FAMILY)` (R241). STREAM refuses AAD before the limit is looked at (R240). -/
def aadMax : Family → Nat
  | .cp => 2 ^ 64 - 1
  | .gcm => 2 ^ 61 - 1
  | .stream => 0

end Sys2Proof.Machine
end

