-- ==== Sys2Proof/Machine/Buffer.lean ====
section
/-! DEFINITION. Sys2Proof/Machine/Buffer.lean: the pending buffer's operations (R210 to R213). -/

namespace Sys2Proof.Machine

/-- `PbAppend(b)` (R211). -/
def pbAppend (pbuf b : List Byte) : List Byte := pbuf ++ b

/-- How many bytes of `pbuf || b` form whole blocks: k of R212 and R271. -/
def wholeBlocks (len block : Nat) : Nat := len / block * block

/-- `PbSplit(b, B)` (R212): the whole-block prefix, and what stays in the buffer. -/
def pbSplit (pbuf b : List Byte) (block : Nat) : List Byte × List Byte :=
  let data := pbuf ++ b
  let k := wholeBlocks data.length block
  (data.take k, data.drop k)

/-- `PbDrain(b)` (R213): everything; the buffer is left empty by the caller. -/
def pbDrain (pbuf b : List Byte) : List Byte := pbuf ++ b

end Sys2Proof.Machine
end

