-- ==== Sys2Proof/Machine/Flags.lean ====
section
/-! DEFINITION. Sys2Proof/Machine/Flags.lean: the STATUS register: its word, its numeric codes and the rules that change its
fields (R22 to R27, R321). -/

namespace Sys2Proof.Machine

/-- The number of a status code (R321). -/
def ErrCode.code : ErrCode → Nat
  | .ok => 0
  | .invalidKey => 1
  | .invalidParameter => 2
  | .bufferTooSmall => 3
  | .authenticationFailed => 4
  | .counterExhausted => 5
  | .illegalState => 6
  | .capacityExceeded => 7
  | .illegalCommand => 8
  | .addressError => 9

/-- The number of a session state (R22). -/
def Phase.code : Phase → Nat
  | .idle => 0
  | .init => 1
  | .acceptingAad => 2
  | .acceptingData => 3
  | .finalized => 4

/-- The number of a family (R22). -/
def Family.code : Family → Nat
  | .cp => 0
  | .gcm => 1
  | .stream => 2

/-- The number of a direction (R22). -/
def Dir.code : Dir → Nat
  | .encrypt => 0
  | .decrypt => 1

/-- The STATUS word: ERR [3:0], STATE [6:4], FAMILY [9:8], DIR [10], REINIT_REQUIRED [11], AAD_CLOSED [12], every other bit 0
(R22). -/
def Status.word (st : Status) : Word :=
  BitVec.ofNat 32 (st.err.code + st.phase.code * 2 ^ 4 + st.family.code * 2 ^ 8 + st.dir.code * 2 ^ 10 +
    st.reinitRequired.toNat * 2 ^ 11 + st.aadClosed.toNat * 2 ^ 12)

/-- STATE is INIT, ACCEPTING_AAD or ACCEPTING_DATA: the states in which UPDATE, FINALIZE and OUTPUT_SIZE are legal (R245,
R270). -/
def Status.active (st : Status) : Bool :=
  st.phase == .init || st.phase == .acceptingAad || st.phase == .acceptingData

/-- STATE is INIT or ACCEPTING_AAD: the states in which UPDATE_AAD is legal (R240). -/
def Status.acceptsAad (st : Status) : Bool := st.phase == .init || st.phase == .acceptingAad

/-- STATUS after a successful INIT, but for ERR (R233, R236). -/
def Status.started (st : Status) (fam : Family) (dir : Dir) : Status :=
  { st with phase := .init, family := fam, dir := dir, reinitRequired := false, aadClosed := false }

/-- STATUS after AAD bytes were taken, but for ERR (R242). -/
def Status.tookAad (st : Status) : Status := { st with phase := .acceptingAad }

/-- STATUS after CloseAad, but for ERR (R270). -/
def Status.dataOpen (st : Status) : Status := { st with phase := .acceptingData, aadClosed := true }

/-- STATUS after Consume, but for ERR (R277): REINIT_REQUIRED is set when the session encrypts. -/
def Status.consumed (st : Status) : Status :=
  { st with
    phase := .finalized
    aadClosed := false
    reinitRequired := if st.dir = .encrypt then true else st.reinitRequired }

/-- STATUS after ABORT, but for ERR (R250): REINIT_REQUIRED is kept. -/
def Status.aborted (st : Status) : Status :=
  { st with phase := .idle, family := .cp, dir := .encrypt, aadClosed := false }

/-- Ordered checks: the code of the first failing one (R324), where `true` means "fails". -/
def firstError : List (Bool × ErrCode) → Option ErrCode
  | [] => none
  | (fails, code) :: rest => if fails then some code else firstError rest

end Sys2Proof.Machine
end

