-- ==== Sys2Proof/Machine/Ops.lean ====
section
/-! DEFINITION. Sys2Proof/Machine/Ops.lean: the named operations over DMEM, the registers and the session that the commands are
written with (R9, R20 to R30, R39, R71, R72, R277). -/

namespace Sys2Proof.Machine

/-! ## DMEM -/

/-- Canonical form: addresses strictly rising. A byte no one has written has no entry and no stored value, so no entry can repeat
what an unlisted address reads as (log entry 2). -/
abbrev Memory.wf (m : Memory) : Prop := (m.map Prod.fst).Pairwise (fun a b => a < b)

/-- The byte written at `x` since reset, if any. -/
def Memory.lookup : Memory → Nat → Option Byte
  | [], _ => none
  | (a, b) :: m, x => if a = x then some b else Memory.lookup m x

/-- The memory with `v` written at `x`, in canonical form. -/
def Memory.store : Memory → Nat → Byte → Memory
  | [], x, v => [(x, v)]
  | (a, b) :: m, x, v =>
    if x < a then (x, v) :: (a, b) :: m
    else if x = a then (x, v) :: m
    else (a, b) :: Memory.store m x v

/-- The memory with the bytes `s` written at `addr`, `addr + 1`, ... -/
def Memory.storeBytes : Memory → Nat → List Byte → Memory
  | m, _, [] => m
  | m, addr, b :: bs => Memory.storeBytes (Memory.store m addr b) (addr + 1) bs

/-- DMEM[a] (R71): the byte written there since reset, or the free value of the reset in force (R351). -/
def State.readByte (s : State) (a : Nat) : Byte := (Memory.lookup s.dmem a).getD (Config.freeByte s.epoch a)

/-- `MemRead(addr, n)` (R9). -/
def State.memRead (s : State) (addr n : Nat) : List Byte := (List.range n).map (fun i => s.readByte (addr + i))

/-- `MemWrite(addr, b)` (R9). -/
def State.memWrite (s : State) (addr : Nat) (b : List Byte) : State :=
  { s with dmem := Memory.storeBytes s.dmem addr b }

/-- The little-endian word at DMEM[a .. a+3] (R72). -/
def State.readWord (s : State) (a : Nat) : Word := le32 (s.memRead a 4)

/-- DMEM[a .. a+3] written with a word, little-endian (R72). -/
def State.writeWord (s : State) (a : Nat) (v : Word) : State := s.memWrite a (encLe v.toNat 4)

/-! ## Ending a command -/

/-- `complete(code, r)` (R9): ERR and RESULT, by every command (R23, R28, R320). This is all the "exception entry" the core has:
no condition transfers control anywhere (R327). -/
def State.complete (s : State) (code : ErrCode) (r : Word) : State :=
  { s with status := { s.status with err := code }, result := r }

/-- `raise CODE` (R9). -/
def State.raise (s : State) (code : ErrCode) : State := s.complete code 0#32

/-! ## The session -/

/-- `Zeroise` (R39): the fields of R32, R34, R35 and R36 at their reset values; nothing else. -/
def State.zeroise (s : State) : State := { s with session := .zero, ks := .zero, auth := .zero, pbuf := [] }

/-- The state with another STATUS. -/
def State.withStatus (s : State) (st : Status) : State := { s with status := st }

/-- `Consume()` (R277). -/
def State.consume (s : State) : State := s.zeroise.withStatus s.status.consumed

/-- The authenticator after `CloseAad()` (R270): the AAD padding once per CP or GCM session. -/
def State.closedAuth (s : State) : Auth :=
  if s.status.aadClosed = false ∧ s.status.family ≠ .stream then authCloseAad s.status.family s.auth else s.auth

/-- `CloseAad()` (R270): the AAD padding if it was not absorbed yet, AAD_CLOSED and ACCEPTING_DATA. -/
def State.closeAad (s : State) : State := { s with auth := s.closedAuth, status := s.status.dataOpen }

/-- The block transform of the session (R141, R142). -/
def State.ksBlock (s : State) : Word → List Byte := Machine.ksBlock s.status.family s.session s.ks.j0

/-- `KsXor(data)` of the session (R144): what it makes. -/
def State.xorData (s : State) (data : List Byte) : XorResult := ksXor s.ksBlock s.ks data

/-- The state with the keystream state that KsXor left (R140: it writes only that state). -/
def State.withKs (s : State) (k : Keystream) : State := { s with ks := k }

/-- `AuthUpdateAad` on the session (R185). -/
def State.absorbAad (s : State) (b : List Byte) : State := { s with auth := authUpdateAad s.status.family s.auth b }

/-- `AuthUpdateData` on the session (R187). -/
def State.absorbData (s : State) (c : List Byte) : State := { s with auth := authUpdateData s.status.family s.auth c }

/-- `AuthTag()` of the session (R188). -/
def State.tag (s : State) : List Byte := authTag s.status.family s.session.tagLen s.auth

/-- The state with another pending buffer. -/
def State.withPbuf (s : State) (b : List Byte) : State := { s with pbuf := b }

/-- The guard slot of a family (R33, R232): GCM for GCM, CHACHA for CP and STREAM. -/
def State.guard (s : State) : Family → GuardSlot
  | .cp => s.guardChacha
  | .gcm => s.guardGcm
  | .stream => s.guardChacha

/-- The guard slot of a family written (R33, R233); the other slot is kept. -/
def State.withGuard (s : State) (fam : Family) (v : GuardSlot) : State :=
  { s with
    guardChacha := if fam = .gcm then s.guardChacha else v
    guardGcm := if fam = .gcm then v else s.guardGcm }

/-- The state with a new session loaded (R233). -/
def State.withSession (s : State) (ses : Session) (k : Keystream) (a : Auth) : State :=
  { s with session := ses, ks := k, auth := a }

/-! ## The register block -/

/-- A 32-bit read of the register block at a byte offset (R20, R21, R22, R28, R29, R30). -/
def State.readReg (s : State) (off : Nat) : Word :=
  if off = 0x04 then s.status.word
  else if off = 0x08 then s.result
  else if off = 0x10 then s.args.a0
  else if off = 0x14 then s.args.a1
  else if off = 0x18 then s.args.a2
  else if off = 0x1C then s.args.a3
  else if off = 0x20 then s.args.a4
  else 0#32

/-- The ARG registers after a 32-bit write at a byte offset: ARG0 to ARG4 take it, every other offset ignores it (R22, R28, R29,
R30). -/
def Args.write (a : Args) (off : Nat) (v : Word) : Args :=
  if off = 0x10 then { a with a0 := v }
  else if off = 0x14 then { a with a1 := v }
  else if off = 0x18 then { a with a2 := v }
  else if off = 0x1C then { a with a3 := v }
  else if off = 0x20 then { a with a4 := v }
  else a

/-- A 32-bit write of the register block at a byte offset other than CMD's (R20). -/
def State.writeReg (s : State) (off : Nat) (v : Word) : State := { s with args := s.args.write off v }

/-- The state with a value returned to the host's read. Nothing of the core changes (R80). -/
def State.answerRead (s : State) (v : Word) : State := { s with readData := v }

end Sys2Proof.Machine
end

