-- ==== Sys2Proof/Machine/Operands.lean ====
section
/-! DEFINITION. Sys2Proof/Machine/Operands.lean: the operand forms: ARG registers as addresses, lengths and capacities, byte
ranges of DMEM, and their overlap (R74 to R77, R98, R99). -/

namespace Sys2Proof.Machine

/-- A range is legal iff addr + len <= DMEM_SIZE, without wrap-around (R74, R99). -/
def State.legal (s : State) (addr len : Word) : Bool := addr.toNat + len.toNat ≤ s.cfg.dmemSize

/-- The bytes of a range, zero-extended operands (R9, R99). -/
def State.rangeBytes (s : State) (addr len : Word) : List Byte := s.memRead addr.toNat len.toNat

/-- The source bytes of UPDATE and FINALIZE: (ARG0, ARG1) (R98, R270). -/
def State.srcBytes (s : State) : List Byte := s.rangeBytes s.args.a0 s.args.a1

/-- The destination address of UPDATE and FINALIZE, ARG2 (R98). -/
def State.dst (s : State) : Nat := s.args.a2.toNat

/-- The destination capacity of UPDATE and FINALIZE, ARG3 (R98). -/
def State.cap (s : State) : Nat := s.args.a3.toNat

/-- The three kinds of overlap (R76). -/
inductive OverlapKind where
  | noOverlap
  | safeInPlace
  | unsafeOverlapRequiringCopy
  deriving DecidableEq, Repr

/-- `OverlapKind(src, slen, dst, dlen)` (R76). -/
def overlapKind (src slen dst dlen : Nat) : OverlapKind :=
  if slen = 0 ∨ dlen = 0 ∨ src + slen ≤ dst ∨ dst + dlen ≤ src then .noOverlap
  else if dst = src then .safeInPlace
  else .unsafeOverlapRequiringCopy

/-- `Overlaps` (R275): not NoOverlap. -/
def overlaps (src slen dst dlen : Nat) : Bool := overlapKind src slen dst dlen != .noOverlap

end Sys2Proof.Machine
end

