-- ==== Sys2Proof/Machine/DataCommands.lean ====
section
/-! DEFINITION. Sys2Proof/Machine/DataCommands.lean: UPDATE and FINALIZE, by direction and family (R270 to R285). -/

namespace Sys2Proof.Machine

/-- The checks of `DataPrologue` in their order (R270, R324). -/
def dataErrors (s : State) : Option ErrCode :=
  firstError
    [ (!s.status.active, .illegalState),
      (!s.legal s.args.a0 s.args.a1 || !s.legal s.args.a2 s.args.a3, .addressError) ]

/-! ## UPDATE -/

/-- UPDATE_ENC after the prologue (R271). -/
def updateEncrypt (s : State) : State :=
  let src := s.srcBytes
  let k := wholeBlocks (s.pbuf.length + src.length) s.session.block
  if s.cap < k then s.raise .bufferTooSmall
  else
    let s1 := s.closeAad
    let sp := pbSplit s1.pbuf src s1.session.block
    let s2 := s1.withPbuf sp.2
    let x := s2.xorData sp.1
    let s3 := (s2.withKs x.ks).memWrite s.dst x.out
    if x.exhausted then s3.consume.complete .counterExhausted (BitVec.ofNat 32 x.out.length)
    else (s3.absorbData x.out).complete .ok (BitVec.ofNat 32 k)

/-- UPDATE_DEC after the prologue (R272). -/
def updateDecrypt (s : State) : State :=
  let src := s.srcBytes
  if s.cfg.pbufCap < s.pbuf.length + src.length then s.raise .capacityExceeded
  else
    let s1 := s.closeAad
    (s1.withPbuf (pbAppend s1.pbuf src)).complete .ok 0#32

/-- UPDATE_STREAM after the prologue (R273). -/
def updateStream (s : State) : State :=
  let src := s.srcBytes
  if s.cap < src.length then s.raise .bufferTooSmall
  else
    let s1 := s.closeAad
    let x := s1.xorData src
    let s2 := (s1.withKs x.ks).memWrite s.dst x.out
    if x.exhausted then s2.consume.complete .counterExhausted (BitVec.ofNat 32 x.out.length)
    else s2.complete .ok (BitVec.ofNat 32 src.length)

/-- UPDATE after the prologue, by family and direction. -/
def updateBody (s : State) : State :=
  if s.status.family = .stream then updateStream s
  else
    match s.status.dir with
    | .encrypt => updateEncrypt s
    | .decrypt => updateDecrypt s

/-- UPDATE (R270 to R273). -/
def execUpdate (s : State) : Host.Outcome State Fault Refusal :=
  match dataErrors s with
  | some code => .next (s.raise code)
  | none => .next (updateBody s)

/-! ## FINALIZE -/

/-- FINALIZE_ENC after the prologue (R274). -/
def finalizeEncrypt (s : State) : State :=
  let src := s.srcBytes
  let m := s.pbuf.length + src.length
  if s.cap < m + s.session.tagLen then s.raise .bufferTooSmall
  else
    let s1 := s.closeAad
    let p := pbDrain s1.pbuf src
    let s2 := s1.withPbuf []
    let x := s2.xorData p
    let s3 := s2.withKs x.ks
    if x.exhausted then
      (s3.memWrite s.dst x.out).consume.complete .counterExhausted (BitVec.ofNat 32 x.out.length)
    else
      let s4 := s3.absorbData x.out
      (s4.memWrite s.dst (x.out ++ s4.tag)).consume.complete .ok (BitVec.ofNat 32 (m + s.session.tagLen))

/-- Steps 4 to 6 of FINALIZE_DEC, on the ciphertext `ct` and the candidate tag `cand`, after CloseAad (R275). `s` has the operands
and the session. -/
def finalizeDecryptChecked (s : State) (ct cand : List Byte) : State :=
  let len := ct.length
  let blk := blockBytes s.status.family
  if s.ks.maxBlocks < s.ks.used + (len + blk - 1) / blk then s.consume.raise .counterExhausted
  else
    let s1 := s.absorbData ct
    if s1.tag ≠ cand then
      let s2 :=
        if 0 < s.args.a1.toNat ∧ 0 < len ∧ overlaps s.args.a0.toNat s.args.a1.toNat s.dst len = true then
          s1.memWrite s.dst (zeros len)
        else s1
      s2.consume.raise .authenticationFailed
    else
      let x := s1.xorData ct
      (((s1.withKs x.ks).memWrite s.dst x.out).consume).complete .ok (BitVec.ofNat 32 len)

/-- FINALIZE_DEC after the prologue (R275). -/
def finalizeDecrypt (s : State) : State :=
  let src := s.srcBytes
  let total := s.pbuf.length + src.length
  let len := total - s.session.tagLen
  if s.cap < len then s.raise .bufferTooSmall
  else
    let s1 := s.closeAad
    if total < s.session.tagLen then s1.consume.raise .authenticationFailed
    else
      let d := pbDrain s1.pbuf src
      finalizeDecryptChecked (s1.withPbuf []) (slice d 0 len) (slice d len total)

/-- FINALIZE_STREAM after the prologue (R276). -/
def finalizeStream (s : State) : State :=
  let src := s.srcBytes
  if s.cap < src.length then s.raise .bufferTooSmall
  else
    let s1 := s.closeAad
    let x := s1.xorData src
    let s2 := (s1.withKs x.ks).memWrite s.dst x.out
    s2.consume.complete (if x.exhausted then .counterExhausted else .ok) (BitVec.ofNat 32 x.out.length)

/-- FINALIZE after the prologue, by family and direction. -/
def finalizeBody (s : State) : State :=
  if s.status.family = .stream then finalizeStream s
  else
    match s.status.dir with
    | .encrypt => finalizeEncrypt s
    | .decrypt => finalizeDecrypt s

/-- FINALIZE (R270, R274 to R277). -/
def execFinalize (s : State) : Host.Outcome State Fault Refusal :=
  match dataErrors s with
  | some code => .next (s.raise code)
  | none => .next (finalizeBody s)

end Sys2Proof.Machine
end

