-- ==== Sys2Proof/Machine/SessionCommands.lean ====
section
/-! DEFINITION. Sys2Proof/Machine/SessionCommands.lean: INIT, UPDATE_AAD, OUTPUT_SIZE and ABORT (R230 to R251). -/

namespace Sys2Proof.Machine

/-! ## INIT -/

/-- The family a FAMILY field selects; 3 selects none (R93). -/
def familyOf : FamilyField → Option Family
  | .cp => some .cp
  | .gcm => some .gcm
  | .stream => some .stream
  | .fam3 => none

/-- The direction an OPMODE field selects; WRAP and UNWRAP select none (R92). -/
def dirOf : Opmode → Option Dir
  | .encrypt => some .encrypt
  | .decrypt => some .decrypt
  | .wrap => none
  | .unwrap => none

/-- The key lengths of a family (R231). -/
def keyLenOk : Family → Nat → Bool
  | .cp, n => n == 32
  | .gcm, n => n == 16 || n == 24 || n == 32
  | .stream, n => n == 32

/-- The nonce lengths of a family (R231). -/
def nonceLenOk (c : Config) : Family → Nat → Bool
  | .cp, n => n == 12
  | .gcm, n => 1 ≤ n && n ≤ c.nonceMax
  | .stream, n => n == 12

/-- The TAGLEN values of a family (R94, R231). -/
def taglenOk : Family → Nat → Bool
  | .cp, t => t == 0 || t == 16
  | .gcm, t => t == 0 || t == 12 || t == 13 || t == 14 || t == 15 || t == 16
  | .stream, t => t == 0

/-- tag_len of a family and a TAGLEN (R234). -/
def tagLenOf : Family → Nat → Nat
  | .cp, _ => 16
  | .gcm, t => if t = 0 then 16 else t
  | .stream, _ => 0

/-- B of a family (R234). -/
def bufferBlockOf : Family → Nat
  | .cp => 64
  | .gcm => 16
  | .stream => 1

/-- The checks of INIT_Validate on the operands of a family, and the reuse guard, in their order (R231, R232, R324). -/
def initErrors (s : State) (fam : Family) (dir : Dir) (taglen : Nat) : Option ErrCode :=
  firstError
    [ (!keyLenOk fam s.args.a1.toNat, .invalidKey),
      (!nonceLenOk s.cfg fam s.args.a3.toNat, .invalidParameter),
      (!taglenOk fam taglen, .invalidParameter),
      (!s.legal s.args.a0 s.args.a1 || !s.legal s.args.a2 s.args.a3, .addressError),
      (dir == .encrypt &&
        s.guard fam == some (s.rangeBytes s.args.a0 s.args.a1, s.rangeBytes s.args.a2 s.args.a3), .invalidKey) ]

/-- The session record of INIT (R233, R234). For GCM the AES key schedule is part of the stored key. -/
def initSession (fam : Family) (key nonce : List Byte) (taglen : Nat) : Session :=
  { key := key
    schedule := match fam with
      | .cp => []
      | .gcm => keyExpansion key
      | .stream => []
    nonce := nonce
    tagLen := tagLenOf fam taglen
    block := bufferBlockOf fam }

/-- H of a GCM session: the encrypted zero block (R176). -/
def ghashSubkey (key : List Byte) : Quad := beQuad (aesEncrypt key (zeros 16))

/-- The Poly1305 one-time key: the first 32 bytes of block 0 (R178). -/
def oneTimeKey (key nonce : List Byte) : List Byte := slice (chacha20Block key 0#32 nonce) 0 32

/-- The keystream state of INIT (R145, R233, R234): CP starts at 1, GCM one after J0's counter field, STREAM at ARG4. -/
def initKeystream (c : Config) (fam : Family) (key nonce : List Byte) (arg4 : Word) : Keystream :=
  match fam with
  | .cp => { Keystream.zero with ctr := 1#32, maxBlocks := maxBlocksOf c .cp }
  | .gcm =>
    let j0 := j0Of (ghashSubkey key) nonce
    { Keystream.zero with
      j0 := j0, ctr := BitVec.ofNat 32 (beNat (slice j0 12 16)) + 1#32, maxBlocks := maxBlocksOf c .gcm }
  | .stream => { Keystream.zero with ctr := arg4, maxBlocks := maxBlocksOf c .stream }

/-- The authenticator of INIT (R176, R178, R179, R150, R234); STREAM has none (R192). -/
def initAuth (fam : Family) (key nonce : List Byte) : Auth :=
  match fam with
  | .cp => { Auth.zero with r := polyR (oneTimeKey key nonce), s := polyS (oneTimeKey key nonce) }
  | .gcm =>
    let h := ghashSubkey key
    { Auth.zero with h := h, ej0 := aesEncrypt key (j0Of h nonce) }
  | .stream => Auth.zero

/-- `INIT_Commit` (R233), but for ERR and RESULT: the old session is zeroised, the guard slot is written by an ENCRYPT INIT, and
the new session is loaded. -/
def initCommit (s : State) (fam : Family) (dir : Dir) (taglen : Nat) : State :=
  let key := s.rangeBytes s.args.a0 s.args.a1
  let nonce := s.rangeBytes s.args.a2 s.args.a3
  let s1 := if dir = .encrypt then s.zeroise.withGuard fam (some (key, nonce)) else s.zeroise
  (s1.withSession (initSession fam key nonce taglen) (initKeystream s.cfg fam key nonce s.args.a4)
    (initAuth fam key nonce)).withStatus (s.status.started fam dir)

/-- INIT (R230 to R236): OPMODE is checked first, then FAMILY, then the rest (R324). -/
def execInit (opmode : Opmode) (family : FamilyField) (taglen : Nat) (s : State) : Host.Outcome State Fault Refusal :=
  match dirOf opmode, familyOf family with
  | none, _ => .next (s.raise .invalidParameter)
  | some _, none => .next (s.raise .invalidParameter)
  | some dir, some fam =>
    match initErrors s fam dir taglen with
    | some code => .next (s.raise code)
    | none => .next ((initCommit s fam dir taglen).complete .ok 0#32)

/-! ## UPDATE_AAD -/

/-- The checks of UPDATE_AAD in their order (R240, R324). -/
def aadErrors (s : State) : Option ErrCode :=
  firstError
    [ (!s.status.acceptsAad, .illegalState),
      (s.status.family == .stream, .illegalState),
      (!s.legal s.args.a0 s.args.a1, .addressError),
      (aadMax s.status.family < s.auth.aadLen + s.args.a1.toNat, .illegalState) ]

/-- UPDATE_AAD (R240 to R243). -/
def execUpdateAad (s : State) : Host.Outcome State Fault Refusal :=
  match aadErrors s with
  | some code => .next (s.raise code)
  | none =>
    if s.args.a1.toNat = 0 then .next (s.complete .ok 0#32)
    else .next (((s.absorbAad s.srcBytes).withStatus s.status.tookAad).complete .ok 0#32)

/-! ## OUTPUT_SIZE -/

/-- The size a later UPDATE (`final` false) or FINALIZE (`final` true) needs for `n` input bytes (R245). -/
def outputSize (s : State) (final : Bool) (n : Nat) : Nat :=
  match s.status.family, s.status.dir, final with
  | .stream, _, _ => n
  | _, .encrypt, false => wholeBlocks (s.pbuf.length + n) s.session.block
  | _, .encrypt, true => s.pbuf.length + n + s.session.tagLen
  | _, .decrypt, false => 0
  | _, .decrypt, true => s.pbuf.length + n - s.session.tagLen

/-- OUTPUT_SIZE (R245, R246), saturated at 2^32 - 1. -/
def execOutputSize (final : Bool) (s : State) : Host.Outcome State Fault Refusal :=
  if s.status.active then
    .next (s.complete .ok (BitVec.ofNat 32 (min (outputSize s final s.args.a1.toNat) (2 ^ 32 - 1))))
  else .next (s.raise .illegalState)

/-! ## ABORT -/

/-- ABORT (R250, R251): legal in every state; keeps the guard slots and REINIT_REQUIRED. -/
def execAbort (s : State) : Host.Outcome State Fault Refusal :=
  .next ((s.zeroise.withStatus s.status.aborted).complete .ok 0#32)

end Sys2Proof.Machine
end

