-- ==== Sys2Proof/Machine/Dispatch.lean ====
section
/-! DEFINITION. Sys2Proof/Machine/Dispatch.lean: one arm per command. -/

namespace Sys2Proof.Machine

def exec (i : Instr) (s : State) : Host.Outcome State Fault Refusal :=
  match i with
  | .init opmode family taglen => Sys2Proof.Machine.execInit opmode family taglen s
  | .updateAad => Sys2Proof.Machine.execUpdateAad s
  | .update => Sys2Proof.Machine.execUpdate s
  | .finalize => Sys2Proof.Machine.execFinalize s
  | .outputSize final => Sys2Proof.Machine.execOutputSize final s
  | .abort => Sys2Proof.Machine.execAbort s

end Sys2Proof.Machine
end

