-- ==== Sys2Proof/Machine/Bus.lean ====
section
/-! DEFINITION. Sys2Proof/Machine/Bus.lean: what one bus event does (R21, R70 to R73, R79, R85, R101, R325, R350). -/

namespace Sys2Proof.Machine

/-- A CMD write (R21): the written word is the command; an illegal word completes with ILLEGAL_COMMAND (R101). -/
def issueCommand (w : Word) (s : State) : Host.Outcome State Fault Refusal :=
  match decode w with
  | .ok i => exec i s
  | .error _ => .next (s.raise .illegalCommand)

/-- A host access to REG at a byte offset (R73): aligned 32-bit accesses only. -/
def regAccess (s : State) (off bytes : Nat) (op : BusOp) : Host.Outcome State Fault Refusal :=
  if bytes ≠ 4 ∨ off % 4 ≠ 0 then .fault .regAccessForm
  else
    match op with
    | .read => .next (s.answerRead (s.readReg off))
    | .write v => if off = 0 then issueCommand v s else .next (s.writeReg off v)

/-- A host access to DMEM at address `a` (R72): bytes and aligned words. A byte write takes the low 8 bits of the data. -/
def dmemAccess (s : State) (a bytes : Nat) (op : BusOp) : Host.Outcome State Fault Refusal :=
  if bytes = 1 then
    if s.cfg.dmemSize ≤ a then .fault .dmemOutOfRange
    else
      match op with
      | .read => .next (s.answerRead ((s.readByte a).setWidth 32))
      | .write v => .next (s.memWrite a [v.setWidth 8])
  else if bytes = 4 then
    if a % 4 ≠ 0 then .fault .dmemMisaligned
    else if s.cfg.dmemSize ≤ a + 3 then .fault .dmemOutOfRange
    else
      match op with
      | .read => .next (s.answerRead (s.readWord a))
      | .write v => .next (s.writeWord a v)
  else .fault .dmemWidth

/-- One host access: the register block at REG_BASE, DMEM from DMEM_BASE (R20, R70, R72). -/
def busAccess (s : State) (a : Access) : Host.Outcome State Fault Refusal :=
  if s.cfg.regBase ≤ a.addr ∧ a.addr < s.cfg.regBase + 64 then regAccess s (a.addr - s.cfg.regBase) a.bytes a.op
  else if s.cfg.dmemBase ≤ a.addr then dmemAccess s (a.addr - s.cfg.dmemBase) a.bytes a.op
  else .fault .noSuchAddress

/-- One bus event. The reset input gives the next draw of DMEM and keeps only the parameters and what the outside world does
next (R350, R351, R354). -/
def busEvent (s : State) (e : BusEvent) : Host.Outcome State Fault Refusal :=
  match e with
  | .access a => busAccess s a
  | .reset => .next (State.resetWith s.cfg (s.epoch + 1) s.bus)
  | .foreign _ => .refused .unserialisedMaster

/-- The access that writes `v` to the register at offset `off`. -/
def regWrite (c : Config) (off : Nat) (v : Word) : Access := { addr := c.regBase + off, bytes := 4, op := .write v }

/-- The access that reads the register at offset `off`. -/
def regRead (c : Config) (off : Nat) : Access := { addr := c.regBase + off, bytes := 4, op := .read }

/-- The access that writes the byte `b` to DMEM[a]. -/
def byteWrite (c : Config) (a : Nat) (b : Byte) : Access :=
  { addr := c.dmemBase + a, bytes := 1, op := .write (b.setWidth 32) }

/-- The access that reads DMEM[a]. -/
def byteRead (c : Config) (a : Nat) : Access := { addr := c.dmemBase + a, bytes := 1, op := .read }

/-- The CMD write of the command word `w` as the next bus event. -/
def State.withCommand (s : State) (w : Word) : State :=
  { s with bus := .access (regWrite s.cfg 0 w) :: s.bus }

end Sys2Proof.Machine
end

