-- ==== Sys2Proof/Machine/Step.lean ====
section
/-! DEFINITION. Sys2Proof/Machine/Step.lean: one step of the machine. -/

namespace Sys2Proof.Machine

/-- One step: the oldest pending bus event is performed, whole (R79). With none pending the core does nothing: it executes
nothing until the host writes CMD (R353). -/
def step (s : State) : Host.Outcome State Fault Refusal :=
  match s.bus with
  | [] => .next s
  | e :: rest => busEvent { s with bus := rest } e

/-- `s` with the command whose bits are `w` (numbered as the opcode table numbers them) as the value of the CMD write that the very
next step performs. The core fetches no instructions (R31, R84): a command is the value written to CMD, so a CMD write at the
front of the bus is all that running it takes (log entry 3). -/
def State.withFetchWord (s : State) (nbits w : Nat) : State := s.withCommand (BitVec.ofNat 32 (w % 2 ^ nbits))

end Sys2Proof.Machine
end

