-- ==== Sys2Proof/Machine/HostProgram.lean ====
section
/-! DEFINITION. Sys2Proof/Machine/HostProgram.lean: the host-program statements of R104 and R105 as the bus events they stand
for. -/

namespace Sys2Proof.Machine

/-- The register names of the host syntax (R104). -/
inductive HostReg where
  | cmd
  | status
  | result
  | arg0
  | arg1
  | arg2
  | arg3
  | arg4
  deriving DecidableEq, Repr

/-- The byte offset of a register (R20). -/
def HostReg.offset : HostReg → Nat
  | .cmd => 0x00
  | .status => 0x04
  | .result => 0x08
  | .arg0 => 0x10
  | .arg1 => 0x14
  | .arg2 => 0x18
  | .arg3 => 0x1C
  | .arg4 => 0x20

/-- One statement of a host program (R104, R105). -/
inductive HostStmt where
  /-- `WR reg, value` -/
  | wr (reg : HostReg) (value : Word)
  /-- `RD reg` -/
  | rd (reg : HostReg)
  /-- `WRB addr, bytes` -/
  | wrb (addr : Nat) (bytes : List Byte)
  /-- `RDB addr, len` -/
  | rdb (addr len : Nat)
  /-- `DO command, a0, a1, ...`; operands left out at the end are not written -/
  | doCmd (command : Instr) (operands : List Word)
  deriving DecidableEq, Repr

/-- The ARG writes of DO, first operand to ARG0 (R105). -/
def argWrites (c : Config) : Nat → List Word → List BusEvent
  | _, [] => []
  | off, v :: vs => .access (regWrite c off v) :: argWrites c (off + 4) vs

/-- The bus events of a statement, in the host's order (R104, R105). DO takes at most the five operands a0 to a4. -/
def HostStmt.events (c : Config) : HostStmt → List BusEvent
  | .wr reg v => [.access (regWrite c reg.offset v)]
  | .rd reg => [.access (regRead c reg.offset)]
  | .wrb addr bytes => bytes.zipIdx.map (fun p => .access (byteWrite c (addr + p.2) p.1))
  | .rdb addr len => (List.range len).map (fun i => .access (byteRead c (addr + i)))
  | .doCmd command operands => argWrites c 0x10 (operands.take 5) ++ [.access (regWrite c 0 (encode command))]

/-- The bus events of a program. -/
def programEvents (c : Config) (p : List HostStmt) : List BusEvent := p.flatMap (HostStmt.events c)

/-- A machine to which the program `p` is given: its events wait after those already pending (log entry 3). -/
def State.withProgram (s : State) (p : List HostStmt) : State := { s with bus := s.bus ++ programEvents s.cfg p }

end Sys2Proof.Machine
end

