-- ==== Sys2Proof/Safety.lean ====
section
/-! DEFINITION. Sys2Proof/Safety.lean: what counts as a good state (R38 and the widths of R32 to R36) and as a safe run, and the terms the
statements of Certificates/ are written in. -/

namespace Sys2Proof.Machine

/-- The session, keystream, authenticator and pending buffer are at their reset values (R39). -/
abbrev State.zeroised (s : State) : Prop :=
  s.session = .zero ∧ s.ks = .zero ∧ s.auth = .zero ∧ s.pbuf = []

/-- The pending-buffer and counting rules of a session by family and direction (R38 items 2 to 4, R214, R216): an encrypting CP
or GCM session holds less than one block and has used exactly the blocks of its ciphertext; a decrypting one holds at most
PBUF_CAP bytes and has used none; a STREAM session holds none. -/
def State.bufferRule (s : State) : Prop :=
  match s.status.family, s.status.dir with
  | .stream, _ => s.pbuf = []
  | fam, .encrypt =>
    s.pbuf.length < blockBytes fam ∧ s.ks.pos = s.ks.buf.length ∧ s.auth.ctLen = s.ks.used * blockBytes fam
  | _, .decrypt => s.pbuf.length ≤ s.cfg.pbufCap ∧ s.ks.used = 0 ∧ s.auth.ctLen = 0

/-- The values that INIT derives from the key and the nonce (R176, R178, R179, R149, R150, R119, R145), and the counter's place:
it has moved one on from its initial value for each block used (R143). STREAM's initial counter is the host's, so nothing is said
of it. -/
def State.keysDerived (s : State) : Prop :=
  match s.status.family with
  | .cp =>
    s.session.schedule = [] ∧ s.auth.r = polyR (oneTimeKey s.session.key s.session.nonce) ∧
    s.auth.s = polyS (oneTimeKey s.session.key s.session.nonce) ∧ s.auth.h = 0#128 ∧ s.auth.y = 0#128 ∧
    s.auth.ej0 = Auth.zero.ej0 ∧ s.ks.j0 = Keystream.zero.j0 ∧ s.ks.ctr = 1#32 + BitVec.ofNat 32 s.ks.used
  | .gcm =>
    s.session.schedule = keyExpansion s.session.key ∧ s.auth.h = ghashSubkey s.session.key ∧
    s.ks.j0 = j0Of s.auth.h s.session.nonce ∧ s.auth.ej0 = aesEncrypt s.session.key s.ks.j0 ∧
    s.auth.r = 0#128 ∧ s.auth.s = 0#128 ∧ s.auth.acc = 0 ∧
    s.ks.ctr = BitVec.ofNat 32 (beNat (slice s.ks.j0 12 16)) + 1#32 + BitVec.ofNat 32 s.ks.used
  | .stream => s.session.schedule = [] ∧ s.auth = Auth.zero ∧ s.ks.j0 = Keystream.zero.j0

/-- The staging buffer holds what is left over of the AAD while the AAD is open, and of the ciphertext once it is closed: with
AAD_CLOSED the AAD has been padded to a 16-byte boundary (R38 item 1, R186). -/
def State.stageRule (s : State) : Prop :=
  if s.status.aadClosed then s.auth.stage.length = s.auth.ctLen % 16
  else s.auth.stage.length = s.auth.aadLen % 16 ∧ s.auth.ctLen = 0

/-- The rules of an active session (R32 to R36, R38). -/
structure State.SessionInv (s : State) : Prop where
  /-- Key length of the family (R2, R231). -/
  keyLen : keyLenOk s.status.family s.session.key.length = true
  /-- Nonce length of the family (R2, R231). -/
  nonceLen : nonceLenOk s.cfg s.status.family s.session.nonce.length = true
  /-- tag_len: CP 16, GCM 12 to 16, STREAM 0 (R32). -/
  tagLen : s.session.tagLen = 16 ∨ (s.status.family = .gcm ∧ 12 ≤ s.session.tagLen ∧ s.session.tagLen ≤ 16) ∨
    (s.status.family = .stream ∧ s.session.tagLen = 0)
  /-- A STREAM session has no tag (R192). -/
  streamTag : s.status.family = .stream → s.session.tagLen = 0
  /-- B of the family (R32, R234). -/
  block : s.session.block = bufferBlockOf s.status.family
  /-- max_blocks of the family (R145). -/
  maxBlocks : s.ks.maxBlocks = maxBlocksOf s.cfg s.status.family
  /-- used <= max_blocks (R38 item 4). -/
  used : s.ks.used ≤ s.ks.maxBlocks
  /-- ks_pos <= len(ks_buf) (R38 item 4). -/
  pos : s.ks.pos ≤ s.ks.buf.length
  /-- ks_buf is empty before the first block, and then the last block made (R34, R143). -/
  bufFirst : s.ks.used = 0 → s.ks.buf = []
  /-- See `bufFirst`. -/
  bufLast : 0 < s.ks.used → s.ks.buf = s.ksBlock (s.ks.ctr - 1#32)
  /-- The pending-buffer rules. -/
  buffer : s.bufferRule
  /-- The derived values. -/
  keys : s.keysDerived
  /-- The staging rule. -/
  stage : s.stageRule
  /-- acc < 2^130 - 5 (R35, R183). -/
  acc : s.auth.acc < polyP
  /-- AAD within its limit (R241). -/
  aadLen : s.auth.aadLen ≤ aadMax s.status.family
  /-- INIT has absorbed nothing: the first AAD byte moves STATE to ACCEPTING_AAD (R24). -/
  initAad : s.status.phase = .init → s.auth.aadLen = 0
  /-- An active session is not spent (R26). -/
  notSpent : s.status.reinitRequired = false
  /-- The key and nonce of an active ENCRYPT session are in its guard slot (R33, R232). -/
  guarded : s.status.dir = .encrypt → s.guard s.status.family = some (s.session.key, s.session.nonce)

/-- A good state. -/
structure State.Inv (s : State) : Prop where
  /-- The parameters have allowed values (R6). -/
  cfg : s.cfg.wf
  /-- DMEM is in canonical form. -/
  memWf : Memory.wf s.dmem
  /-- DMEM holds no byte past its size (R71). -/
  memRange : ∀ c ∈ s.dmem, c.1 < s.cfg.dmemSize
  /-- STATE = IDLE or FINALIZED implies zeroised (R38 item 5). -/
  quiet : s.status.active = false → s.zeroised
  /-- FAMILY and DIR are 0 while STATE is IDLE (R25). -/
  idle : s.status.phase = .idle → s.status.family = .cp ∧ s.status.dir = .encrypt
  /-- AAD_CLOSED is 1 exactly in ACCEPTING_DATA (R27, R38 item 6). -/
  closed : s.status.aadClosed = true ↔ s.status.phase = .acceptingData
  /-- A consumed ENCRYPT session is spent (R26). -/
  spent : s.status.phase = .finalized → s.status.dir = .encrypt → s.status.reinitRequired = true
  /-- The rules of the active session. -/
  session : s.status.active = true → s.SessionInv

/-! ## Terms the statements use -/

/-- What a session's FINALIZE, or its exhaustion, leaves of it (R277): everything of R32 and R34 to R36 zeroised, STATE FINALIZED,
AAD_CLOSED 0, REINIT_REQUIRED set if it encrypted, FAMILY, DIR and the guard slots kept. -/
structure State.ConsumedFrom (s t : State) : Prop where
  /-- Zeroise (R39). -/
  zeroised : t.zeroised
  /-- STATE <- FINALIZED. -/
  phase : t.status.phase = .finalized
  /-- AAD_CLOSED <- 0. -/
  aadClosed : t.status.aadClosed = false
  /-- if DIR = ENCRYPT: REINIT_REQUIRED <- 1. -/
  reinit : t.status.reinitRequired = (decide (s.status.dir = .encrypt) || s.status.reinitRequired)
  /-- FAMILY keeps its value. -/
  family : t.status.family = s.status.family
  /-- DIR keeps its value. -/
  dir : t.status.dir = s.status.dir
  /-- The guard slots are kept. -/
  guardChacha : t.guardChacha = s.guardChacha
  /-- The guard slots are kept. -/
  guardGcm : t.guardGcm = s.guardGcm

/-- Two machines in the same session: equal in the parameters, in STATUS but for ERR, and in all of R32 to R36. They may differ in
ERR, RESULT, the ARG registers and DMEM: the host's accesses between two commands change no more than that. -/
structure State.SameSession (s t : State) : Prop where
  cfg : t.cfg = s.cfg
  phase : t.status.phase = s.status.phase
  family : t.status.family = s.status.family
  dir : t.status.dir = s.status.dir
  reinit : t.status.reinitRequired = s.status.reinitRequired
  aadClosed : t.status.aadClosed = s.status.aadClosed
  session : t.session = s.session
  guardChacha : t.guardChacha = s.guardChacha
  guardGcm : t.guardGcm = s.guardGcm
  ks : t.ks = s.ks
  auth : t.auth = s.auth
  pbuf : t.pbuf = s.pbuf

/-- The block transform of a session on a counter value, from its key and nonce alone: ChaCha20 for CP and STREAM (R141), AES on
J0's first 12 bytes and the big-endian counter for GCM (R142). -/
def State.blockAt (s : State) (c : Word) : List Byte :=
  match s.status.family with
  | .gcm => aesEncrypt s.session.key (s.ks.j0.take 12 ++ encBe c.toNat 4)
  | _ => chacha20Block s.session.key c s.session.nonce

/-- The initial counter of a session: the counter less the blocks made since (R143). -/
def State.ksStart (s : State) : Word := s.ks.ctr - BitVec.ofNat 32 s.ks.used

/-- How many keystream bytes a session has used: all of its blocks but what is left of the last one (R143, R144). -/
def State.ksOffset (s : State) : Nat := s.ks.used * blockBytes s.status.family + s.ks.pos - s.ks.buf.length

/-- How many keystream bytes a session may still use (R145, R148). -/
def State.ksLeft (s : State) : Nat := s.ks.maxBlocks * blockBytes s.status.family - s.ksOffset

/-- Byte `i` of a session's keystream: byte i mod B of the block whose counter is i div B past the initial one (R140 to R144). -/
def State.keystreamAt (s : State) (i : Nat) : Byte :=
  (s.blockAt (s.ksStart + BitVec.ofNat 32 (i / blockBytes s.status.family))).getD (i % blockBytes s.status.family) 0#8

/-- A byte string xored with the keystream from the session's place in it on (R144). -/
def State.crypt (s : State) (d : List Byte) : List Byte :=
  (List.range d.length).map (fun i => d.getD i 0#8 ^^^ s.keystreamAt (s.ksOffset + i))

/-- The source bytes of UPDATE and FINALIZE with the pending bytes before them: what the call works on (R212, R213). -/
def State.pending (s : State) : List Byte := s.pbuf ++ s.memRead s.args.a0.toNat s.args.a1.toNat

/-- The authenticator with the AAD closed: padded now, unless an earlier call did it (R186, R270). -/
def State.authClosed (s : State) : Auth := if s.status.aadClosed then s.auth else enginePad s.status.family s.auth

/-- The authenticator after the AAD is closed and the ciphertext `c` absorbed (R186, R187). -/
def State.authWith (s : State) (c : List Byte) : Auth :=
  { engineUpdate s.status.family s.authClosed c with ctLen := s.auth.ctLen + c.length }

/-- What a command that ran at `s` and left `t` wrote: RESULT bytes at ARG2 (R28). -/
def State.output (s t : State) : List Byte := t.memRead s.args.a2.toNat t.result.toNat

/-- Every byte of DMEM outside the `n` bytes at `a` reads in `t` as in `s`. -/
def State.sameOutside (s t : State) (a n : Nat) : Prop := ∀ x, x < a ∨ a + n ≤ x → t.readByte x = s.readByte x

/-- UPDATE and FINALIZE pass their prologue (R270): the session is active and both ranges are legal (R74). -/
def State.dataLegal (s : State) : Prop :=
  (s.status.phase = .init ∨ s.status.phase = .acceptingAad ∨ s.status.phase = .acceptingData) ∧
  s.args.a0.toNat + s.args.a1.toNat ≤ s.cfg.dmemSize ∧ s.args.a2.toNat + s.args.a3.toNat ≤ s.cfg.dmemSize

/-- What a command leaves as it is, whatever it does: the parameters, the ARG registers (R29), and the model's own fields. -/
def State.sameHost (s t : State) : Prop :=
  t.cfg = s.cfg ∧ t.args = s.args ∧ t.epoch = s.epoch ∧ t.bus = s.bus ∧ t.readData = s.readData

/-- The state a command that fails a check leaves: ERR is the code, RESULT is 0, nothing else changes (R9, R323). -/
def State.failed (s : State) (code : ErrCode) : State :=
  { s with status := { s.status with err := code }, result := 0#32 }

/-- `n` steps, or where they stop. -/
def stepsFrom : Nat → State → Host.Outcome State Fault Refusal
  | 0, s => .next s
  | n + 1, s =>
    match step s with
    | .next t => stepsFrom n t
    | .fault f => .fault f
    | .refused r => .refused r

/-- A safe run of `n` steps: no bus error, no refusal, and a good state at its end. -/
def safeRun (n : Nat) (s : State) : Prop :=
  match n with
  | 0 => s.Inv
  | n + 1 =>
    match step s with
    | .next t => safeRun n t
    | .fault _ => False
    | .refused _ => False

end Sys2Proof.Machine
end

