-- ==== Sys2Proof/Certificates/Slice0/Obligations.lean ====
section
/-! DEFINITION. Sys2Proof/Certificates/Slice0/Obligations.lean: the statements about the machine, for the provers. Their terms are
those of Safety.lean. -/

open Sys2Proof Sys2Proof.Machine

/-! ## Encoding -/

/-- No bit of an encoding is dropped: decoding the word of any well-formed command gives the command back (R90, R97). -/
def Obligations.DecodeOfEncodeIsTheCommand : Prop :=
  ∀ i : Instr, i.wellFormed = true → decode (encode i) = .ok i

/-- Each word has one meaning and each command one word: a word that decodes is the word of its command (R97, R103). -/
def Obligations.EncodeOfDecodeIsTheWord : Prop :=
  ∀ (w : Word) (i : Instr), decode w = .ok i → i.wellFormed = true ∧ encode i = w

/-- R91, R96, R97: which words are which command. The low byte is the opcode, the fields of INIT and OUTPUT_SIZE stand at their
bits, and the bits that the mask table of R96 lists "must be 0". Every other word is refused, since `decode` is a function. -/
def Obligations.DecodeReadsTheOpcodeTable : Prop :=
  ∀ w : Word,
    (∀ (m : Opmode) (f : FamilyField) (n : Nat), decode w = .ok (.init m f n) ↔
      w.toNat % 256 = 0x01 ∧ m.code = w.toNat / 2 ^ 8 % 4 ∧ f.code = w.toNat / 2 ^ 10 % 4 ∧ n = w.toNat / 2 ^ 16 % 32 ∧
      (∀ b, 12 ≤ b ∧ b ≤ 15 ∨ 21 ≤ b ∧ b ≤ 31 → w.getLsbD b = false)) ∧
    (decode w = .ok .updateAad ↔ w.toNat % 256 = 0x02 ∧ ∀ b, 8 ≤ b ∧ b ≤ 31 → w.getLsbD b = false) ∧
    (decode w = .ok .update ↔ w.toNat % 256 = 0x03 ∧ ∀ b, 8 ≤ b ∧ b ≤ 31 → w.getLsbD b = false) ∧
    (decode w = .ok .finalize ↔ w.toNat % 256 = 0x04 ∧ ∀ b, 8 ≤ b ∧ b ≤ 31 → w.getLsbD b = false) ∧
    (∀ final : Bool, decode w = .ok (.outputSize final) ↔
      w.toNat % 256 = 0x05 ∧ final = w.getLsbD 24 ∧
      (∀ b, 8 ≤ b ∧ b ≤ 23 ∨ 25 ≤ b ∧ b ≤ 31 → w.getLsbD b = false)) ∧
    (decode w = .ok .abort ↔ w.toNat % 256 = 0x06 ∧ ∀ b, 8 ≤ b ∧ b ≤ 31 → w.getLsbD b = false)

/-- R106: the worked encodings, and what its three marked words complete with. -/
def Obligations.WorkedEncodingsDecode : Prop :=
  decode 0x00000001#32 = .ok (.init .encrypt .cp 0) ∧
  decode 0x00100101#32 = .ok (.init .decrypt .cp 16) ∧
  decode 0x00000401#32 = .ok (.init .encrypt .gcm 0) ∧
  decode 0x000C0501#32 = .ok (.init .decrypt .gcm 12) ∧
  decode 0x00000801#32 = .ok (.init .encrypt .stream 0) ∧
  decode 0x00000601#32 = .ok (.init .wrap .gcm 0) ∧
  decode 0x00000002#32 = .ok .updateAad ∧
  decode 0x00000003#32 = .ok .update ∧
  decode 0x00000004#32 = .ok .finalize ∧
  decode 0x00000005#32 = .ok (.outputSize false) ∧
  decode 0x01000005#32 = .ok (.outputSize true) ∧
  decode 0x00000006#32 = .ok .abort ∧
  (∀ s : State,
    issueCommand 0x00000601#32 s = .next (s.failed .invalidParameter) ∧
    issueCommand 0x01000001#32 s = .next (s.failed .illegalCommand) ∧
    issueCommand 0x00000104#32 s = .next (s.failed .illegalCommand))

/-! ## The bus and the registers -/

/-- R21: a step whose oldest pending access is a write to CMD runs the command that the written word decodes to, on the machine
without that access; CMD reads as 0. The second clause says the same of `withFetchWord`. -/
def Obligations.StepRunsTheWrittenCommand : Prop :=
  (∀ (s : State) (w : Word) (i : Instr) (rest : List BusEvent), decode w = .ok i →
    step { s with bus := .access (regWrite s.cfg 0x00 w) :: rest } = exec i { s with bus := rest }) ∧
  (∀ (s : State) (nbits w : Nat) (i : Instr), decodeTableWord nbits w = some i →
    step (s.withFetchWord nbits w) = exec i s) ∧
  (∀ (s : State) (rest : List BusEvent),
    step { s with bus := .access (regRead s.cfg 0x00) :: rest } = .next { s with bus := rest, readData := 0#32 })

/-- R101: a word that decodes to ILLEGAL completes with ILLEGAL_COMMAND and RESULT 0 and changes nothing else. -/
def Obligations.IllegalWordCompletesIllegalCommand : Prop :=
  ∀ (s : State) (w : Word) (e : IllegalWord) (rest : List BusEvent), decode w = .error e →
    step { s with bus := .access (regWrite s.cfg 0x00 w) :: rest } =
      .next { s with bus := rest, status := { s.status with err := .illegalCommand }, result := 0#32 }

/-- With no host access pending a step leaves the machine as it is (R353; that a step is then taken at all is the model's
choice, log entry 3). -/
def Obligations.IdleBusChangesNothing : Prop :=
  ∀ s : State, s.bus = [] → step s = .next s

/-- R20, R30: what each of the 16 words of the register block reads, that each reads 0 after reset, and that a write to any but
CMD and ARG0 to ARG4 has no effect, and a write to an ARG changes that ARG alone. -/
def Obligations.RegisterBlockMap : Prop :=
  ∀ (s : State) (rest : List BusEvent),
    (∀ p ∈ [(0x00, 0#32), (0x04, s.status.word), (0x08, s.result), (0x0C, 0#32), (0x10, s.args.a0), (0x14, s.args.a1),
        (0x18, s.args.a2), (0x1C, s.args.a3), (0x20, s.args.a4), (0x24, 0#32), (0x28, 0#32), (0x2C, 0#32), (0x30, 0#32),
        (0x34, 0#32), (0x38, 0#32), (0x3C, 0#32)],
      step { s with bus := .access (regRead s.cfg p.1) :: rest } = .next { s with bus := rest, readData := p.2 } ∧
      ∀ t, step { s with bus := .reset :: .access (regRead s.cfg p.1) :: rest } = .next t →
        step t = .next { t with bus := rest, readData := 0#32 }) ∧
    (∀ v : Word, ∀ off ∈ [0x04, 0x08, 0x0C, 0x24, 0x28, 0x2C, 0x30, 0x34, 0x38, 0x3C],
      step { s with bus := .access (regWrite s.cfg off v) :: rest } = .next { s with bus := rest }) ∧
    (∀ v : Word, ∀ p ∈ [(0x10, { s.args with a0 := v }), (0x14, { s.args with a1 := v }), (0x18, { s.args with a2 := v }),
        (0x1C, { s.args with a3 := v }), (0x20, { s.args with a4 := v })],
      step { s with bus := .access (regWrite s.cfg p.1 v) :: rest } = .next { s with bus := rest, args := p.2 })

/-- R22: the STATUS word has each field at its bits with its numbers, reads 0 in bits 7 and 31 to 13, is 0 after reset, and is
written by nothing the host does but a command (reset apart). -/
def Obligations.StatusWordAndWriters : Prop :=
  (∀ st : Status,
    st.word.toNat % 16 = (match st.err with
      | .ok => 0
      | .invalidKey => 1
      | .invalidParameter => 2
      | .bufferTooSmall => 3
      | .authenticationFailed => 4
      | .counterExhausted => 5
      | .illegalState => 6
      | .capacityExceeded => 7
      | .illegalCommand => 8
      | .addressError => 9) ∧
    st.word.toNat / 2 ^ 4 % 8 = (match st.phase with
      | .idle => 0
      | .init => 1
      | .acceptingAad => 2
      | .acceptingData => 3
      | .finalized => 4) ∧
    st.word.getLsbD 7 = false ∧
    st.word.toNat / 2 ^ 8 % 4 = (match st.family with
      | .cp => 0
      | .gcm => 1
      | .stream => 2) ∧
    st.word.getLsbD 10 = decide (st.dir = .decrypt) ∧
    st.word.getLsbD 11 = st.reinitRequired ∧
    st.word.getLsbD 12 = st.aadClosed ∧
    ∀ b, 13 ≤ b → st.word.getLsbD b = false) ∧
  (∀ (s t : State) (rest : List BusEvent), step { s with bus := .reset :: rest } = .next t → t.status.word = 0#32) ∧
  (∀ (s t : State) (a : Access), busAccess s a = .next t → ¬ (a.addr = s.cfg.regBase ∧ ∃ w, a.op = .write w) →
    t.status = s.status)

/-- R29: an ARG register holds all 32 bits of what the host last wrote to it, for any of the five and any value; and no command
writes one. -/
def Obligations.ArgRegistersHoldWhatTheHostWrote : Prop :=
  (∀ (s : State) (v : Word) (rest : List BusEvent), ∀ off ∈ [0x10, 0x14, 0x18, 0x1C, 0x20],
    ∃ t, step { s with bus := .access (regWrite s.cfg off v) :: .access (regRead s.cfg off) :: rest } = .next t ∧
      step t = .next { t with bus := rest, readData := v } ∧
      ∀ off' ∈ [0x10, 0x14, 0x18, 0x1C, 0x20], off' ≠ off → t.readReg off' = s.readReg off') ∧
  (∀ (i : Instr) (s t : State), exec i s = .next t → t.args = s.args)

/-- R72: byte accesses and aligned little-endian word accesses of DMEM, each changing no byte but its own, and the bus errors.
(`readData` is where the model puts what a read returns, log entry 4.) -/
def Obligations.DmemHostAccess : Prop :=
  ∀ (s : State) (rest : List BusEvent) (a : Nat), s.cfg.wf →
    (a < s.cfg.dmemSize →
      (∃ v, step { s with bus := .access (byteRead s.cfg a) :: rest } = .next { s with bus := rest, readData := v } ∧
        v.extractLsb' 0 8 = s.readByte a) ∧
      (∀ b : Byte, ∃ t, step { s with bus := .access (byteWrite s.cfg a b) :: rest } = .next t ∧
        t = { s with bus := rest, dmem := t.dmem } ∧ t.readByte a = b ∧ s.sameOutside t a 1)) ∧
    (a % 4 = 0 → a + 3 < s.cfg.dmemSize →
      (∃ v, step { s with bus := .access ⟨s.cfg.dmemBase + a, 4, .read⟩ :: rest } =
          .next { s with bus := rest, readData := v } ∧
        v.extractLsb' 0 8 = s.readByte a ∧ v.extractLsb' 8 8 = s.readByte (a + 1) ∧
        v.extractLsb' 16 8 = s.readByte (a + 2) ∧ v.extractLsb' 24 8 = s.readByte (a + 3)) ∧
      (∀ v : Word, ∃ t, step { s with bus := .access ⟨s.cfg.dmemBase + a, 4, .write v⟩ :: rest } = .next t ∧
        t = { s with bus := rest, dmem := t.dmem } ∧
        t.readByte a = v.extractLsb' 0 8 ∧ t.readByte (a + 1) = v.extractLsb' 8 8 ∧
        t.readByte (a + 2) = v.extractLsb' 16 8 ∧ t.readByte (a + 3) = v.extractLsb' 24 8 ∧ s.sameOutside t a 4)) ∧
    (∀ (n : Nat) (op : BusOp),
      ¬ (s.cfg.regBase ≤ s.cfg.dmemBase + a ∧ s.cfg.dmemBase + a < s.cfg.regBase + 64) →
      (n = 4 ∧ a % 4 ≠ 0 ∨ s.cfg.dmemSize ≤ a ∨ n = 4 ∧ s.cfg.dmemSize ≤ a + 3 ∨ (n ≠ 1 ∧ n ≠ 4)) →
      ∃ f, step { s with bus := .access ⟨s.cfg.dmemBase + a, n, op⟩ :: rest } = .fault f)

/-- R73: an access to the register block is a bus error exactly when it is not an aligned 32-bit one. -/
def Obligations.RegisterAccessForms : Prop :=
  ∀ (s : State) (rest : List BusEvent) (off n : Nat) (op : BusOp), off < 64 →
    ((∃ f, step { s with bus := .access ⟨s.cfg.regBase + off, n, op⟩ :: rest } = .fault f) ↔ n ≠ 4 ∨ off % 4 ≠ 0)

/-- R80: a read changes nothing (but what the host is answered, log entry 4); a write to the register block other than to CMD
changes only the register written; a write to DMEM changes only the bytes written. -/
def Obligations.AccessesChangeOnlyTheirLocation : Prop :=
  ∀ (s t : State) (a : Access), busAccess s a = .next t →
    (a.op = .read → t = { s with readData := t.readData }) ∧
    (∀ v, a.op = .write v → s.cfg.regBase < a.addr → a.addr < s.cfg.regBase + 64 →
      t = { s with args := t.args } ∧ ∀ off, off ≠ a.addr - s.cfg.regBase → t.readReg off = s.readReg off) ∧
    (∀ v, a.op = .write v → ¬ (s.cfg.regBase ≤ a.addr ∧ a.addr < s.cfg.regBase + 64) →
      t = { s with dmem := t.dmem } ∧ s.sameOutside t (a.addr - s.cfg.dmemBase) a.bytes)

/-- The host cannot learn the session (R37): what an access reads depends only on STATUS, RESULT, the ARG registers and DMEM, so two
machines that agree on these, whatever their keys, keystream, authenticator, pending bytes and guard slots, answer alike. -/
def Obligations.HostReadsSeeOnlyVisibleState : Prop :=
  ∀ (s t s' t' : State) (a : Access), a.op = .read → t.cfg = s.cfg → t.status = s.status → t.result = s.result →
    t.args = s.args → (∀ x, t.readByte x = s.readByte x) → busAccess s a = .next s' → busAccess t a = .next t' →
    t'.readData = s'.readData

/-- R362: an access of a second bus master that interleaves with the host's is refused. -/
def Obligations.InterleavedMasterIsRefused : Prop :=
  ∀ (s : State) (a : Access) (rest : List BusEvent),
    step { s with bus := .foreign a :: rest } = .refused .unserialisedMaster

/-- R350: reset sets every piece of state but DMEM to its reset value. -/
def Obligations.ResetSetsEveryRegister : Prop :=
  (∀ (s : State) (rest : List BusEvent), ∃ t, step { s with bus := .reset :: rest } = .next t ∧
    t.cfg = s.cfg ∧ t.bus = rest ∧ t.status.word = 0#32 ∧ t.result = 0#32 ∧
    t.args = ⟨0#32, 0#32, 0#32, 0#32, 0#32⟩ ∧
    t.session = { key := [], schedule := [], nonce := [], tagLen := 0, block := 0 } ∧
    t.guardChacha = none ∧ t.guardGcm = none ∧
    t.ks = { ctr := 0#32, used := 0, maxBlocks := 0, j0 := List.replicate 16 0#8, buf := [], pos := 0 } ∧
    t.auth =
      { aadLen := 0, ctLen := 0, stage := [], r := 0#128, s := 0#128, acc := 0, h := 0#128, y := 0#128,
        ej0 := List.replicate 16 0#8 } ∧
    t.pbuf = []) ∧
  (∀ s : State, s = State.reset → s.status.word = 0#32 ∧ s.result = 0#32 ∧ s.args = ⟨0#32, 0#32, 0#32, 0#32, 0#32⟩ ∧
    s.zeroised ∧ s.guardChacha = none ∧ s.guardGcm = none)

/-- The model's form of R351 (log entry 2): after a reset no byte of DMEM is what it was written to before; every byte reads as a
free value drawn for that reset. -/
def Obligations.ResetDrawsDmemAfresh : Prop :=
  ∀ (s t : State) (rest : List BusEvent), step { s with bus := .reset :: rest } = .next t →
    t.epoch = s.epoch + 1 ∧ ∀ a, t.readByte a = Config.freeByte (s.epoch + 1) a

/-- R105: DO with up to five operands sets ARG0, ARG1, ... in order, leaves the trailing ARGs that are left out, runs the command,
and has no other effect. -/
def Obligations.DoSetsArgsAndRunsTheCommand : Prop :=
  ∀ (s : State) (i : Instr) (ops : List Word), s.bus = [] → i.wellFormed = true → ops.length ≤ 5 →
    stepsFrom (ops.length + 1) (s.withProgram [.doCmd i ops]) =
      exec i { s with
        args :=
          { a0 := ops.getD 0 s.args.a0, a1 := ops.getD 1 s.args.a1, a2 := ops.getD 2 s.args.a2,
            a3 := ops.getD 3 s.args.a3, a4 := ops.getD 4 s.args.a4 } }

/-! ## All commands -/

/-- R320: every command ends with exactly one status code, of 0 to 9; no code is sticky: what a command does, its code and its
RESULT depend on neither the ERR nor the RESULT that stood before it. -/
def Obligations.EveryCommandEndsWithAFreshCode : Prop :=
  ∀ (i : Instr) (s : State), ∃ t, exec i s = .next t ∧ t.status.err.code ≤ 9 ∧
    ∀ (c : ErrCode) (r : Word), exec i { s with status := { s.status with err := c }, result := r } = .next t

/-- The frame of all commands: the parameters, the ARG registers (R29) and the model's own fields are as before. -/
def Obligations.CommandsKeepTheHostSide : Prop :=
  ∀ (i : Instr) (s t : State), exec i s = .next t → s.sameHost t

/-- R323: every error but AUTHENTICATION_FAILED and COUNTER_EXHAUSTED leaves everything but ERR and RESULT as it was; those two
consume the session and write no byte outside the destination range. -/
def Obligations.ErrorsAreAllOrNothing : Prop :=
  ∀ (i : Instr) (s t : State), exec i s = .next t → t.status.err ≠ .ok →
    (t.status.err ≠ .authenticationFailed → t.status.err ≠ .counterExhausted → t = s.failed t.status.err) ∧
    (t.status.err = .authenticationFailed ∨ t.status.err = .counterExhausted →
      s.ConsumedFrom t ∧ s.sameOutside t s.args.a2.toNat s.args.a3.toNat ∧
      (t.status.err = .authenticationFailed → t.result = 0#32))

/-- Errors are deterministic (R322): the same command issued again, right after an error that changed nothing, gives the same code
and again changes nothing. -/
def Obligations.RetryGivesTheSameError : Prop :=
  ∀ (i : Instr) (s t : State), exec i s = .next t → t.status.err ≠ .ok → t.status.err ≠ .authenticationFailed →
    t.status.err ≠ .counterExhausted → exec i t = .next t

/-- R33: a guard slot changes only by a successful ENCRYPT INIT of its families, which leaves the other slot alone; and only INIT
reads a slot: any other command does the same whatever the slots hold. Both are EMPTY after reset. -/
def Obligations.GuardSlotsBelongToInit : Prop :=
  (∀ (i : Instr) (s t : State), exec i s = .next t →
    (t.guardChacha ≠ s.guardChacha → t.status.err = .ok ∧ ∃ n, i = .init .encrypt .cp n ∨ i = .init .encrypt .stream n) ∧
    (t.guardGcm ≠ s.guardGcm → t.status.err = .ok ∧ ∃ n, i = .init .encrypt .gcm n)) ∧
  (∀ (i : Instr) (s t : State) (g g' : GuardSlot), (∀ m f n, i ≠ .init m f n) → exec i s = .next t →
    exec i { s with guardChacha := g, guardGcm := g' } = .next { t with guardChacha := g, guardGcm := g' }) ∧
  (∀ (s t : State) (rest : List BusEvent), step { s with bus := .reset :: rest } = .next t →
    t.guardChacha = none ∧ t.guardGcm = none)

/-- R24: how STATE moves, for every command and every outcome, and that nothing else moves it. -/
def Obligations.StateFollowsTheTransitionTable : Prop :=
  (∀ (i : Instr) (s t : State), exec i s = .next t →
    t.status.phase = (match i with
      | .init _ _ _ => if t.status.err = .ok then .init else s.status.phase
      | .updateAad => if t.status.err = .ok ∧ 0 < s.args.a1.toNat then .acceptingAad else s.status.phase
      | .update =>
        if t.status.err = .ok then .acceptingData
        else if t.status.err = .counterExhausted then .finalized else s.status.phase
      | .finalize =>
        if t.status.err = .ok ∨ t.status.err = .counterExhausted ∨ t.status.err = .authenticationFailed then .finalized
        else s.status.phase
      | .outputSize _ => s.status.phase
      | .abort => .idle) ∧
    (i = .updateAad → t.status.err = .ok → s.status.phase = .init ∨ s.status.phase = .acceptingAad) ∧
    (i = .update ∨ i = .finalize → t.status.phase ≠ s.status.phase →
      s.status.phase = .init ∨ s.status.phase = .acceptingAad ∨ s.status.phase = .acceptingData)) ∧
  (∀ (s t : State) (rest : List BusEvent), step { s with bus := .reset :: rest } = .next t → t.status.phase = .idle) ∧
  (∀ (s t : State) (a : Access), busAccess s a = .next t →
    ¬ (a.addr = s.cfg.regBase ∧ ∃ w i, a.op = .write w ∧ decode w = .ok i) → t.status.phase = s.status.phase)

/-- R25: FAMILY and DIR are those of the last successful INIT while STATE is not IDLE, and 0 while it is: a successful INIT sets
them, ABORT and reset clear them and leave STATE IDLE, and no other command or access changes them. -/
def Obligations.FamilyAndDirAreTheLastInits : Prop :=
  (∀ (i : Instr) (s t : State), exec i s = .next t →
    (∀ m f n, i = .init m f n → t.status.err = .ok →
      (m = .encrypt ∧ t.status.dir = .encrypt ∨ m = .decrypt ∧ t.status.dir = .decrypt) ∧
      (f = .cp ∧ t.status.family = .cp ∨ f = .gcm ∧ t.status.family = .gcm ∨ f = .stream ∧ t.status.family = .stream)) ∧
    ((∀ m f n, i = .init m f n → t.status.err ≠ .ok) → i ≠ .abort →
      t.status.family = s.status.family ∧ t.status.dir = s.status.dir) ∧
    (i = .abort → t.status.phase = .idle ∧ t.status.family = .cp ∧ t.status.dir = .encrypt) ∧
    ((s.status.phase = .idle → s.status.family = .cp ∧ s.status.dir = .encrypt) →
      t.status.phase = .idle → t.status.family = .cp ∧ t.status.dir = .encrypt)) ∧
  (∀ (s t : State) (rest : List BusEvent), step { s with bus := .reset :: rest } = .next t →
    t.status.phase = .idle ∧ t.status.family = .cp ∧ t.status.dir = .encrypt) ∧
  (∀ (s t : State) (a : Access), busAccess s a = .next t →
    ¬ (a.addr = s.cfg.regBase ∧ ∃ w i, a.op = .write w ∧ decode w = .ok i) →
    t.status.family = s.status.family ∧ t.status.dir = s.status.dir)

/-- R26: REINIT_REQUIRED is set when an ENCRYPT session is consumed, cleared by a successful INIT, and unchanged by everything else
but reset (illegal words included); and while STATE is FINALIZED no command but INIT and ABORT does anything. -/
def Obligations.ReinitRequiredMarksSpentSessions : Prop :=
  (∀ (i : Instr) (s t : State), exec i s = .next t →
    t.status.reinitRequired =
      (match i with
        | .init _ _ _ => if t.status.err = .ok then false else s.status.reinitRequired
        | .update =>
          if t.status.err = .counterExhausted ∧ s.status.dir = .encrypt then true else s.status.reinitRequired
        | .finalize =>
          if (t.status.err = .ok ∨ t.status.err = .counterExhausted ∨ t.status.err = .authenticationFailed) ∧
            s.status.dir = .encrypt then true else s.status.reinitRequired
        | _ => s.status.reinitRequired) ∧
    (s.status.phase = .finalized → (∀ m f n, i ≠ .init m f n) → i ≠ .abort → t = s.failed .illegalState)) ∧
  (∀ (s t : State) (a : Access), busAccess s a = .next t →
    ¬ (a.addr = s.cfg.regBase ∧ ∃ w i, a.op = .write w ∧ decode w = .ok i) →
    t.status.reinitRequired = s.status.reinitRequired)

/-- AAD_CLOSED (R27, R38 items 1 and 6): an UPDATE that completes OK sets it; INIT, consumption (so every FINALIZE that passes its
checks) and ABORT clear it; nothing else changes it. In a CP or GCM session the UPDATE that sets it absorbs the AAD padding: a
decrypting one nothing more, an encrypting one then the ciphertext it wrote. (A FINALIZE pads within its own call: its tag is that
of `authClosed`, in FinalizeEncryptsAndAppendsTheTag and FinalizeDecryptsWhenTheTagMatches.) -/
def Obligations.AadClosedFollowsItsRule : Prop :=
  ∀ (i : Instr) (s t : State), exec i s = .next t →
    t.status.aadClosed =
      (match i with
        | .init _ _ _ => if t.status.err = .ok then false else s.status.aadClosed
        | .updateAad => s.status.aadClosed
        | .update =>
          if t.status.err = .ok then true
          else if t.status.err = .counterExhausted then false else s.status.aadClosed
        | .finalize =>
          if t.status.err = .ok ∨ t.status.err = .counterExhausted ∨ t.status.err = .authenticationFailed then false
          else s.status.aadClosed
        | .outputSize _ => s.status.aadClosed
        | .abort => false) ∧
    (i = .update → s.status.family ≠ .stream → s.status.dir = .decrypt → t.status.err = .ok → s.status.aadClosed = false →
      t.auth.stage = [] ∧ t.auth = enginePad s.status.family s.auth) ∧
    (i = .update → s.status.family ≠ .stream → s.status.dir = .encrypt → t.status.err = .ok →
      t.auth = s.authWith (s.output t) ∧
      (s.status.aadClosed = false → s.authClosed = enginePad s.status.family s.auth ∧ s.authClosed.stage = []))

/-- R284: UPDATE and FINALIZE raise ILLEGAL_STATE exactly in IDLE and FINALIZED, so they are legal in INIT, ACCEPTING_AAD and
ACCEPTING_DATA; and so does OUTPUT_SIZE (R245). -/
def Obligations.DataCommandsNeedAnActiveSession : Prop :=
  ∀ (i : Instr) (s t : State), i = .update ∨ i = .finalize ∨ (∃ final, i = .outputSize final) → exec i s = .next t →
    (t.status.err = .illegalState ↔ s.status.phase = .idle ∨ s.status.phase = .finalized)

/-- R277: a FINALIZE that gets past its checks, and an UPDATE that meets exhaustion, consume the session; and a consumed session
turns every command but INIT and ABORT away. -/
def Obligations.FinalizeConsumesTheSession : Prop :=
  ∀ s t : State,
    (exec .finalize s = .next t ∧
        (t.status.err = .ok ∨ t.status.err = .authenticationFailed ∨ t.status.err = .counterExhausted) ∨
      exec .update s = .next t ∧ t.status.err = .counterExhausted) →
    s.ConsumedFrom t ∧
    exec .updateAad t = .next (t.failed .illegalState) ∧ exec .update t = .next (t.failed .illegalState) ∧
    exec .finalize t = .next (t.failed .illegalState) ∧
    ∀ final, exec (.outputSize final) t = .next (t.failed .illegalState)

/-! ## INIT -/

/-- R231, R232: INIT's checks in their order; the first that fails is the whole effect, and with none failing INIT completes OK. -/
def Obligations.InitReportsTheFirstFailingCheck : Prop :=
  ∀ (m : Opmode) (f : FamilyField) (n : Nat) (s : State),
    let klen := s.args.a1.toNat
    let nlen := s.args.a3.toNat
    let pair := (s.memRead s.args.a0.toNat klen, s.memRead s.args.a2.toNat nlen)
    let slot := if f = .gcm then s.guardGcm else s.guardChacha
    let code : ErrCode :=
      if m = .wrap ∨ m = .unwrap then .invalidParameter
      else if f = .fam3 then .invalidParameter
      else if (f = .cp ∨ f = .stream) ∧ klen ≠ 32 then .invalidKey
      else if f = .gcm ∧ klen ≠ 16 ∧ klen ≠ 24 ∧ klen ≠ 32 then .invalidKey
      else if (f = .cp ∨ f = .stream) ∧ nlen ≠ 12 then .invalidParameter
      else if f = .gcm ∧ ¬ (1 ≤ nlen ∧ nlen ≤ s.cfg.nonceMax) then .invalidParameter
      else if f = .cp ∧ n ≠ 0 ∧ n ≠ 16 then .invalidParameter
      else if f = .gcm ∧ n ≠ 0 ∧ ¬ (12 ≤ n ∧ n ≤ 16) then .invalidParameter
      else if f = .stream ∧ n ≠ 0 then .invalidParameter
      else if s.cfg.dmemSize < s.args.a0.toNat + klen ∨ s.cfg.dmemSize < s.args.a2.toNat + nlen then .addressError
      else if m = .encrypt ∧ slot = some pair then .invalidKey
      else .ok
    (code ≠ .ok → exec (.init m f n) s = .next (s.failed code)) ∧
    (code = .ok → ∃ t, exec (.init m f n) s = .next t ∧ t.status.err = .ok ∧ t.result = 0#32)

/-- R233, R234, R236: what INIT leaves when every check passes, in full, for the three families and both directions: the old
session is gone, an ENCRYPT INIT writes its slot, and key, nonce, counters, subkeys and STATUS are the new session's. -/
def Obligations.InitLoadsTheSession : Prop :=
  ∀ (m : Opmode) (dir : Dir) (n : Nat) (s : State),
    let key := s.memRead s.args.a0.toNat s.args.a1.toNat
    let nonce := s.memRead s.args.a2.toNat s.args.a3.toNat
    m = .encrypt ∧ dir = .encrypt ∨ m = .decrypt ∧ dir = .decrypt →
    s.args.a0.toNat + s.args.a1.toNat ≤ s.cfg.dmemSize → s.args.a2.toNat + s.args.a3.toNat ≤ s.cfg.dmemSize →
    (s.args.a1.toNat = 32 → s.args.a3.toNat = 12 → n = 0 ∨ n = 16 →
      (m = .encrypt → s.guardChacha ≠ some (key, nonce)) →
      let otk := (chacha20Block key 0#32 nonce).take 32
      exec (.init m .cp n) s = .next
        { s with
          status := { err := .ok, phase := .init, family := .cp, dir := dir, reinitRequired := false, aadClosed := false }
          result := 0#32
          session := { key := key, schedule := [], nonce := nonce, tagLen := 16, block := 64 }
          guardChacha := if m = .encrypt then some (key, nonce) else s.guardChacha
          ks := { Keystream.zero with ctr := 1#32, maxBlocks := 2 ^ s.cfg.exhaustShift }
          auth := { Auth.zero with
            r := BitVec.ofNat 128 (leNat (otk.take 16)) &&& 0x0ffffffc0ffffffc0ffffffc0fffffff#128
            s := BitVec.ofNat 128 (leNat (otk.drop 16)) }
          pbuf := [] }) ∧
    (s.args.a1.toNat = 16 ∨ s.args.a1.toNat = 24 ∨ s.args.a1.toNat = 32 → 1 ≤ s.args.a3.toNat →
      s.args.a3.toNat ≤ s.cfg.nonceMax → n = 0 ∨ 12 ≤ n ∧ n ≤ 16 → (m = .encrypt → s.guardGcm ≠ some (key, nonce)) →
      let h := BitVec.ofNat 128 (beNat (aesEncrypt key (zeros 16)))
      let j0 :=
        if s.args.a3.toNat = 12 then nonce ++ [0x00#8, 0x00#8, 0x00#8, 0x01#8]
        else ghashOneShot h (nonce ++ zeros ((16 - s.args.a3.toNat % 16) % 16) ++ zeros 8 ++ encBe (8 * s.args.a3.toNat) 8)
      exec (.init m .gcm n) s = .next
        { s with
          status := { err := .ok, phase := .init, family := .gcm, dir := dir, reinitRequired := false, aadClosed := false }
          result := 0#32
          session :=
            { key := key, schedule := keyExpansion key, nonce := nonce, tagLen := if n = 0 then 16 else n, block := 16 }
          guardGcm := if m = .encrypt then some (key, nonce) else s.guardGcm
          ks := { Keystream.zero with
            j0 := j0, ctr := BitVec.ofNat 32 (beNat (j0.drop 12)) + 1#32, maxBlocks := 2 ^ s.cfg.exhaustShift - 2 }
          auth := { Auth.zero with h := h, ej0 := aesEncrypt key j0 }
          pbuf := [] }) ∧
    (s.args.a1.toNat = 32 → s.args.a3.toNat = 12 → n = 0 → (m = .encrypt → s.guardChacha ≠ some (key, nonce)) →
      exec (.init m .stream n) s = .next
        { s with
          status :=
            { err := .ok, phase := .init, family := .stream, dir := dir, reinitRequired := false, aadClosed := false }
          result := 0#32
          session := { key := key, schedule := [], nonce := nonce, tagLen := 0, block := 1 }
          guardChacha := if m = .encrypt then some (key, nonce) else s.guardChacha
          ks := { Keystream.zero with ctr := s.args.a4, maxBlocks := 2 ^ s.cfg.exhaustShift }
          auth := Auth.zero
          pbuf := [] })

/-- The nonce-reuse guard at work (R235): after a successful ENCRYPT INIT, an ENCRYPT INIT with the same key and nonce completes
INVALID_KEY, at once and after an ABORT, and also as the other of CP and STREAM, which share a slot; a DECRYPT INIT is accepted. -/
def Obligations.RepeatedEncryptInitIsRejected : Prop :=
  ∀ (f : FamilyField) (n : Nat) (s t : State), exec (.init .encrypt f n) s = .next t → t.status.err = .ok →
    exec (.init .encrypt f n) t = .next (t.failed .invalidKey) ∧
    (∃ u, exec .abort t = .next u ∧ exec (.init .encrypt f n) u = .next (u.failed .invalidKey)) ∧
    (∃ u, exec (.init .decrypt f n) t = .next u ∧ u.status.err = .ok) ∧
    (f = .cp → exec (.init .encrypt .stream 0) t = .next (t.failed .invalidKey)) ∧
    (f = .stream → exec (.init .encrypt .cp 0) t = .next (t.failed .invalidKey))

/-! ## UPDATE_AAD, OUTPUT_SIZE, ABORT -/

/-- R240, R241: UPDATE_AAD's checks in their order, the zero-length no-op, and the absorption of the AAD; it changes nothing but
STATUS, RESULT and the authenticator. -/
def Obligations.UpdateAadAbsorbsTheAad : Prop :=
  ∀ s : State,
    let n := s.args.a1.toNat
    let limit := if s.status.family = .gcm then 2 ^ 61 - 1 else 2 ^ 64 - 1
    (¬ (s.status.phase = .init ∨ s.status.phase = .acceptingAad) →
      exec .updateAad s = .next (s.failed .illegalState)) ∧
    (s.status.family = .stream → exec .updateAad s = .next (s.failed .illegalState)) ∧
    (s.status.phase = .init ∨ s.status.phase = .acceptingAad → s.status.family ≠ .stream →
      (s.cfg.dmemSize < s.args.a0.toNat + n → exec .updateAad s = .next (s.failed .addressError)) ∧
      (s.args.a0.toNat + n ≤ s.cfg.dmemSize → limit < s.auth.aadLen + n →
        exec .updateAad s = .next (s.failed .illegalState)) ∧
      (s.args.a0.toNat + n ≤ s.cfg.dmemSize → s.auth.aadLen + n ≤ limit → n = 0 →
        exec .updateAad s = .next { s with status := { s.status with err := .ok }, result := 0#32 }) ∧
      (s.args.a0.toNat + n ≤ s.cfg.dmemSize → s.auth.aadLen + n ≤ limit → 0 < n →
        exec .updateAad s = .next
          { s with
            status := { s.status with err := .ok, phase := .acceptingAad }
            result := 0#32
            auth :=
              { engineUpdate s.status.family s.auth (s.memRead s.args.a0.toNat n) with aadLen := s.auth.aadLen + n } }))

/-- R245: OUTPUT_SIZE computes the size a later UPDATE or FINALIZE needs, saturated, and changes nothing but ERR and RESULT. -/
def Obligations.OutputSizeComputesTheSize : Prop :=
  ∀ (s : State) (final : Bool),
    let n := s.args.a1.toNat
    let r :=
      if s.status.family = .stream then n
      else if s.status.dir = .encrypt then
        if final = false then (s.pbuf.length + n) / s.session.block * s.session.block
        else s.pbuf.length + n + s.session.tagLen
      else if final = false then 0
      else max (s.pbuf.length + n - s.session.tagLen) 0
    (s.status.phase = .init ∨ s.status.phase = .acceptingAad ∨ s.status.phase = .acceptingData →
      exec (.outputSize final) s = .next
        { s with status := { s.status with err := .ok }, result := BitVec.ofNat 32 (min r (2 ^ 32 - 1)) }) ∧
    (s.status.phase = .idle ∨ s.status.phase = .finalized →
      exec (.outputSize final) s = .next (s.failed .illegalState))

/-- RESULT of a successful UPDATE is what OUTPUT_SIZE gave for it, and of a successful FINALIZE what OUTPUT_SIZE FINAL gave (R280,
last sentence; R245). -/
def Obligations.OutputSizePredictsResult : Prop :=
  ∀ s t u : State,
    (exec .update s = .next t → t.status.err = .ok → exec (.outputSize false) s = .next u → u.result = t.result) ∧
    (exec .finalize s = .next t → t.status.err = .ok → exec (.outputSize true) s = .next u → u.result = t.result)

/-- R250: ABORT, in every state, zeroises the session and goes to IDLE; it keeps the guard slots, REINIT_REQUIRED and DMEM. -/
def Obligations.AbortEndsTheSession : Prop :=
  ∀ s : State, exec .abort s = .next
    { s with
      status :=
        { err := .ok, phase := .idle, family := .cp, dir := .encrypt, reinitRequired := s.status.reinitRequired,
          aadClosed := false }
      result := 0#32
      session := { key := [], schedule := [], nonce := [], tagLen := 0, block := 0 }
      ks := { ctr := 0#32, used := 0, maxBlocks := 0, j0 := List.replicate 16 0#8, buf := [], pos := 0 }
      auth :=
        { aadLen := 0, ctLen := 0, stage := [], r := 0#128, s := 0#128, acc := 0, h := 0#128, y := 0#128,
          ej0 := List.replicate 16 0#8 }
      pbuf := [] }

/-! ## UPDATE and FINALIZE -/

/-- The checks of UPDATE and FINALIZE before any effect, in their order (R270 to R276, R324): the first that fails is the whole
effect; with none failing, only COUNTER_EXHAUSTED and, for a decrypting FINALIZE, AUTHENTICATION_FAILED can still come. -/
def Obligations.DataCommandsReportTheFirstFailingCheck : Prop :=
  ∀ s : State,
    let n := s.args.a1.toNat
    let cap := s.args.a3.toNat
    let prologue : ErrCode :=
      if s.status.phase = .idle ∨ s.status.phase = .finalized then .illegalState
      else if s.cfg.dmemSize < s.args.a0.toNat + n ∨ s.cfg.dmemSize < s.args.a2.toNat + cap then .addressError
      else .ok
    let updateCode : ErrCode :=
      if prologue ≠ .ok then prologue
      else if s.status.family = .stream then if cap < n then .bufferTooSmall else .ok
      else if s.status.dir = .encrypt then
        if cap < (s.pbuf.length + n) / s.session.block * s.session.block then .bufferTooSmall else .ok
      else if s.cfg.pbufCap < s.pbuf.length + n then .capacityExceeded
      else .ok
    let finalizeCode : ErrCode :=
      if prologue ≠ .ok then prologue
      else if s.status.family = .stream then if cap < n then .bufferTooSmall else .ok
      else if s.status.dir = .encrypt then
        if cap < s.pbuf.length + n + s.session.tagLen then .bufferTooSmall else .ok
      else if cap < s.pbuf.length + n - s.session.tagLen then .bufferTooSmall
      else .ok
    (updateCode ≠ .ok → exec .update s = .next (s.failed updateCode)) ∧
    (updateCode = .ok → ∃ t, exec .update s = .next t ∧ (t.status.err = .ok ∨ t.status.err = .counterExhausted)) ∧
    (finalizeCode ≠ .ok → exec .finalize s = .next (s.failed finalizeCode)) ∧
    (finalizeCode = .ok → ∃ t, exec .finalize s = .next t ∧
      (t.status.err = .ok ∨ t.status.err = .counterExhausted ∨ t.status.err = .authenticationFailed))

/-- UPDATE of an encrypting CP or GCM session (R271): the whole blocks of the pending and source bytes are encrypted to ARG2, the
rest stays pending, and the ciphertext is absorbed. -/
def Obligations.UpdateEncryptsWholeBlocks : Prop :=
  ∀ s : State, s.Inv → s.dataLegal → s.status.family ≠ .stream → s.status.dir = .encrypt →
    let k := s.pending.length / s.session.block * s.session.block
    let c := s.crypt (s.pending.take k)
    k ≤ s.args.a3.toNat → k ≤ s.ksLeft →
    ∃ t, exec .update s = .next t ∧
      t.status = { s.status with err := .ok, phase := .acceptingData, aadClosed := true } ∧ t.result = BitVec.ofNat 32 k ∧
      t.memRead s.args.a2.toNat k = c ∧ s.sameOutside t s.args.a2.toNat k ∧
      t.pbuf = s.pending.drop k ∧ t.auth = s.authWith c ∧
      t.session = s.session ∧ t.guardChacha = s.guardChacha ∧ t.guardGcm = s.guardGcm ∧ s.sameHost t ∧
      t.ksStart = s.ksStart ∧ t.ksOffset = s.ksOffset + k ∧ t.ks.maxBlocks = s.ks.maxBlocks ∧ t.ks.j0 = s.ks.j0

/-- UPDATE of a decrypting CP or GCM session (R272): the source bytes are appended to the pending buffer, within PBUF_CAP; no
byte of DMEM is written and nothing is decrypted or authenticated. -/
def Obligations.UpdateDecryptOnlyBuffers : Prop :=
  ∀ s : State, s.dataLegal → s.status.family ≠ .stream → s.status.dir = .decrypt →
    (s.cfg.pbufCap < s.pbuf.length + s.args.a1.toNat → exec .update s = .next (s.failed .capacityExceeded)) ∧
    (s.pbuf.length + s.args.a1.toNat ≤ s.cfg.pbufCap → exec .update s = .next
      { s with
        status := { s.status with err := .ok, phase := .acceptingData, aadClosed := true }
        result := 0#32
        auth := if s.status.aadClosed then s.auth else enginePad s.status.family s.auth
        pbuf := s.pbuf ++ s.memRead s.args.a0.toNat s.args.a1.toNat })

/-- UPDATE of a STREAM session (R273): every byte is xored as it comes; at the limit the bytes before it are written and the
session is consumed. -/
def Obligations.UpdateStreamXorsEveryByte : Prop :=
  ∀ s : State, s.Inv → s.dataLegal → s.status.family = .stream →
    let n := s.args.a1.toNat
    let src := s.memRead s.args.a0.toNat n
    (s.args.a3.toNat < n → exec .update s = .next (s.failed .bufferTooSmall)) ∧
    (n ≤ s.args.a3.toNat → n ≤ s.ksLeft → ∃ t, exec .update s = .next t ∧
      t.status = { s.status with err := .ok, phase := .acceptingData, aadClosed := true } ∧ t.result = BitVec.ofNat 32 n ∧
      t.memRead s.args.a2.toNat n = s.crypt src ∧ s.sameOutside t s.args.a2.toNat n ∧
      t.pbuf = s.pbuf ∧ t.auth = s.auth ∧
      t.session = s.session ∧ t.guardChacha = s.guardChacha ∧ t.guardGcm = s.guardGcm ∧ s.sameHost t ∧
      t.ksStart = s.ksStart ∧ t.ksOffset = s.ksOffset + n ∧ t.ks.maxBlocks = s.ks.maxBlocks ∧ t.ks.j0 = s.ks.j0) ∧
    (n ≤ s.args.a3.toNat → s.ksLeft < n → ∃ t, exec .update s = .next t ∧
      t.status.err = .counterExhausted ∧ t.result = BitVec.ofNat 32 s.ksLeft ∧
      t.memRead s.args.a2.toNat s.ksLeft = s.crypt (src.take s.ksLeft) ∧ s.sameOutside t s.args.a2.toNat s.ksLeft ∧
      s.ConsumedFrom t ∧ s.sameHost t)

/-- FINALIZE of an encrypting CP or GCM session (R274): all pending and source bytes are encrypted to ARG2, the tag over the AAD
and all ciphertext follows them, and the session is consumed. -/
def Obligations.FinalizeEncryptsAndAppendsTheTag : Prop :=
  ∀ s : State, s.Inv → s.dataLegal → s.status.family ≠ .stream → s.status.dir = .encrypt →
    let m := s.pending.length
    let c := s.crypt s.pending
    m + s.session.tagLen ≤ s.args.a3.toNat → m ≤ s.ksLeft →
    ∃ t, exec .finalize s = .next t ∧
      t.status.err = .ok ∧ t.result = BitVec.ofNat 32 (m + s.session.tagLen) ∧
      t.memRead s.args.a2.toNat (m + s.session.tagLen) =
        c ++ authTag s.status.family s.session.tagLen (s.authWith c) ∧
      s.sameOutside t s.args.a2.toNat (m + s.session.tagLen) ∧ s.ConsumedFrom t ∧ s.sameHost t

/-- FINALIZE of a decrypting CP or GCM session when the tag matches (R275): the plaintext is written to ARG2 and the session is
consumed. -/
def Obligations.FinalizeDecryptsWhenTheTagMatches : Prop :=
  ∀ s : State, s.Inv → s.dataLegal → s.status.family ≠ .stream → s.status.dir = .decrypt →
    let len := s.pending.length - s.session.tagLen
    let ct := s.pending.take len
    s.session.tagLen ≤ s.pending.length → len ≤ s.args.a3.toNat → len ≤ s.ksLeft →
    authTag s.status.family s.session.tagLen (s.authWith ct) = s.pending.drop len →
    ∃ t, exec .finalize s = .next t ∧
      t.status.err = .ok ∧ t.result = BitVec.ofNat 32 len ∧
      t.memRead s.args.a2.toNat len = s.crypt ct ∧ s.sameOutside t s.args.a2.toNat len ∧ s.ConsumedFrom t ∧ s.sameHost t

/-- FINALIZE of a decrypting CP or GCM session that fails after its checks (R275): input too short for a tag, too long for the
keystream, or a wrong tag. The session is consumed, RESULT is 0, and no byte of DMEM is written, except that a wrong tag zeroes the
plaintext's place if it shares a byte with this call's source. -/
def Obligations.FinalizeDecryptRejects : Prop :=
  ∀ s : State, s.Inv → s.dataLegal → s.status.family ≠ .stream → s.status.dir = .decrypt →
    let n := s.args.a1.toNat
    let len := s.pending.length - s.session.tagLen
    let ct := s.pending.take len
    let aliased := ∃ x, s.args.a0.toNat ≤ x ∧ x < s.args.a0.toNat + n ∧ s.args.a2.toNat ≤ x ∧ x < s.args.a2.toNat + len
    len ≤ s.args.a3.toNat →
    (s.pending.length < s.session.tagLen → ∃ t, exec .finalize s = .next t ∧ t.status.err = .authenticationFailed ∧
      t.result = 0#32 ∧ s.ConsumedFrom t ∧ s.sameHost t ∧ ∀ x, t.readByte x = s.readByte x) ∧
    (s.session.tagLen ≤ s.pending.length → s.ksLeft < len → ∃ t, exec .finalize s = .next t ∧
      t.status.err = .counterExhausted ∧ t.result = 0#32 ∧ s.ConsumedFrom t ∧ s.sameHost t ∧
      ∀ x, t.readByte x = s.readByte x) ∧
    (s.session.tagLen ≤ s.pending.length → len ≤ s.ksLeft →
      authTag s.status.family s.session.tagLen (s.authWith ct) ≠ s.pending.drop len →
      ∃ t, exec .finalize s = .next t ∧ t.status.err = .authenticationFailed ∧ t.result = 0#32 ∧ s.ConsumedFrom t ∧
        s.sameHost t ∧
        (aliased → t.memRead s.args.a2.toNat len = zeros len ∧ s.sameOutside t s.args.a2.toNat len) ∧
        (¬ aliased → ∀ x, t.readByte x = s.readByte x))

/-- FINALIZE of a STREAM session (R276): every byte up to the limit is xored to ARG2, and the session is consumed, OK or
exhausted. -/
def Obligations.FinalizeStreamXorsAndConsumes : Prop :=
  ∀ s : State, s.Inv → s.dataLegal → s.status.family = .stream →
    let n := s.args.a1.toNat
    let k := min n s.ksLeft
    (s.args.a3.toNat < n → exec .finalize s = .next (s.failed .bufferTooSmall)) ∧
    (n ≤ s.args.a3.toNat → ∃ t, exec .finalize s = .next t ∧
      t.status.err = (if n ≤ s.ksLeft then .ok else .counterExhausted) ∧ t.result = BitVec.ofNat 32 k ∧
      t.memRead s.args.a2.toNat k = s.crypt ((s.memRead s.args.a0.toNat n).take k) ∧ s.sameOutside t s.args.a2.toNat k ∧
      s.ConsumedFrom t ∧ s.sameHost t)

/-- Exhaustion in an encrypting CP or GCM session (R281): UPDATE and FINALIZE write exactly the blocks that are left, a whole
number of them, then end the session with COUNTER_EXHAUSTED and write no tag. -/
def Obligations.EncryptExhaustionWritesTheBlocksLeft : Prop :=
  ∀ s : State, s.Inv → s.dataLegal → s.status.family ≠ .stream → s.status.dir = .encrypt →
    let left := (s.ks.maxBlocks - s.ks.used) * blockBytes s.status.family
    let outcome := fun (t : State) => t.status.err = .counterExhausted ∧ t.result = BitVec.ofNat 32 left ∧
      t.memRead s.args.a2.toNat left = s.crypt (s.pending.take left) ∧ s.sameOutside t s.args.a2.toNat left ∧
      s.ConsumedFrom t ∧ s.sameHost t
    (s.pending.length / s.session.block * s.session.block ≤ s.args.a3.toNat →
      left < s.pending.length / s.session.block * s.session.block → ∃ t, exec .update s = .next t ∧ outcome t) ∧
    (s.pending.length + s.session.tagLen ≤ s.args.a3.toNat → left < s.pending.length →
      ∃ t, exec .finalize s = .next t ∧ outcome t)

/-- No plaintext before the tag (R282): in a decrypting CP or GCM session, a command that changes a byte of DMEM is a FINALIZE
that found the tag valid, or one that failed and zeroed the byte. -/
def Obligations.NoPlaintextBeforeTheTagIsChecked : Prop :=
  ∀ (i : Instr) (s t : State) (x : Nat), s.status.family ≠ .stream → s.status.dir = .decrypt → exec i s = .next t →
    t.readByte x ≠ s.readByte x →
    i = .finalize ∧
    (t.status.err = .ok ∧ s.session.tagLen ≤ s.pending.length ∧
        authTag s.status.family s.session.tagLen (s.authWith (s.pending.take (s.pending.length - s.session.tagLen))) =
          s.pending.drop (s.pending.length - s.session.tagLen) ∨
      t.status.err = .authenticationFailed ∧ t.readByte x = 0#8)

/-- The memory frame of the commands that store nothing: INIT, UPDATE_AAD, OUTPUT_SIZE and ABORT in every case, and UPDATE in a
decrypting CP or GCM session: every byte of DMEM reads as before. -/
def Obligations.CommandsThatStoreNothing : Prop :=
  ∀ (i : Instr) (s t : State), exec i s = .next t →
    (∃ m f n, i = .init m f n) ∨ i = .updateAad ∨ (∃ final, i = .outputSize final) ∨ i = .abort ∨
      i = .update ∧ s.status.family ≠ .stream ∧ s.status.dir = .decrypt →
    ∀ x, t.readByte x = s.readByte x

/-- The memory frame of UPDATE and FINALIZE (R270, R28): after any outcome but a wrong tag, only the RESULT bytes at ARG2 may have
changed; after a wrong tag, only the plaintext's place at ARG2. -/
def Obligations.DataCommandsStoreOnlyTheirResult : Prop :=
  ∀ (i : Instr) (s t : State), s.Inv → i = .update ∨ i = .finalize → exec i s = .next t →
    (t.status.err ≠ .authenticationFailed → s.sameOutside t s.args.a2.toNat t.result.toNat) ∧
    (t.status.err = .authenticationFailed →
      s.sameOutside t s.args.a2.toNat (s.pending.length - s.session.tagLen))

/-- R279: wherever the destination lies, overlapping the source or not, UPDATE and FINALIZE end with the same code and RESULT
and write the same bytes. (A wrong tag has RESULT 0: its zeroing depends on overlap.) -/
def Obligations.OverlapDoesNotChangeTheOutput : Prop :=
  ∀ (i : Instr) (s s' t t' : State) (d : Word), s.Inv → i = .update ∨ i = .finalize →
    s' = { s with args := { s.args with a2 := d } } →
    s.args.a2.toNat + s.args.a3.toNat ≤ s.cfg.dmemSize → d.toNat + s.args.a3.toNat ≤ s.cfg.dmemSize →
    exec i s = .next t → exec i s' = .next t' →
    t'.status = t.status ∧ t'.result = t.result ∧ s'.output t' = s.output t

/-! ## The units -/

/-- R118: the S-box table is the affine map of the inverse in GF(2^8), with inv(0) = 0. -/
def Obligations.SboxIsTheAffineMapOfTheInverse : Prop :=
  let affine := fun (b : Byte) =>
    b ^^^ b.rotateLeft 1 ^^^ b.rotateLeft 2 ^^^ b.rotateLeft 3 ^^^ b.rotateLeft 4 ^^^ 0x63#8
  sbox 0x00#8 = affine 0x00#8 ∧
  ∀ x : Byte, x ≠ 0x00#8 → ∃ y : Byte, gmul x y = 0x01#8 ∧ sbox x = affine y

/-- R152: KsXor called on d1, d2, ..., dk in turn gives what one call on their concatenation gives, as long as none is
exhausted. -/
def Obligations.KeystreamIsTheSameInChunks : Prop :=
  ∀ (blk : Word → List Byte) (k : Keystream) (ds : List (List Byte)),
    let r := ds.foldl
      (fun (acc : XorResult) d =>
        let x := ksXor blk acc.ks d
        ⟨acc.out ++ x.out, x.ks, acc.exhausted || x.exhausted⟩) ⟨[], k, false⟩
    r.exhausted = false → ksXor blk k ds.flatten = r

/-- R147: a request fails exactly when it needs a byte beyond the last allowed block: one that ends on it, one served from the
bytes left of the last block, and one of 0 bytes succeed. -/
def Obligations.ExhaustionComesExactlyAtTheLimit : Prop :=
  ∀ (blk : Word → List Byte) (B : Nat) (k : Keystream) (d : List Byte), 0 < B → (∀ c, (blk c).length = B) →
    k.used ≤ k.maxBlocks → k.pos ≤ k.buf.length →
    ((ksXor blk k d).exhausted = true ↔ (k.buf.length - k.pos) + (k.maxBlocks - k.used) * B < d.length) ∧
    (ksXor blk k d).out.length = min d.length ((k.buf.length - k.pos) + (k.maxBlocks - k.used) * B)

/-- The keystream by position (R141 to R144): byte i of KsXor's output is byte i of the data xored with the session's keystream
byte at the session's place plus i. -/
def Obligations.KeystreamByteIsFixedByItsPlace : Prop :=
  ∀ (s : State) (d : List Byte), s.Inv → s.status.active = true →
    (s.xorData d).out = s.crypt (d.take s.ksLeft)

/-- Counters never repeat within a session (R146, R150): the blocks of one session have different counter values, and in GCM none
of them is J0's own, whose block masks the tag. -/
def Obligations.CountersNeverRepeat : Prop :=
  ∀ (s : State) (i j : Nat), s.Inv → s.status.active = true → i < j → j < s.ks.maxBlocks →
    s.ksStart + BitVec.ofNat 32 i ≠ s.ksStart + BitVec.ofNat 32 j ∧
    (s.status.family = .gcm → s.ksStart + BitVec.ofNat 32 i ≠ BitVec.ofNat 32 (beNat (s.ks.j0.drop 12)) ∧
      s.ksStart + BitVec.ofNat 32 j ≠ BitVec.ofNat 32 (beNat (s.ks.j0.drop 12)))

/-- R190: whatever the chunks, the tag is that of one string: the AAD, zeros to a multiple of 16, the ciphertext, zeros to a
multiple of 16, and the length block, absorbed 16 bytes at a time. -/
def Obligations.TagIsThatOfOneString : Prop :=
  ∀ (fam : Family) (n : Nat) (a : Auth) (aads cts : List (List Byte)), a.aadLen = 0 → a.ctLen = 0 → a.stage = [] →
    let A := aads.flatten
    let C := cts.flatten
    let closed := authCloseAad fam (aads.foldl (authUpdateAad fam) a)
    let fed := cts.foldl (authUpdateData fam) closed
    let padded := A ++ zeros ((16 - A.length % 16) % 16) ++ C ++ zeros ((16 - C.length % 16) % 16)
    let blocks := fun (x : List Byte) => (List.range (x.length / 16)).map (fun i => (x.drop (16 * i)).take 16)
    (fam = .gcm →
      let y := (blocks (padded ++ encBe (8 * A.length) 8 ++ encBe (8 * C.length) 8)).foldl (ghAbsorb a.h) a.y
      authTag fam n fed = (xorBytes (encBe y.toNat 16) a.ej0).take n) ∧
    (fam = .cp →
      let acc := (blocks (padded ++ encLe A.length 8 ++ encLe C.length 8)).foldl (polyAbsorb a.r) a.acc
      authTag fam n fed = encLe ((acc + a.s.toNat) % 2 ^ 128) 16)

/-! ## The whole machine -/

/-- Every step keeps the machine good, from any good state and whatever the host does (R38; the widths of R32 to R36). -/
def Obligations.EveryStepKeepsTheInvariant : Prop :=
  ∀ s t : State, s.Inv → step s = .next t → t.Inv

/-- The machine is good right after reset, for all allowed parameters. -/
def Obligations.ResetIsGood : Prop :=
  State.reset.Inv ∧ ∀ (c : Config) (epoch : Nat) (bus : List BusEvent), c.wf → (State.resetWith c epoch bus).Inv

/-- Round trip (R283): what FINALIZE writes in an encrypting session whose UPDATEs have written no ciphertext yet, given to a
decrypting session of the same key and nonce, in any split over its UPDATEs and its FINALIZE, decrypts to the plaintext and
completes OK. The two have absorbed the same AAD: their authenticators are equal once the AAD is closed, which in either session an
UPDATE may have done already (`authClosed`). -/
def Obligations.DecryptionUndoesEncryption : Prop :=
  ∀ s d t : State, s.Inv → d.Inv → s.status.active = true → d.status.active = true → s.status.family ≠ .stream →
    s.status.dir = .encrypt → d.status.dir = .decrypt → d.status.family = s.status.family →
    d.session = s.session → d.ks = s.ks → d.authClosed = s.authClosed →
    exec .finalize s = .next t → t.status.err = .ok → d.pending = s.output t → d.dataLegal →
    s.pending.length ≤ d.args.a3.toNat →
    ∃ u, exec .finalize d = .next u ∧ u.status.err = .ok ∧ u.result = BitVec.ofNat 32 s.pending.length ∧
      d.output u = s.pending

/-- Chunking invariance of the commands (R218): encrypting x by UPDATE and then y by FINALIZE writes the same bytes, ciphertext
and tag, as encrypting x and y together by one FINALIZE in the same session. -/
def Obligations.SplittingTheDataChangesNoByte : Prop :=
  ∀ s s' t u u' v : State, s.Inv → s.status.family ≠ .stream → s.status.dir = .encrypt →
    exec .update s = .next t → t.status.err = .ok → t.SameSession u → exec .finalize u = .next v → v.status.err = .ok →
    s.SameSession s' → exec .finalize s' = .next u' → u'.status.err = .ok →
    s'.memRead s'.args.a0.toNat s'.args.a1.toNat =
      s.memRead s.args.a0.toNat s.args.a1.toNat ++ u.memRead u.args.a0.toNat u.args.a1.toNat →
    s'.output u' = s.output t ++ u.output v
end

