-- ==== Sys2Proof/Laws/Bytes.lean ====
section
/-! SUPPORT. Sys2Proof/Laws/Bytes.lean: byte strings and their conversions. -/

namespace Sys2Proof.Machine

@[simp] theorem zeros_length (n : Nat) : (zeros n).length = n := by simp [zeros]

@[simp] theorem encLe_length (v n : Nat) : (encLe v n).length = n := by
  induction n generalizing v with
  | zero => rfl
  | succ n ih => simp [encLe, ih]

@[simp] theorem encBe_length (v n : Nat) : (encBe v n).length = n := by simp [encBe]

theorem slice_length (s : List Byte) (i j : Nat) : (slice s i j).length = min (j - i) (s.length - i) := by
  simp [slice]

/-- A slice inside the string has the length of its bounds. -/
theorem slice_length_of_le {s : List Byte} {i j : Nat} (h : j ≤ s.length) : (slice s i j).length = j - i := by
  rw [slice_length]
  omega

@[simp] theorem xorBytes_length (a b : List Byte) : (xorBytes a b).length = min a.length b.length := by
  simp [xorBytes]

/-- `le(s)` is below 2^(8 len(s)) (R8). -/
theorem leNat_lt (s : List Byte) : leNat s < 2 ^ (8 * s.length) := by
  induction s with
  | nil => simp [leNat]
  | cons b s ih =>
    have hb := b.isLt
    have e : 2 ^ (8 * (s.length + 1)) = 256 * 2 ^ (8 * s.length) := by
      rw [show 8 * (s.length + 1) = 8 + 8 * s.length by omega, pow_add]
      norm_num
    simp only [leNat, List.length_cons, e]
    omega

/-- `le` undoes `enc_le` (R8). -/
theorem leNat_encLe (v n : Nat) (h : v < 2 ^ (8 * n)) : leNat (encLe v n) = v := by
  induction n generalizing v with
  | zero =>
    simp only [Nat.mul_zero, Nat.pow_zero] at h
    simp [encLe, leNat]
    omega
  | succ n ih =>
    have e : 2 ^ (8 * (n + 1)) = 256 * 2 ^ (8 * n) := by
      rw [show 8 * (n + 1) = 8 + 8 * n by omega, pow_add]
      norm_num
    have hv : v / 256 < 2 ^ (8 * n) := by
      rw [e] at h
      exact Nat.div_lt_of_lt_mul h
    simp only [encLe, leNat, ih _ hv, BitVec.toNat_ofNat]
    omega

/-- `enc_le` undoes `le` (R8). -/
theorem encLe_leNat (s : List Byte) : encLe (leNat s) s.length = s := by
  induction s with
  | nil => rfl
  | cons b s ih =>
    have hb := b.isLt
    have h1 : (b.toNat + 256 * leNat s) / 256 = leNat s := by omega
    have h2 : BitVec.ofNat 8 (b.toNat + 256 * leNat s) = b := by
      apply BitVec.eq_of_toNat_eq
      simp only [BitVec.toNat_ofNat]
      omega
    simp [leNat, encLe, h1, h2, ih]

/-- `be` undoes `enc_be` (R8). -/
theorem beNat_encBe (v n : Nat) (h : v < 2 ^ (8 * n)) : beNat (encBe v n) = v := by
  simp [beNat, encBe, leNat_encLe v n h]

/-- `enc_be` undoes `be` (R8). -/
theorem encBe_beNat (s : List Byte) : encBe (beNat s) s.length = s := by
  have h := encLe_leNat s.reverse
  rw [List.length_reverse] at h
  simp [beNat, encBe, h]

/-- The padding of R190 brings a length to a multiple of 16 and is at most 15. -/
theorem pad16_spec (n : Nat) : (n + pad16 n) % 16 = 0 ∧ pad16 n < 16 := by
  unfold pad16
  omega

theorem iterate_preserves {α : Type} {f : α → α} {P : α → Prop} (hf : ∀ x, P x → P (f x)) (n : Nat) {x : α}
    (h : P x) : P (iterate f n x) := by
  induction n generalizing x with
  | zero => exact h
  | succ n ih => exact ih (hf x h)

end Sys2Proof.Machine
end

