-- ==== Sys2Proof/Laws/Blocks.lean ====
section
/-! SUPPORT. Sys2Proof/Laws/Blocks.lean: the sizes of the block transforms' results (R110, R115, R116, R119). -/

namespace Sys2Proof.Machine

/-! ## ChaCha20 -/

@[simp] theorem chachaInit_length (k : List Byte) (c : Word) (n : List Byte) : (chachaInit k c n).length = 16 := by
  simp [chachaInit, chachaConstants]

@[simp] theorem quarterRound_length (x : List Word) (a b c d : Nat) : (quarterRound x a b c d).length = x.length := by
  simp [quarterRound]

@[simp] theorem doubleRound_length (x : List Word) : (doubleRound x).length = x.length := by
  simp [doubleRound]

/-- A list whose members all map to strings of `n` bytes concatenates to `n` bytes per member. -/
theorem flatMap_length_const {α β : Type} (f : α → List β) (n : Nat) (l : List α) (h : ∀ x ∈ l, (f x).length = n) :
    (l.flatMap f).length = n * l.length := by
  induction l with
  | nil => simp
  | cons a l ih =>
    simp only [List.flatMap_cons, List.length_append, List.length_cons, h a (by simp),
      ih (fun x hx => h x (by simp [hx]))]
    ring

theorem iterate_doubleRound_length (n : Nat) (x : List Word) : (iterate doubleRound n x).length = x.length := by
  induction n generalizing x with
  | zero => rfl
  | succ n ih => rw [iterate, ih, doubleRound_length]

/-- The ChaCha20 transform gives 64 bytes, whatever its operands (R110, R115). -/
@[simp] theorem chacha20Block_length (k : List Byte) (c : Word) (n : List Byte) : (chacha20Block k c n).length = 64 := by
  rw [chacha20Block, flatMap_length_const _ 4 _ (by simp)]
  simp [iterate_doubleRound_length]

/-! ## AES -/

theorem rotWord_length (w : List Byte) : (rotWord w).length = w.length := by
  simp only [rotWord, List.length_append, List.length_drop, List.length_take]
  omega

theorem subWord_length (w : List Byte) : (subWord w).length = w.length := by simp [subWord]

/-- A key schedule in the making: `n` words, each of 4 bytes. -/
def wordsOk (wk : List (List Byte)) (n : Nat) : Prop := wk.length = n ∧ ∀ w ∈ wk, w.length = 4

theorem wordsOk.getD {wk : List (List Byte)} {n i : Nat} (h : wordsOk wk n) (hi : i < n) : (wk.getD i []).length = 4 := by
  have hl : i < wk.length := h.1 ▸ hi
  rw [List.getD_eq_getElem _ _ hl]
  exact h.2 _ (List.getElem_mem hl)

theorem wordsOk.append {wk : List (List Byte)} {n : Nat} {w : List Byte} (h : wordsOk wk n) (hw : w.length = 4) :
    wordsOk (wk ++ [w]) (n + 1) := by
  refine ⟨by simp [h.1], fun v hv => ?_⟩
  rcases List.mem_append.mp hv with hv | hv
  · exact h.2 v hv
  · rw [List.mem_singleton.mp hv, hw]

theorem expandWords_ok {nk : Nat} (hnk : 0 < nk) (n i : Nat) (rcon : Byte) (wk : List (List Byte)) (hi : nk ≤ i)
    (h : wordsOk wk i) : wordsOk (expandWords nk n i rcon wk) (i + n) := by
  induction n generalizing i rcon wk with
  | zero => exact h
  | succ n ih =>
    have h1 := h.getD (i := i - 1) (by omega)
    have h2 := h.getD (i := i - nk) (by omega)
    rw [show i + (n + 1) = i + 1 + n by omega, expandWords]
    split
    · exact ih (i + 1) _ _ (by omega) (h.append (by
        rw [xorBytes_length, xorBytes_length, subWord_length, rotWord_length, h1, h2]; rfl))
    · split
      · exact ih (i + 1) _ _ (by omega) (h.append (by rw [xorBytes_length, subWord_length, h1, h2]; rfl))
      · exact ih (i + 1) _ _ (by omega) (h.append (by rw [xorBytes_length, h1, h2]; rfl))

/-- The key schedule of a 16-, 24- or 32-byte key has 4 (Nr + 1) words of 4 bytes, Nr = Nk + 6 (R116, R119). -/
theorem keyExpansion_ok {key : List Byte} {nk : Nat} (h : key.length = 4 * nk) (hnk : 0 < nk) :
    wordsOk (keyExpansion key) (4 * (nk + 7)) := by
  have e : key.length / 4 = nk := by omega
  have h0 : wordsOk ((List.range nk).map (fun i => slice key (4 * i) (4 * i + 4))) nk := by
    refine ⟨by simp, fun w hw => ?_⟩
    obtain ⟨i, hi, rfl⟩ := List.mem_map.mp hw
    have hi' : i < nk := List.mem_range.mp hi
    rw [slice_length_of_le (by omega)]
    omega
  have := expandWords_ok hnk (4 * (nk + 7) - nk) nk 0x01#8 _ (Nat.le_refl nk) h0
  rw [show nk + (4 * (nk + 7) - nk) = 4 * (nk + 7) by omega] at this
  simpa [keyExpansion, e] using this

theorem subBytes_length (s : List Byte) : (subBytes s).length = s.length := by simp [subBytes]

@[simp] theorem shiftRows_length (s : List Byte) : (shiftRows s).length = 16 := by simp [shiftRows]

@[simp] theorem mixColumns_length (s : List Byte) : (mixColumns s).length = 16 := by
  rw [mixColumns, flatMap_length_const _ 4 _ (by simp [mixColumn])]
  simp

theorem addRoundKey_length {wk : List (List Byte)} {n j : Nat} (h : wordsOk wk n) (hj : 4 * j + 4 ≤ n) {s : List Byte}
    (hs : s.length = 16) : (addRoundKey wk j s).length = 16 := by
  have : ((List.range 4).flatMap (fun c => wk.getD (4 * j + c) [])).length = 16 := by
    rw [flatMap_length_const _ 4 _ (fun c hc => ?_)]
    · simp
    · have hc' : c < 4 := List.mem_range.mp hc
      exact h.getD (by omega)
  rw [addRoundKey, xorBytes_length, this, hs]
  rfl

/-- AES on the schedule of a legal key gives 16 bytes (R110, R116, R121). -/
theorem aesWithSchedule_length {wk : List (List Byte)} {nk : Nat} (h : wordsOk wk (4 * (nk + 7))) (blk : List Byte) :
    (aesWithSchedule wk blk).length = 16 := by
  have e : wk.length / 4 - 1 = nk + 6 := by rw [h.1]; omega
  simp only [aesWithSchedule, e]
  exact addRoundKey_length h (by omega) (by simp)

/-- `AES_Encrypt` under a legal key gives 16 bytes (R110, R121). -/
theorem aesEncrypt_length {key : List Byte} (hk : key.length = 16 ∨ key.length = 24 ∨ key.length = 32)
    (blk : List Byte) : (aesEncrypt key blk).length = 16 := by
  have h : ∃ nk, key.length = 4 * nk ∧ 0 < nk := by
    rcases hk with h | h | h
    · exact ⟨4, by omega, by omega⟩
    · exact ⟨6, by omega, by omega⟩
    · exact ⟨8, by omega, by omega⟩
  obtain ⟨nk, h1, h2⟩ := h
  exact aesWithSchedule_length (keyExpansion_ok h1 h2) blk

end Sys2Proof.Machine
end

