-- ==== Sys2Proof/Laws/State.lean ====
section
/-! SUPPORT. Sys2Proof/Laws/State.lean: one lemma per field per update of State and of STATUS, each true by definition, so that no
later proof unfolds a record update. -/

namespace Sys2Proof.Machine

/-! ## complete -/

@[simp] theorem State.complete_cfg (s : State) (code : ErrCode) (r : Word) : (s.complete code r).cfg = s.cfg := rfl
@[simp] theorem State.complete_status (s : State) (code : ErrCode) (r : Word) : (s.complete code r).status = { s.status with err := code } := rfl
@[simp] theorem State.complete_result (s : State) (code : ErrCode) (r : Word) : (s.complete code r).result = r := rfl
@[simp] theorem State.complete_args (s : State) (code : ErrCode) (r : Word) : (s.complete code r).args = s.args := rfl
@[simp] theorem State.complete_session (s : State) (code : ErrCode) (r : Word) : (s.complete code r).session = s.session := rfl
@[simp] theorem State.complete_guardChacha (s : State) (code : ErrCode) (r : Word) : (s.complete code r).guardChacha = s.guardChacha := rfl
@[simp] theorem State.complete_guardGcm (s : State) (code : ErrCode) (r : Word) : (s.complete code r).guardGcm = s.guardGcm := rfl
@[simp] theorem State.complete_ks (s : State) (code : ErrCode) (r : Word) : (s.complete code r).ks = s.ks := rfl
@[simp] theorem State.complete_auth (s : State) (code : ErrCode) (r : Word) : (s.complete code r).auth = s.auth := rfl
@[simp] theorem State.complete_pbuf (s : State) (code : ErrCode) (r : Word) : (s.complete code r).pbuf = s.pbuf := rfl
@[simp] theorem State.complete_dmem (s : State) (code : ErrCode) (r : Word) : (s.complete code r).dmem = s.dmem := rfl
@[simp] theorem State.complete_epoch (s : State) (code : ErrCode) (r : Word) : (s.complete code r).epoch = s.epoch := rfl
@[simp] theorem State.complete_bus (s : State) (code : ErrCode) (r : Word) : (s.complete code r).bus = s.bus := rfl
@[simp] theorem State.complete_readData (s : State) (code : ErrCode) (r : Word) : (s.complete code r).readData = s.readData := rfl

/-! ## raise -/

@[simp] theorem State.raise_cfg (s : State) (code : ErrCode) : (s.raise code).cfg = s.cfg := rfl
@[simp] theorem State.raise_status (s : State) (code : ErrCode) : (s.raise code).status = { s.status with err := code } := rfl
@[simp] theorem State.raise_result (s : State) (code : ErrCode) : (s.raise code).result = 0#32 := rfl
@[simp] theorem State.raise_args (s : State) (code : ErrCode) : (s.raise code).args = s.args := rfl
@[simp] theorem State.raise_session (s : State) (code : ErrCode) : (s.raise code).session = s.session := rfl
@[simp] theorem State.raise_guardChacha (s : State) (code : ErrCode) : (s.raise code).guardChacha = s.guardChacha := rfl
@[simp] theorem State.raise_guardGcm (s : State) (code : ErrCode) : (s.raise code).guardGcm = s.guardGcm := rfl
@[simp] theorem State.raise_ks (s : State) (code : ErrCode) : (s.raise code).ks = s.ks := rfl
@[simp] theorem State.raise_auth (s : State) (code : ErrCode) : (s.raise code).auth = s.auth := rfl
@[simp] theorem State.raise_pbuf (s : State) (code : ErrCode) : (s.raise code).pbuf = s.pbuf := rfl
@[simp] theorem State.raise_dmem (s : State) (code : ErrCode) : (s.raise code).dmem = s.dmem := rfl
@[simp] theorem State.raise_epoch (s : State) (code : ErrCode) : (s.raise code).epoch = s.epoch := rfl
@[simp] theorem State.raise_bus (s : State) (code : ErrCode) : (s.raise code).bus = s.bus := rfl
@[simp] theorem State.raise_readData (s : State) (code : ErrCode) : (s.raise code).readData = s.readData := rfl

/-! ## withStatus -/

@[simp] theorem State.withStatus_cfg (s : State) (st : Status) : (s.withStatus st).cfg = s.cfg := rfl
@[simp] theorem State.withStatus_status (s : State) (st : Status) : (s.withStatus st).status = st := rfl
@[simp] theorem State.withStatus_result (s : State) (st : Status) : (s.withStatus st).result = s.result := rfl
@[simp] theorem State.withStatus_args (s : State) (st : Status) : (s.withStatus st).args = s.args := rfl
@[simp] theorem State.withStatus_session (s : State) (st : Status) : (s.withStatus st).session = s.session := rfl
@[simp] theorem State.withStatus_guardChacha (s : State) (st : Status) : (s.withStatus st).guardChacha = s.guardChacha := rfl
@[simp] theorem State.withStatus_guardGcm (s : State) (st : Status) : (s.withStatus st).guardGcm = s.guardGcm := rfl
@[simp] theorem State.withStatus_ks (s : State) (st : Status) : (s.withStatus st).ks = s.ks := rfl
@[simp] theorem State.withStatus_auth (s : State) (st : Status) : (s.withStatus st).auth = s.auth := rfl
@[simp] theorem State.withStatus_pbuf (s : State) (st : Status) : (s.withStatus st).pbuf = s.pbuf := rfl
@[simp] theorem State.withStatus_dmem (s : State) (st : Status) : (s.withStatus st).dmem = s.dmem := rfl
@[simp] theorem State.withStatus_epoch (s : State) (st : Status) : (s.withStatus st).epoch = s.epoch := rfl
@[simp] theorem State.withStatus_bus (s : State) (st : Status) : (s.withStatus st).bus = s.bus := rfl
@[simp] theorem State.withStatus_readData (s : State) (st : Status) : (s.withStatus st).readData = s.readData := rfl

/-! ## zeroise -/

@[simp] theorem State.zeroise_cfg (s : State) : (s.zeroise).cfg = s.cfg := rfl
@[simp] theorem State.zeroise_status (s : State) : (s.zeroise).status = s.status := rfl
@[simp] theorem State.zeroise_result (s : State) : (s.zeroise).result = s.result := rfl
@[simp] theorem State.zeroise_args (s : State) : (s.zeroise).args = s.args := rfl
@[simp] theorem State.zeroise_session (s : State) : (s.zeroise).session = .zero := rfl
@[simp] theorem State.zeroise_guardChacha (s : State) : (s.zeroise).guardChacha = s.guardChacha := rfl
@[simp] theorem State.zeroise_guardGcm (s : State) : (s.zeroise).guardGcm = s.guardGcm := rfl
@[simp] theorem State.zeroise_ks (s : State) : (s.zeroise).ks = .zero := rfl
@[simp] theorem State.zeroise_auth (s : State) : (s.zeroise).auth = .zero := rfl
@[simp] theorem State.zeroise_pbuf (s : State) : (s.zeroise).pbuf = [] := rfl
@[simp] theorem State.zeroise_dmem (s : State) : (s.zeroise).dmem = s.dmem := rfl
@[simp] theorem State.zeroise_epoch (s : State) : (s.zeroise).epoch = s.epoch := rfl
@[simp] theorem State.zeroise_bus (s : State) : (s.zeroise).bus = s.bus := rfl
@[simp] theorem State.zeroise_readData (s : State) : (s.zeroise).readData = s.readData := rfl

/-! ## consume -/

@[simp] theorem State.consume_cfg (s : State) : (s.consume).cfg = s.cfg := rfl
@[simp] theorem State.consume_status (s : State) : (s.consume).status = s.status.consumed := rfl
@[simp] theorem State.consume_result (s : State) : (s.consume).result = s.result := rfl
@[simp] theorem State.consume_args (s : State) : (s.consume).args = s.args := rfl
@[simp] theorem State.consume_session (s : State) : (s.consume).session = .zero := rfl
@[simp] theorem State.consume_guardChacha (s : State) : (s.consume).guardChacha = s.guardChacha := rfl
@[simp] theorem State.consume_guardGcm (s : State) : (s.consume).guardGcm = s.guardGcm := rfl
@[simp] theorem State.consume_ks (s : State) : (s.consume).ks = .zero := rfl
@[simp] theorem State.consume_auth (s : State) : (s.consume).auth = .zero := rfl
@[simp] theorem State.consume_pbuf (s : State) : (s.consume).pbuf = [] := rfl
@[simp] theorem State.consume_dmem (s : State) : (s.consume).dmem = s.dmem := rfl
@[simp] theorem State.consume_epoch (s : State) : (s.consume).epoch = s.epoch := rfl
@[simp] theorem State.consume_bus (s : State) : (s.consume).bus = s.bus := rfl
@[simp] theorem State.consume_readData (s : State) : (s.consume).readData = s.readData := rfl

/-! ## closeAad -/

@[simp] theorem State.closeAad_cfg (s : State) : (s.closeAad).cfg = s.cfg := rfl
@[simp] theorem State.closeAad_status (s : State) : (s.closeAad).status = s.status.dataOpen := rfl
@[simp] theorem State.closeAad_result (s : State) : (s.closeAad).result = s.result := rfl
@[simp] theorem State.closeAad_args (s : State) : (s.closeAad).args = s.args := rfl
@[simp] theorem State.closeAad_session (s : State) : (s.closeAad).session = s.session := rfl
@[simp] theorem State.closeAad_guardChacha (s : State) : (s.closeAad).guardChacha = s.guardChacha := rfl
@[simp] theorem State.closeAad_guardGcm (s : State) : (s.closeAad).guardGcm = s.guardGcm := rfl
@[simp] theorem State.closeAad_ks (s : State) : (s.closeAad).ks = s.ks := rfl
@[simp] theorem State.closeAad_auth (s : State) : (s.closeAad).auth = s.closedAuth := rfl
@[simp] theorem State.closeAad_pbuf (s : State) : (s.closeAad).pbuf = s.pbuf := rfl
@[simp] theorem State.closeAad_dmem (s : State) : (s.closeAad).dmem = s.dmem := rfl
@[simp] theorem State.closeAad_epoch (s : State) : (s.closeAad).epoch = s.epoch := rfl
@[simp] theorem State.closeAad_bus (s : State) : (s.closeAad).bus = s.bus := rfl
@[simp] theorem State.closeAad_readData (s : State) : (s.closeAad).readData = s.readData := rfl

/-! ## withKs -/

@[simp] theorem State.withKs_cfg (s : State) (k : Keystream) : (s.withKs k).cfg = s.cfg := rfl
@[simp] theorem State.withKs_status (s : State) (k : Keystream) : (s.withKs k).status = s.status := rfl
@[simp] theorem State.withKs_result (s : State) (k : Keystream) : (s.withKs k).result = s.result := rfl
@[simp] theorem State.withKs_args (s : State) (k : Keystream) : (s.withKs k).args = s.args := rfl
@[simp] theorem State.withKs_session (s : State) (k : Keystream) : (s.withKs k).session = s.session := rfl
@[simp] theorem State.withKs_guardChacha (s : State) (k : Keystream) : (s.withKs k).guardChacha = s.guardChacha := rfl
@[simp] theorem State.withKs_guardGcm (s : State) (k : Keystream) : (s.withKs k).guardGcm = s.guardGcm := rfl
@[simp] theorem State.withKs_ks (s : State) (k : Keystream) : (s.withKs k).ks = k := rfl
@[simp] theorem State.withKs_auth (s : State) (k : Keystream) : (s.withKs k).auth = s.auth := rfl
@[simp] theorem State.withKs_pbuf (s : State) (k : Keystream) : (s.withKs k).pbuf = s.pbuf := rfl
@[simp] theorem State.withKs_dmem (s : State) (k : Keystream) : (s.withKs k).dmem = s.dmem := rfl
@[simp] theorem State.withKs_epoch (s : State) (k : Keystream) : (s.withKs k).epoch = s.epoch := rfl
@[simp] theorem State.withKs_bus (s : State) (k : Keystream) : (s.withKs k).bus = s.bus := rfl
@[simp] theorem State.withKs_readData (s : State) (k : Keystream) : (s.withKs k).readData = s.readData := rfl

/-! ## memWrite -/

@[simp] theorem State.memWrite_cfg (s : State) (a : Nat) (b : List Byte) : (s.memWrite a b).cfg = s.cfg := rfl
@[simp] theorem State.memWrite_status (s : State) (a : Nat) (b : List Byte) : (s.memWrite a b).status = s.status := rfl
@[simp] theorem State.memWrite_result (s : State) (a : Nat) (b : List Byte) : (s.memWrite a b).result = s.result := rfl
@[simp] theorem State.memWrite_args (s : State) (a : Nat) (b : List Byte) : (s.memWrite a b).args = s.args := rfl
@[simp] theorem State.memWrite_session (s : State) (a : Nat) (b : List Byte) : (s.memWrite a b).session = s.session := rfl
@[simp] theorem State.memWrite_guardChacha (s : State) (a : Nat) (b : List Byte) : (s.memWrite a b).guardChacha = s.guardChacha := rfl
@[simp] theorem State.memWrite_guardGcm (s : State) (a : Nat) (b : List Byte) : (s.memWrite a b).guardGcm = s.guardGcm := rfl
@[simp] theorem State.memWrite_ks (s : State) (a : Nat) (b : List Byte) : (s.memWrite a b).ks = s.ks := rfl
@[simp] theorem State.memWrite_auth (s : State) (a : Nat) (b : List Byte) : (s.memWrite a b).auth = s.auth := rfl
@[simp] theorem State.memWrite_pbuf (s : State) (a : Nat) (b : List Byte) : (s.memWrite a b).pbuf = s.pbuf := rfl
@[simp] theorem State.memWrite_dmem (s : State) (a : Nat) (b : List Byte) : (s.memWrite a b).dmem = Memory.storeBytes s.dmem a b := rfl
@[simp] theorem State.memWrite_epoch (s : State) (a : Nat) (b : List Byte) : (s.memWrite a b).epoch = s.epoch := rfl
@[simp] theorem State.memWrite_bus (s : State) (a : Nat) (b : List Byte) : (s.memWrite a b).bus = s.bus := rfl
@[simp] theorem State.memWrite_readData (s : State) (a : Nat) (b : List Byte) : (s.memWrite a b).readData = s.readData := rfl

/-! ## writeWord -/

@[simp] theorem State.writeWord_cfg (s : State) (a : Nat) (v : Word) : (s.writeWord a v).cfg = s.cfg := rfl
@[simp] theorem State.writeWord_status (s : State) (a : Nat) (v : Word) : (s.writeWord a v).status = s.status := rfl
@[simp] theorem State.writeWord_result (s : State) (a : Nat) (v : Word) : (s.writeWord a v).result = s.result := rfl
@[simp] theorem State.writeWord_args (s : State) (a : Nat) (v : Word) : (s.writeWord a v).args = s.args := rfl
@[simp] theorem State.writeWord_session (s : State) (a : Nat) (v : Word) : (s.writeWord a v).session = s.session := rfl
@[simp] theorem State.writeWord_guardChacha (s : State) (a : Nat) (v : Word) : (s.writeWord a v).guardChacha = s.guardChacha := rfl
@[simp] theorem State.writeWord_guardGcm (s : State) (a : Nat) (v : Word) : (s.writeWord a v).guardGcm = s.guardGcm := rfl
@[simp] theorem State.writeWord_ks (s : State) (a : Nat) (v : Word) : (s.writeWord a v).ks = s.ks := rfl
@[simp] theorem State.writeWord_auth (s : State) (a : Nat) (v : Word) : (s.writeWord a v).auth = s.auth := rfl
@[simp] theorem State.writeWord_pbuf (s : State) (a : Nat) (v : Word) : (s.writeWord a v).pbuf = s.pbuf := rfl
@[simp] theorem State.writeWord_dmem (s : State) (a : Nat) (v : Word) : (s.writeWord a v).dmem = Memory.storeBytes s.dmem a (encLe v.toNat 4) := rfl
@[simp] theorem State.writeWord_epoch (s : State) (a : Nat) (v : Word) : (s.writeWord a v).epoch = s.epoch := rfl
@[simp] theorem State.writeWord_bus (s : State) (a : Nat) (v : Word) : (s.writeWord a v).bus = s.bus := rfl
@[simp] theorem State.writeWord_readData (s : State) (a : Nat) (v : Word) : (s.writeWord a v).readData = s.readData := rfl

/-! ## absorbAad -/

@[simp] theorem State.absorbAad_cfg (s : State) (b : List Byte) : (s.absorbAad b).cfg = s.cfg := rfl
@[simp] theorem State.absorbAad_status (s : State) (b : List Byte) : (s.absorbAad b).status = s.status := rfl
@[simp] theorem State.absorbAad_result (s : State) (b : List Byte) : (s.absorbAad b).result = s.result := rfl
@[simp] theorem State.absorbAad_args (s : State) (b : List Byte) : (s.absorbAad b).args = s.args := rfl
@[simp] theorem State.absorbAad_session (s : State) (b : List Byte) : (s.absorbAad b).session = s.session := rfl
@[simp] theorem State.absorbAad_guardChacha (s : State) (b : List Byte) : (s.absorbAad b).guardChacha = s.guardChacha := rfl
@[simp] theorem State.absorbAad_guardGcm (s : State) (b : List Byte) : (s.absorbAad b).guardGcm = s.guardGcm := rfl
@[simp] theorem State.absorbAad_ks (s : State) (b : List Byte) : (s.absorbAad b).ks = s.ks := rfl
@[simp] theorem State.absorbAad_auth (s : State) (b : List Byte) : (s.absorbAad b).auth = authUpdateAad s.status.family s.auth b := rfl
@[simp] theorem State.absorbAad_pbuf (s : State) (b : List Byte) : (s.absorbAad b).pbuf = s.pbuf := rfl
@[simp] theorem State.absorbAad_dmem (s : State) (b : List Byte) : (s.absorbAad b).dmem = s.dmem := rfl
@[simp] theorem State.absorbAad_epoch (s : State) (b : List Byte) : (s.absorbAad b).epoch = s.epoch := rfl
@[simp] theorem State.absorbAad_bus (s : State) (b : List Byte) : (s.absorbAad b).bus = s.bus := rfl
@[simp] theorem State.absorbAad_readData (s : State) (b : List Byte) : (s.absorbAad b).readData = s.readData := rfl

/-! ## absorbData -/

@[simp] theorem State.absorbData_cfg (s : State) (c : List Byte) : (s.absorbData c).cfg = s.cfg := rfl
@[simp] theorem State.absorbData_status (s : State) (c : List Byte) : (s.absorbData c).status = s.status := rfl
@[simp] theorem State.absorbData_result (s : State) (c : List Byte) : (s.absorbData c).result = s.result := rfl
@[simp] theorem State.absorbData_args (s : State) (c : List Byte) : (s.absorbData c).args = s.args := rfl
@[simp] theorem State.absorbData_session (s : State) (c : List Byte) : (s.absorbData c).session = s.session := rfl
@[simp] theorem State.absorbData_guardChacha (s : State) (c : List Byte) : (s.absorbData c).guardChacha = s.guardChacha := rfl
@[simp] theorem State.absorbData_guardGcm (s : State) (c : List Byte) : (s.absorbData c).guardGcm = s.guardGcm := rfl
@[simp] theorem State.absorbData_ks (s : State) (c : List Byte) : (s.absorbData c).ks = s.ks := rfl
@[simp] theorem State.absorbData_auth (s : State) (c : List Byte) : (s.absorbData c).auth = authUpdateData s.status.family s.auth c := rfl
@[simp] theorem State.absorbData_pbuf (s : State) (c : List Byte) : (s.absorbData c).pbuf = s.pbuf := rfl
@[simp] theorem State.absorbData_dmem (s : State) (c : List Byte) : (s.absorbData c).dmem = s.dmem := rfl
@[simp] theorem State.absorbData_epoch (s : State) (c : List Byte) : (s.absorbData c).epoch = s.epoch := rfl
@[simp] theorem State.absorbData_bus (s : State) (c : List Byte) : (s.absorbData c).bus = s.bus := rfl
@[simp] theorem State.absorbData_readData (s : State) (c : List Byte) : (s.absorbData c).readData = s.readData := rfl

/-! ## withPbuf -/

@[simp] theorem State.withPbuf_cfg (s : State) (b : List Byte) : (s.withPbuf b).cfg = s.cfg := rfl
@[simp] theorem State.withPbuf_status (s : State) (b : List Byte) : (s.withPbuf b).status = s.status := rfl
@[simp] theorem State.withPbuf_result (s : State) (b : List Byte) : (s.withPbuf b).result = s.result := rfl
@[simp] theorem State.withPbuf_args (s : State) (b : List Byte) : (s.withPbuf b).args = s.args := rfl
@[simp] theorem State.withPbuf_session (s : State) (b : List Byte) : (s.withPbuf b).session = s.session := rfl
@[simp] theorem State.withPbuf_guardChacha (s : State) (b : List Byte) : (s.withPbuf b).guardChacha = s.guardChacha := rfl
@[simp] theorem State.withPbuf_guardGcm (s : State) (b : List Byte) : (s.withPbuf b).guardGcm = s.guardGcm := rfl
@[simp] theorem State.withPbuf_ks (s : State) (b : List Byte) : (s.withPbuf b).ks = s.ks := rfl
@[simp] theorem State.withPbuf_auth (s : State) (b : List Byte) : (s.withPbuf b).auth = s.auth := rfl
@[simp] theorem State.withPbuf_pbuf (s : State) (b : List Byte) : (s.withPbuf b).pbuf = b := rfl
@[simp] theorem State.withPbuf_dmem (s : State) (b : List Byte) : (s.withPbuf b).dmem = s.dmem := rfl
@[simp] theorem State.withPbuf_epoch (s : State) (b : List Byte) : (s.withPbuf b).epoch = s.epoch := rfl
@[simp] theorem State.withPbuf_bus (s : State) (b : List Byte) : (s.withPbuf b).bus = s.bus := rfl
@[simp] theorem State.withPbuf_readData (s : State) (b : List Byte) : (s.withPbuf b).readData = s.readData := rfl

/-! ## withGuard -/

@[simp] theorem State.withGuard_cfg (s : State) (fam : Family) (v : GuardSlot) : (s.withGuard fam v).cfg = s.cfg := rfl
@[simp] theorem State.withGuard_status (s : State) (fam : Family) (v : GuardSlot) : (s.withGuard fam v).status = s.status := rfl
@[simp] theorem State.withGuard_result (s : State) (fam : Family) (v : GuardSlot) : (s.withGuard fam v).result = s.result := rfl
@[simp] theorem State.withGuard_args (s : State) (fam : Family) (v : GuardSlot) : (s.withGuard fam v).args = s.args := rfl
@[simp] theorem State.withGuard_session (s : State) (fam : Family) (v : GuardSlot) : (s.withGuard fam v).session = s.session := rfl
@[simp] theorem State.withGuard_guardChacha (s : State) (fam : Family) (v : GuardSlot) : (s.withGuard fam v).guardChacha = if fam = .gcm then s.guardChacha else v := rfl
@[simp] theorem State.withGuard_guardGcm (s : State) (fam : Family) (v : GuardSlot) : (s.withGuard fam v).guardGcm = if fam = .gcm then v else s.guardGcm := rfl
@[simp] theorem State.withGuard_ks (s : State) (fam : Family) (v : GuardSlot) : (s.withGuard fam v).ks = s.ks := rfl
@[simp] theorem State.withGuard_auth (s : State) (fam : Family) (v : GuardSlot) : (s.withGuard fam v).auth = s.auth := rfl
@[simp] theorem State.withGuard_pbuf (s : State) (fam : Family) (v : GuardSlot) : (s.withGuard fam v).pbuf = s.pbuf := rfl
@[simp] theorem State.withGuard_dmem (s : State) (fam : Family) (v : GuardSlot) : (s.withGuard fam v).dmem = s.dmem := rfl
@[simp] theorem State.withGuard_epoch (s : State) (fam : Family) (v : GuardSlot) : (s.withGuard fam v).epoch = s.epoch := rfl
@[simp] theorem State.withGuard_bus (s : State) (fam : Family) (v : GuardSlot) : (s.withGuard fam v).bus = s.bus := rfl
@[simp] theorem State.withGuard_readData (s : State) (fam : Family) (v : GuardSlot) : (s.withGuard fam v).readData = s.readData := rfl

/-! ## withSession -/

@[simp] theorem State.withSession_cfg (s : State) (ses : Session) (k : Keystream) (a : Auth) : (s.withSession ses k a).cfg = s.cfg := rfl
@[simp] theorem State.withSession_status (s : State) (ses : Session) (k : Keystream) (a : Auth) : (s.withSession ses k a).status = s.status := rfl
@[simp] theorem State.withSession_result (s : State) (ses : Session) (k : Keystream) (a : Auth) : (s.withSession ses k a).result = s.result := rfl
@[simp] theorem State.withSession_args (s : State) (ses : Session) (k : Keystream) (a : Auth) : (s.withSession ses k a).args = s.args := rfl
@[simp] theorem State.withSession_session (s : State) (ses : Session) (k : Keystream) (a : Auth) : (s.withSession ses k a).session = ses := rfl
@[simp] theorem State.withSession_guardChacha (s : State) (ses : Session) (k : Keystream) (a : Auth) : (s.withSession ses k a).guardChacha = s.guardChacha := rfl
@[simp] theorem State.withSession_guardGcm (s : State) (ses : Session) (k : Keystream) (a : Auth) : (s.withSession ses k a).guardGcm = s.guardGcm := rfl
@[simp] theorem State.withSession_ks (s : State) (ses : Session) (k : Keystream) (a : Auth) : (s.withSession ses k a).ks = k := rfl
@[simp] theorem State.withSession_auth (s : State) (ses : Session) (k : Keystream) (a : Auth) : (s.withSession ses k a).auth = a := rfl
@[simp] theorem State.withSession_pbuf (s : State) (ses : Session) (k : Keystream) (a : Auth) : (s.withSession ses k a).pbuf = s.pbuf := rfl
@[simp] theorem State.withSession_dmem (s : State) (ses : Session) (k : Keystream) (a : Auth) : (s.withSession ses k a).dmem = s.dmem := rfl
@[simp] theorem State.withSession_epoch (s : State) (ses : Session) (k : Keystream) (a : Auth) : (s.withSession ses k a).epoch = s.epoch := rfl
@[simp] theorem State.withSession_bus (s : State) (ses : Session) (k : Keystream) (a : Auth) : (s.withSession ses k a).bus = s.bus := rfl
@[simp] theorem State.withSession_readData (s : State) (ses : Session) (k : Keystream) (a : Auth) : (s.withSession ses k a).readData = s.readData := rfl

/-! ## writeReg -/

@[simp] theorem State.writeReg_cfg (s : State) (off : Nat) (v : Word) : (s.writeReg off v).cfg = s.cfg := rfl
@[simp] theorem State.writeReg_status (s : State) (off : Nat) (v : Word) : (s.writeReg off v).status = s.status := rfl
@[simp] theorem State.writeReg_result (s : State) (off : Nat) (v : Word) : (s.writeReg off v).result = s.result := rfl
@[simp] theorem State.writeReg_args (s : State) (off : Nat) (v : Word) : (s.writeReg off v).args = s.args.write off v := rfl
@[simp] theorem State.writeReg_session (s : State) (off : Nat) (v : Word) : (s.writeReg off v).session = s.session := rfl
@[simp] theorem State.writeReg_guardChacha (s : State) (off : Nat) (v : Word) : (s.writeReg off v).guardChacha = s.guardChacha := rfl
@[simp] theorem State.writeReg_guardGcm (s : State) (off : Nat) (v : Word) : (s.writeReg off v).guardGcm = s.guardGcm := rfl
@[simp] theorem State.writeReg_ks (s : State) (off : Nat) (v : Word) : (s.writeReg off v).ks = s.ks := rfl
@[simp] theorem State.writeReg_auth (s : State) (off : Nat) (v : Word) : (s.writeReg off v).auth = s.auth := rfl
@[simp] theorem State.writeReg_pbuf (s : State) (off : Nat) (v : Word) : (s.writeReg off v).pbuf = s.pbuf := rfl
@[simp] theorem State.writeReg_dmem (s : State) (off : Nat) (v : Word) : (s.writeReg off v).dmem = s.dmem := rfl
@[simp] theorem State.writeReg_epoch (s : State) (off : Nat) (v : Word) : (s.writeReg off v).epoch = s.epoch := rfl
@[simp] theorem State.writeReg_bus (s : State) (off : Nat) (v : Word) : (s.writeReg off v).bus = s.bus := rfl
@[simp] theorem State.writeReg_readData (s : State) (off : Nat) (v : Word) : (s.writeReg off v).readData = s.readData := rfl

/-! ## answerRead -/

@[simp] theorem State.answerRead_cfg (s : State) (v : Word) : (s.answerRead v).cfg = s.cfg := rfl
@[simp] theorem State.answerRead_status (s : State) (v : Word) : (s.answerRead v).status = s.status := rfl
@[simp] theorem State.answerRead_result (s : State) (v : Word) : (s.answerRead v).result = s.result := rfl
@[simp] theorem State.answerRead_args (s : State) (v : Word) : (s.answerRead v).args = s.args := rfl
@[simp] theorem State.answerRead_session (s : State) (v : Word) : (s.answerRead v).session = s.session := rfl
@[simp] theorem State.answerRead_guardChacha (s : State) (v : Word) : (s.answerRead v).guardChacha = s.guardChacha := rfl
@[simp] theorem State.answerRead_guardGcm (s : State) (v : Word) : (s.answerRead v).guardGcm = s.guardGcm := rfl
@[simp] theorem State.answerRead_ks (s : State) (v : Word) : (s.answerRead v).ks = s.ks := rfl
@[simp] theorem State.answerRead_auth (s : State) (v : Word) : (s.answerRead v).auth = s.auth := rfl
@[simp] theorem State.answerRead_pbuf (s : State) (v : Word) : (s.answerRead v).pbuf = s.pbuf := rfl
@[simp] theorem State.answerRead_dmem (s : State) (v : Word) : (s.answerRead v).dmem = s.dmem := rfl
@[simp] theorem State.answerRead_epoch (s : State) (v : Word) : (s.answerRead v).epoch = s.epoch := rfl
@[simp] theorem State.answerRead_bus (s : State) (v : Word) : (s.answerRead v).bus = s.bus := rfl
@[simp] theorem State.answerRead_readData (s : State) (v : Word) : (s.answerRead v).readData = v := rfl

/-! ## Status.started -/

@[simp] theorem Status.started_err (st : Status) (fam : Family) (dir : Dir) : (st.started fam dir).err = st.err := rfl
@[simp] theorem Status.started_phase (st : Status) (fam : Family) (dir : Dir) : (st.started fam dir).phase = .init := rfl
@[simp] theorem Status.started_family (st : Status) (fam : Family) (dir : Dir) : (st.started fam dir).family = fam := rfl
@[simp] theorem Status.started_dir (st : Status) (fam : Family) (dir : Dir) : (st.started fam dir).dir = dir := rfl
@[simp] theorem Status.started_reinitRequired (st : Status) (fam : Family) (dir : Dir) : (st.started fam dir).reinitRequired = false := rfl
@[simp] theorem Status.started_aadClosed (st : Status) (fam : Family) (dir : Dir) : (st.started fam dir).aadClosed = false := rfl

/-! ## Status.tookAad -/

@[simp] theorem Status.tookAad_err (st : Status) : (st.tookAad).err = st.err := rfl
@[simp] theorem Status.tookAad_phase (st : Status) : (st.tookAad).phase = .acceptingAad := rfl
@[simp] theorem Status.tookAad_family (st : Status) : (st.tookAad).family = st.family := rfl
@[simp] theorem Status.tookAad_dir (st : Status) : (st.tookAad).dir = st.dir := rfl
@[simp] theorem Status.tookAad_reinitRequired (st : Status) : (st.tookAad).reinitRequired = st.reinitRequired := rfl
@[simp] theorem Status.tookAad_aadClosed (st : Status) : (st.tookAad).aadClosed = st.aadClosed := rfl

/-! ## Status.dataOpen -/

@[simp] theorem Status.dataOpen_err (st : Status) : (st.dataOpen).err = st.err := rfl
@[simp] theorem Status.dataOpen_phase (st : Status) : (st.dataOpen).phase = .acceptingData := rfl
@[simp] theorem Status.dataOpen_family (st : Status) : (st.dataOpen).family = st.family := rfl
@[simp] theorem Status.dataOpen_dir (st : Status) : (st.dataOpen).dir = st.dir := rfl
@[simp] theorem Status.dataOpen_reinitRequired (st : Status) : (st.dataOpen).reinitRequired = st.reinitRequired := rfl
@[simp] theorem Status.dataOpen_aadClosed (st : Status) : (st.dataOpen).aadClosed = true := rfl

/-! ## Status.consumed -/

@[simp] theorem Status.consumed_err (st : Status) : (st.consumed).err = st.err := rfl
@[simp] theorem Status.consumed_phase (st : Status) : (st.consumed).phase = .finalized := rfl
@[simp] theorem Status.consumed_family (st : Status) : (st.consumed).family = st.family := rfl
@[simp] theorem Status.consumed_dir (st : Status) : (st.consumed).dir = st.dir := rfl
@[simp] theorem Status.consumed_reinitRequired (st : Status) : (st.consumed).reinitRequired = if st.dir = .encrypt then true else st.reinitRequired := rfl
@[simp] theorem Status.consumed_aadClosed (st : Status) : (st.consumed).aadClosed = false := rfl

/-! ## Status.aborted -/

@[simp] theorem Status.aborted_err (st : Status) : (st.aborted).err = st.err := rfl
@[simp] theorem Status.aborted_phase (st : Status) : (st.aborted).phase = .idle := rfl
@[simp] theorem Status.aborted_family (st : Status) : (st.aborted).family = .cp := rfl
@[simp] theorem Status.aborted_dir (st : Status) : (st.aborted).dir = .encrypt := rfl
@[simp] theorem Status.aborted_reinitRequired (st : Status) : (st.aborted).reinitRequired = st.reinitRequired := rfl
@[simp] theorem Status.aborted_aadClosed (st : Status) : (st.aborted).aadClosed = false := rfl

/-! ## Which states are active -/

theorem Status.active_iff (st : Status) :
    st.active = true ↔ st.phase = .init ∨ st.phase = .acceptingAad ∨ st.phase = .acceptingData := by
  cases h : st.phase <;> simp [Status.active, h]

theorem Status.active_eq_false_iff (st : Status) :
    st.active = false ↔ st.phase = .idle ∨ st.phase = .finalized := by
  cases h : st.phase <;> simp [Status.active, h]

theorem Status.acceptsAad_iff (st : Status) :
    st.acceptsAad = true ↔ st.phase = .init ∨ st.phase = .acceptingAad := by
  cases h : st.phase <;> simp [Status.acceptsAad, h]

/-- ERR plays no part in whether a session is active. -/
@[simp] theorem Status.active_with_err (st : Status) (c : ErrCode) : { st with err := c }.active = st.active := rfl

theorem Status.acceptsAad_active {st : Status} (h : st.acceptsAad = true) : st.active = true := by
  rw [Status.active_iff]
  rcases (Status.acceptsAad_iff st).mp h with h | h <;> simp [h]

end Sys2Proof.Machine
end

