-- ==== Sys2Proof/Laws/Memory.lean ====
section
/-! SUPPORT. Sys2Proof/Laws/Memory.lean: DMEM: reading after writing, and the canonical form that every operation keeps. -/

namespace Sys2Proof.Machine

/-! ## One byte -/

theorem Memory.lookup_store_same (m : Memory) (x : Nat) (v : Byte) :
    Memory.lookup (Memory.store m x v) x = some v := by
  induction m with
  | nil => simp [Memory.store, Memory.lookup]
  | cons c m ih =>
    obtain ⟨a, b⟩ := c
    by_cases h1 : x < a
    · simp [Memory.store, Memory.lookup, h1]
    · by_cases h2 : x = a
      · simp [Memory.store, Memory.lookup, h2]
      · simp [Memory.store, Memory.lookup, h1, h2, ih, Ne.symm h2]

theorem Memory.lookup_store_ne (m : Memory) {x y : Nat} (v : Byte) (h : y ≠ x) :
    Memory.lookup (Memory.store m x v) y = Memory.lookup m y := by
  induction m with
  | nil => simp [Memory.store, Memory.lookup, h.symm]
  | cons c m ih =>
    obtain ⟨a, b⟩ := c
    by_cases h1 : x < a
    · simp [Memory.store, Memory.lookup, h1, h.symm]
    · by_cases h2 : x = a
      · subst h2
        simp [Memory.store, Memory.lookup, h.symm]
      · simp [Memory.store, Memory.lookup, h1, h2, ih]

theorem Memory.mem_store {m : Memory} {x : Nat} {v : Byte} {c : Host.Cell} (h : c ∈ Memory.store m x v) :
    c = (x, v) ∨ c ∈ m := by
  induction m with
  | nil => simpa [Memory.store] using h
  | cons d m ih =>
    obtain ⟨a, b⟩ := d
    by_cases h1 : x < a
    · simp only [Memory.store, h1, if_true, List.mem_cons] at h ⊢
      exact h
    · by_cases h2 : x = a
      · subst h2
        simp only [Memory.store, lt_irrefl, if_false, if_true, List.mem_cons] at h ⊢
        tauto
      · simp only [Memory.store, h1, h2, if_false, List.mem_cons] at h ⊢
        rcases h with h | h
        · exact .inr (.inl h)
        · rcases ih h with h | h
          · exact .inl h
          · exact .inr (.inr h)

/-- A store keeps the canonical form. -/
theorem Memory.store_wf {m : Memory} (x : Nat) (v : Byte) (h : Memory.wf m) : Memory.wf (Memory.store m x v) := by
  induction m with
  | nil => simp [Memory.store, Memory.wf]
  | cons c m ih =>
    obtain ⟨a, b⟩ := c
    simp only [Memory.wf, List.map_cons, List.pairwise_cons, List.mem_map, forall_exists_index, and_imp] at h
    obtain ⟨ha, hm⟩ := h
    by_cases h1 : x < a
    · simp only [Memory.store, h1, if_true, Memory.wf, List.map_cons, List.pairwise_cons, List.mem_cons, List.mem_map]
      refine ⟨?_, ⟨fun y hy => ?_, hm⟩⟩
      · rintro y (rfl | ⟨d, hd, rfl⟩)
        · exact h1
        · exact Nat.lt_trans h1 (ha _ d hd rfl)
      · obtain ⟨d, hd, rfl⟩ := hy
        exact ha _ d hd rfl
    · by_cases h2 : x = a
      · subst h2
        simp only [Memory.store, lt_irrefl, if_false, if_true, Memory.wf, List.map_cons, List.pairwise_cons, List.mem_map]
        exact ⟨fun y ⟨d, hd, e⟩ => ha y d hd e, hm⟩
      · simp only [Memory.store, h1, h2, if_false, Memory.wf, List.map_cons, List.pairwise_cons, List.mem_map]
        refine ⟨fun y ⟨d, hd, e⟩ => ?_, ih hm⟩
        rcases Memory.mem_store hd with h | h
        · subst h
          simp only at e
          omega
        · exact ha y d h e

/-! ## A byte string -/

/-- Stores of a byte string keep the canonical form. -/
theorem Memory.storeBytes_wf {m : Memory} (a : Nat) (b : List Byte) (h : Memory.wf m) :
    Memory.wf (Memory.storeBytes m a b) := by
  induction b generalizing m a with
  | nil => exact h
  | cons v b ih => exact ih (a + 1) (Memory.store_wf a v h)

theorem Memory.mem_storeBytes {m : Memory} {a : Nat} {b : List Byte} {c : Host.Cell}
    (h : c ∈ Memory.storeBytes m a b) : (a ≤ c.1 ∧ c.1 < a + b.length) ∨ c ∈ m := by
  induction b generalizing m a with
  | nil => exact .inr h
  | cons v b ih =>
    rcases ih (m := Memory.store m a v) (a := a + 1) h with h | h
    · left
      simp only [List.length_cons]
      omega
    · rcases Memory.mem_store h with rfl | h
      · left
        simp
      · exact .inr h

/-- A byte outside the stored range reads as before. -/
theorem Memory.lookup_storeBytes_out (m : Memory) (a : Nat) (b : List Byte) {x : Nat}
    (h : x < a ∨ a + b.length ≤ x) : Memory.lookup (Memory.storeBytes m a b) x = Memory.lookup m x := by
  induction b generalizing m a with
  | nil => rfl
  | cons v b ih =>
    simp only [List.length_cons] at h
    have hx : x < a + 1 ∨ a + 1 + b.length ≤ x := by omega
    rw [Memory.storeBytes, ih _ _ hx]
    exact Memory.lookup_store_ne m v (by omega)

/-- A byte inside the stored range reads as the string's. -/
theorem Memory.lookup_storeBytes_in (m : Memory) (a : Nat) (b : List Byte) {i : Nat} (h : i < b.length) :
    Memory.lookup (Memory.storeBytes m a b) (a + i) = some b[i] := by
  induction b generalizing m a i with
  | nil => simp at h
  | cons v b ih =>
    cases i with
    | zero =>
      rw [Memory.storeBytes, Memory.lookup_storeBytes_out _ _ _ (by omega)]
      exact Memory.lookup_store_same m a v
    | succ i =>
      simp only [List.length_cons] at h
      have := ih (Memory.store m a v) (a + 1) (i := i) (by omega)
      rw [Nat.add_assoc, Nat.add_comm 1 i] at this
      simpa [Memory.storeBytes] using this

/-! ## Through the machine's reads -/

theorem State.readByte_memWrite_out (s : State) (a : Nat) (b : List Byte) {x : Nat} (h : x < a ∨ a + b.length ≤ x) :
    (s.memWrite a b).readByte x = s.readByte x := by
  simp [State.readByte, Memory.lookup_storeBytes_out _ _ _ h]

theorem State.readByte_memWrite_in (s : State) (a : Nat) (b : List Byte) {i : Nat} (h : i < b.length) :
    (s.memWrite a b).readByte (a + i) = b[i] := by
  simp [State.readByte, Memory.lookup_storeBytes_in _ _ _ h]

@[simp] theorem State.memRead_length (s : State) (a n : Nat) : (s.memRead a n).length = n := by
  simp [State.memRead]

/-- `MemRead` gives the bytes of the range in order (R9). -/
theorem State.memRead_getElem (s : State) (a n i : Nat) (h : i < (s.memRead a n).length) :
    (s.memRead a n)[i] = s.readByte (a + i) := by
  simp [State.memRead]

/-- `MemRead` after `MemWrite` of the same range gives the string written (R9). -/
theorem State.memRead_memWrite_same (s : State) (a : Nat) (b : List Byte) :
    (s.memWrite a b).memRead a b.length = b := by
  apply List.ext_getElem (by simp)
  intro i h1 h2
  rw [State.memRead_getElem, State.readByte_memWrite_in _ _ _ h2]

/-- `MemRead` of a range that a `MemWrite` does not touch. -/
theorem State.memRead_memWrite_out (s : State) (a : Nat) (b : List Byte) {x n : Nat}
    (h : x + n ≤ a ∨ a + b.length ≤ x) : (s.memWrite a b).memRead x n = s.memRead x n := by
  apply List.ext_getElem (by simp)
  intro i h1 h2
  simp only [State.memRead_length] at h1
  rw [State.memRead_getElem, State.memRead_getElem, State.readByte_memWrite_out]
  omega

/-- What a state reads depends on its memory and its epoch alone. -/
theorem State.readByte_congr {s t : State} (hd : t.dmem = s.dmem) (he : t.epoch = s.epoch) (x : Nat) :
    t.readByte x = s.readByte x := by
  simp [State.readByte, hd, he]

theorem State.memRead_congr {s t : State} (hd : t.dmem = s.dmem) (he : t.epoch = s.epoch) (a n : Nat) :
    t.memRead a n = s.memRead a n := by
  simp [State.memRead, State.readByte_congr hd he]

@[simp] theorem State.rangeBytes_length (s : State) (a n : Word) : (s.rangeBytes a n).length = n.toNat := by
  simp [State.rangeBytes]

@[simp] theorem State.srcBytes_length (s : State) : s.srcBytes.length = s.args.a1.toNat := by
  simp [State.srcBytes]

/-- A legal range lies in DMEM (R74). -/
theorem State.legal_iff (s : State) (a n : Word) : s.legal a n = true ↔ a.toNat + n.toNat ≤ s.cfg.dmemSize := by
  simp [State.legal]

/-- The memory after reset is in canonical form. -/
theorem State.resetWith_mem_wf (c : Config) (e : Nat) (b : List BusEvent) : Memory.wf (State.resetWith c e b).dmem := by
  simp [State.resetWith, Memory.wf]

end Sys2Proof.Machine
end

