-- ==== Sys2Proof/Laws/Keystream.lean ====
section
/-! SUPPORT. Sys2Proof/Laws/Keystream.lean: what the keystream generator can do (R143, R144). -/

namespace Sys2Proof.Machine

/-- The two ways `NextBlock` can end (R143). -/
theorem nextBlock_cases (blk : Word → List Byte) (k : Keystream) :
    (k.used = k.maxBlocks ∧ nextBlock blk k = none) ∨
    (k.used ≠ k.maxBlocks ∧
      nextBlock blk k = some { k with buf := blk k.ctr, ctr := k.ctr + 1#32, used := k.used + 1, pos := 0 }) := by
  by_cases h : k.used = k.maxBlocks <;> simp [nextBlock, h]

/-- What `refill` can give: the state itself while keystream is left, else a new block within the limit (R143). -/
theorem refill_some {blk : Word → List Byte} {k k1 : Keystream} (h : refill blk k = some k1) :
    (k.pos ≠ k.buf.length ∧ k1 = k) ∨
    (k.pos = k.buf.length ∧ k.used ≠ k.maxBlocks ∧
      k1 = { k with buf := blk k.ctr, ctr := k.ctr + 1#32, used := k.used + 1, pos := 0 }) := by
  by_cases hp : k.pos = k.buf.length
  · simp only [refill, hp, if_true] at h
    rcases nextBlock_cases blk k with ⟨_, e⟩ | ⟨hu, e⟩
    · rw [e] at h
      cases h
    · rw [e] at h
      cases h
      exact .inr ⟨hp, hu, rfl⟩
  · simp only [refill, hp, if_false, Option.some.injEq] at h
    exact .inl ⟨hp, h.symm⟩

/-- `refill` fails exactly when no keystream is left and the limit is reached (R147). -/
theorem refill_none {blk : Word → List Byte} {k : Keystream} :
    refill blk k = none ↔ k.pos = k.buf.length ∧ k.used = k.maxBlocks := by
  by_cases hp : k.pos = k.buf.length
  · simp [refill, hp, nextBlock]
  · simp [refill, hp]

/-- No byte, no effect, no failure (R147). -/
@[simp] theorem ksXor_nil (blk : Word → List Byte) (k : Keystream) : ksXor blk k [] = ⟨[], k, false⟩ := rfl

theorem ksXor_cons_none {blk : Word → List Byte} {k : Keystream} (x : Byte) (xs : List Byte) (h : refill blk k = none) :
    ksXor blk k (x :: xs) = ⟨[], k, true⟩ := by
  simp [ksXor, h]

theorem ksXor_cons_some {blk : Word → List Byte} {k k1 : Keystream} (x : Byte) (xs : List Byte)
    (h : refill blk k = some k1) :
    ksXor blk k (x :: xs) =
      ⟨(x ^^^ k1.buf.getD k1.pos 0#8) :: (ksXor blk { k1 with pos := k1.pos + 1 } xs).out,
        (ksXor blk { k1 with pos := k1.pos + 1 } xs).ks, (ksXor blk { k1 with pos := k1.pos + 1 } xs).exhausted⟩ := by
  simp [ksXor, h]

/-- KsXor never makes more bytes than it was given, and makes all of them unless it is exhausted (R144). -/
theorem ksXor_out_length (blk : Word → List Byte) (k : Keystream) (d : List Byte) :
    (ksXor blk k d).out.length ≤ d.length ∧
    ((ksXor blk k d).exhausted = false → (ksXor blk k d).out.length = d.length) := by
  induction d generalizing k with
  | nil => simp
  | cons x xs ih =>
    cases h : refill blk k with
    | none => simp [ksXor_cons_none x xs h]
    | some k1 =>
      rw [ksXor_cons_some x xs h]
      have := ih { k1 with pos := k1.pos + 1 }
      simp only [List.length_cons]
      refine ⟨by omega, fun e => by have := this.2 e; omega⟩

/-- A property of the keystream state that taking a byte keeps is kept by KsXor (R140: it writes only that state). -/
theorem ksXor_preserves {blk : Word → List Byte} {P : Keystream → Prop}
    (hP : ∀ k k1, P k → refill blk k = some k1 → P { k1 with pos := k1.pos + 1 }) (k : Keystream) (d : List Byte)
    (h : P k) : P (ksXor blk k d).ks := by
  induction d generalizing k with
  | nil => exact h
  | cons x xs ih =>
    cases hr : refill blk k with
    | none =>
      rw [ksXor_cons_none x xs hr]
      exact h
    | some k1 =>
      rw [ksXor_cons_some x xs hr]
      exact ih _ (hP k k1 h hr)

/-- KsXor leaves max_blocks and J0 as they are (R143). -/
theorem ksXor_frame (blk : Word → List Byte) (k : Keystream) (d : List Byte) :
    (ksXor blk k d).ks.maxBlocks = k.maxBlocks ∧ (ksXor blk k d).ks.j0 = k.j0 := by
  refine ksXor_preserves (P := fun q => q.maxBlocks = k.maxBlocks ∧ q.j0 = k.j0) (fun q q1 h hr => ?_) k d ⟨rfl, rfl⟩
  rcases refill_some hr with ⟨-, rfl⟩ | ⟨-, -, rfl⟩ <;> exact h

/-- What stays true of the generator (R38 item 4, R143): used is within the limit, the cursor within the block, the block is empty
before the first and then the last one made, and the counter has moved one on for each block. `c0` is the initial counter. -/
structure Keystream.Good (blk : Word → List Byte) (c0 : Word) (k : Keystream) : Prop where
  used : k.used ≤ k.maxBlocks
  pos : k.pos ≤ k.buf.length
  bufFirst : k.used = 0 → k.buf = []
  bufLast : 0 < k.used → k.buf = blk (k.ctr - 1#32)
  ctr : k.ctr = c0 + BitVec.ofNat 32 k.used

theorem word_sub_one_add_one (c : Word) : c + 1#32 - 1#32 = c := by bv_omega

theorem word_add_succ (c : Word) (n : Nat) :
    c + BitVec.ofNat 32 n + 1#32 = c + BitVec.ofNat 32 (n + 1) := by
  apply BitVec.eq_of_toNat_eq
  simp only [BitVec.toNat_add, BitVec.toNat_ofNat]
  omega

/-- KsXor keeps the generator good, for a block transform that never gives an empty block. -/
theorem ksXor_good {blk : Word → List Byte} (hb : ∀ c, 0 < (blk c).length) {c0 : Word} {k : Keystream} (d : List Byte)
    (h : k.Good blk c0) : (ksXor blk k d).ks.Good blk c0 := by
  refine ksXor_preserves (P := Keystream.Good blk c0) (fun q q1 hq hr => ?_) k d h
  rcases refill_some hr with ⟨hp, rfl⟩ | ⟨-, hu, rfl⟩
  · exact ⟨hq.used, by have := hq.pos; simp only; omega, hq.bufFirst, hq.bufLast, hq.ctr⟩
  · refine ⟨by have := hq.used; simp only; omega, hb q.ctr, fun e => by simp at e, fun _ => ?_, ?_⟩
    · simp only [word_sub_one_add_one]
    · simp only [hq.ctr, word_add_succ]

/-- The generator's books (R143, R144), for blocks of `B` bytes: the blocks made, less what is left of the last one, have all
gone into the output; and after any output the last block has been started. -/
theorem ksXor_account {blk : Word → List Byte} {B : Nat} (hB : 0 < B) (hb : ∀ c, (blk c).length = B) (k : Keystream)
    (d : List Byte) (hp : k.pos ≤ k.buf.length) :
    (ksXor blk k d).ks.used * B + (ksXor blk k d).ks.pos + k.buf.length =
      k.used * B + k.pos + (ksXor blk k d).out.length + (ksXor blk k d).ks.buf.length ∧
    ((ksXor blk k d).out ≠ [] → 0 < (ksXor blk k d).ks.pos) ∧
    ((ksXor blk k d).ks.buf = k.buf ∨ (ksXor blk k d).ks.buf.length = B) := by
  induction d generalizing k with
  | nil => simp
  | cons x xs ih =>
    cases hr : refill blk k with
    | none =>
      rw [ksXor_cons_none x xs hr]
      simp
    | some k1 =>
      rw [ksXor_cons_some x xs hr]
      have hstart : ∀ q : Keystream, 0 < q.pos → 0 < (ksXor blk q xs).ks.pos := fun q hq =>
        ksXor_preserves (P := fun q => 0 < q.pos) (fun _ _ _ _ => by simp) q xs hq
      rcases refill_some hr with ⟨hne, rfl⟩ | ⟨he, -, rfl⟩
      · obtain ⟨h1, -, h3⟩ := ih { k1 with pos := k1.pos + 1 } (by simp only; omega)
        simp only [List.length_cons] at h1 ⊢
        exact ⟨by omega, fun _ => hstart _ (by simp), h3⟩
      · obtain ⟨h1, -, h3⟩ :=
          ih { k with buf := blk k.ctr, ctr := k.ctr + 1#32, used := k.used + 1, pos := 0 + 1 } (by simp only [hb]; omega)
        simp only [List.length_cons, hb, Nat.succ_mul] at h1 h3 ⊢
        exact ⟨by omega, fun _ => hstart _ (by simp), .inr (by rcases h3 with h3 | h3 <;> simp [h3, hb])⟩

/-- When KsXor stops short, the limit is reached and no keystream is left (R147). -/
theorem ksXor_exhausted {blk : Word → List Byte} {k : Keystream} {d : List Byte}
    (h : (ksXor blk k d).exhausted = true) :
    (ksXor blk k d).ks.used = (ksXor blk k d).ks.maxBlocks ∧
    (ksXor blk k d).ks.pos = (ksXor blk k d).ks.buf.length := by
  induction d generalizing k with
  | nil => simp at h
  | cons x xs ih =>
    cases hr : refill blk k with
    | none =>
      rw [ksXor_cons_none x xs hr]
      exact ⟨(refill_none.mp hr).2, (refill_none.mp hr).1⟩
    | some k1 =>
      rw [ksXor_cons_some x xs hr] at h ⊢
      exact ih h

end Sys2Proof.Machine
end

