-- ==== Sys2Proof/Laws/Authenticator.lean ====
section
/-! SUPPORT. Sys2Proof/Laws/Authenticator.lean: what the authenticator's operations can do (R170 to R188). -/

namespace Sys2Proof.Machine

/-- Absorbing a block changes only the accumulator of the family's engine (R170, R173, R180, R192). -/
theorem absorb_frame (fam : Family) (a : Auth) (m : List Byte) :
    (absorb fam a m).aadLen = a.aadLen ∧ (absorb fam a m).ctLen = a.ctLen ∧ (absorb fam a m).stage = a.stage ∧
    (absorb fam a m).r = a.r ∧ (absorb fam a m).s = a.s ∧ (absorb fam a m).h = a.h ∧ (absorb fam a m).ej0 = a.ej0 ∧
    (fam ≠ .cp → (absorb fam a m).acc = a.acc) ∧ (fam ≠ .gcm → (absorb fam a m).y = a.y) := by
  cases fam <;> simp [absorb]

theorem polyP_pos : 0 < polyP := by decide

/-- acc is below the prime after every absorb (R183). -/
theorem polyAbsorb_lt (r : Quad) (acc : Nat) (m : List Byte) : polyAbsorb r acc m < polyP :=
  Nat.mod_lt _ polyP_pos

theorem absorb_acc_lt {fam : Family} {a : Auth} (m : List Byte) (h : a.acc < polyP) : (absorb fam a m).acc < polyP := by
  cases fam
  · exact polyAbsorb_lt _ _ _
  · exact h
  · exact h

/-- What is the same before and after the engine works: lengths, keys and the other family's accumulator. -/
structure Auth.SameKeys (fam : Family) (a b : Auth) : Prop where
  aadLen : b.aadLen = a.aadLen
  ctLen : b.ctLen = a.ctLen
  r : b.r = a.r
  s : b.s = a.s
  h : b.h = a.h
  ej0 : b.ej0 = a.ej0
  acc : fam ≠ .cp → b.acc = a.acc
  y : fam ≠ .gcm → b.y = a.y

theorem Auth.SameKeys.refl (fam : Family) (a : Auth) : Auth.SameKeys fam a a :=
  ⟨rfl, rfl, rfl, rfl, rfl, rfl, fun _ => rfl, fun _ => rfl⟩

theorem Auth.SameKeys.trans {fam : Family} {a b c : Auth} (h : Auth.SameKeys fam a b) (g : Auth.SameKeys fam b c) :
    Auth.SameKeys fam a c :=
  ⟨g.aadLen.trans h.aadLen, g.ctLen.trans h.ctLen, g.r.trans h.r, g.s.trans h.s, g.h.trans h.h, g.ej0.trans h.ej0,
    fun n => (g.acc n).trans (h.acc n), fun n => (g.y n).trans (h.y n)⟩

theorem stageByte_same (fam : Family) (a : Auth) (x : Byte) : Auth.SameKeys fam a (stageByte fam a x) := by
  unfold stageByte
  split
  · obtain ⟨h1, h2, -, h4, h5, h6, h7, h8, h9⟩ := absorb_frame fam a (a.stage ++ [x])
    exact ⟨h1, h2, h4, h5, h6, h7, h8, h9⟩
  · exact ⟨rfl, rfl, rfl, rfl, rfl, rfl, fun _ => rfl, fun _ => rfl⟩

theorem engineUpdate_same (fam : Family) (a : Auth) (b : List Byte) : Auth.SameKeys fam a (engineUpdate fam a b) := by
  induction b generalizing a with
  | nil => exact Auth.SameKeys.refl fam a
  | cons x xs ih => exact (stageByte_same fam a x).trans (ih (stageByte fam a x))

theorem enginePad_same (fam : Family) (a : Auth) : Auth.SameKeys fam a (enginePad fam a) := by
  unfold enginePad
  split
  · obtain ⟨h1, h2, -, h4, h5, h6, h7, h8, h9⟩ := absorb_frame fam a (a.stage ++ zeros (16 - a.stage.length))
    exact ⟨h1, h2, h4, h5, h6, h7, h8, h9⟩
  · exact Auth.SameKeys.refl fam a

/-- The staging buffer keeps what is left over of the bytes fed (R174, R181). -/
theorem stageByte_stage (fam : Family) (a : Auth) (x : Byte) (h : a.stage.length < 16) :
    (stageByte fam a x).stage.length = (a.stage.length + 1) % 16 := by
  unfold stageByte
  split <;> rename_i e <;> simp only [List.length_append, List.length_cons, List.length_nil] at e ⊢ <;> omega

theorem engineUpdate_stage (fam : Family) (a : Auth) (b : List Byte) (h : a.stage.length < 16) :
    (engineUpdate fam a b).stage.length = (a.stage.length + b.length) % 16 := by
  induction b generalizing a with
  | nil =>
    simp only [engineUpdate, List.foldl_nil, List.length_nil]
    omega
  | cons x xs ih =>
    have h1 := stageByte_stage fam a x h
    have h2 := ih (stageByte fam a x) (by omega)
    simp only [engineUpdate, List.foldl_cons, List.length_cons] at h2 ⊢
    omega

/-- Padding empties the staging buffer (R174, R181, R186). -/
@[simp] theorem enginePad_stage (fam : Family) (a : Auth) : (enginePad fam a).stage = [] := by
  unfold enginePad
  split
  · rfl
  · rename_i h
    simpa using h

theorem stageByte_acc_lt {fam : Family} {a : Auth} (x : Byte) (h : a.acc < polyP) : (stageByte fam a x).acc < polyP := by
  unfold stageByte
  split
  · exact absorb_acc_lt _ h
  · exact h

theorem engineUpdate_acc_lt {fam : Family} {a : Auth} (b : List Byte) (h : a.acc < polyP) :
    (engineUpdate fam a b).acc < polyP := by
  induction b generalizing a with
  | nil => exact h
  | cons x xs ih => exact ih (stageByte_acc_lt x h)

theorem enginePad_acc_lt {fam : Family} {a : Auth} (h : a.acc < polyP) : (enginePad fam a).acc < polyP := by
  unfold enginePad
  split
  · exact absorb_acc_lt _ h
  · exact h

/-- Feeding one string after another is feeding their concatenation (R174, R181). -/
theorem engineUpdate_append (fam : Family) (a : Auth) (b c : List Byte) :
    engineUpdate fam a (b ++ c) = engineUpdate fam (engineUpdate fam a b) c := by
  simp [engineUpdate]

/-- The tag has tag_len bytes (R177, R184, R188). -/
theorem gcmTag_length_le (n : Nat) (a : Auth) : (gcmTag n a).length ≤ n := by
  simp only [gcmTag, slice_length]
  omega

@[simp] theorem cpTag_length (a : Auth) : (cpTag a).length = 16 := by simp [cpTag, polyFinal]

end Sys2Proof.Machine
end

