-- ==== Sys2Proof/Laws/Commands.lean ====
section
/-! SUPPORT. Sys2Proof/Laws/Commands.lean: what the ordered checks and the commands can do, said once for the proofs that cite it. -/

namespace Sys2Proof.Machine

/-! ## Ordered checks (R324) -/

@[simp] theorem firstError_nil : firstError [] = none := rfl

theorem firstError_cons (b : Bool) (c : ErrCode) (l : List (Bool × ErrCode)) :
    firstError ((b, c) :: l) = if b then some c else firstError l := rfl

/-- No check fails exactly when every one passes. -/
theorem firstError_eq_none {l : List (Bool × ErrCode)} : firstError l = none ↔ ∀ p ∈ l, p.1 = false := by
  induction l with
  | nil => simp
  | cons p l ih =>
    obtain ⟨b, c⟩ := p
    cases b <;> simp [firstError_cons, ih]

/-- A failing list's code is that of one of its checks. -/
theorem firstError_mem {l : List (Bool × ErrCode)} {c : ErrCode} (h : firstError l = some c) : (true, c) ∈ l := by
  induction l with
  | nil => simp at h
  | cons p l ih =>
    obtain ⟨b, d⟩ := p
    cases b
    · simp only [firstError_cons, Bool.false_eq_true, if_false] at h
      exact List.mem_cons_of_mem _ (ih h)
    · simp only [firstError_cons, if_true, Option.some.injEq] at h
      simp [h]

/-- INIT's ordered checks all pass (R231, R232). -/
theorem initErrors_eq_none {s : State} {fam : Family} {dir : Dir} {t : Nat} :
    initErrors s fam dir t = none ↔
      keyLenOk fam s.args.a1.toNat = true ∧ nonceLenOk s.cfg fam s.args.a3.toNat = true ∧ taglenOk fam t = true ∧
      s.legal s.args.a0 s.args.a1 = true ∧ s.legal s.args.a2 s.args.a3 = true ∧
      (dir = .encrypt →
        s.guard fam ≠ some (s.rangeBytes s.args.a0 s.args.a1, s.rangeBytes s.args.a2 s.args.a3)) := by
  cases dir <;> simp [initErrors, firstError_eq_none]
  tauto

/-- UPDATE_AAD's ordered checks all pass (R240). -/
theorem aadErrors_eq_none {s : State} :
    aadErrors s = none ↔
      s.status.acceptsAad = true ∧ s.status.family ≠ .stream ∧ s.legal s.args.a0 s.args.a1 = true ∧
      s.auth.aadLen + s.args.a1.toNat ≤ aadMax s.status.family := by
  simp [aadErrors, firstError_eq_none]

/-- DataPrologue's ordered checks all pass (R270). -/
theorem dataErrors_eq_none {s : State} :
    dataErrors s = none ↔
      s.status.active = true ∧ s.legal s.args.a0 s.args.a1 = true ∧ s.legal s.args.a2 s.args.a3 = true := by
  simp [dataErrors, firstError_eq_none]

/-! ## What each command can answer -/

/-- INIT either raises one code or commits (R231 to R233). -/
theorem execInit_cases (m : Opmode) (f : FamilyField) (n : Nat) (s : State) :
    (∃ code, execInit m f n s = .next (s.raise code)) ∨
    (∃ dir fam, dirOf m = some dir ∧ familyOf f = some fam ∧ initErrors s fam dir n = none ∧
      execInit m f n s = .next ((initCommit s fam dir n).complete .ok 0#32)) := by
  unfold execInit
  cases hd : dirOf m with
  | none => exact .inl ⟨_, rfl⟩
  | some dir =>
    cases hf : familyOf f with
    | none => exact .inl ⟨_, rfl⟩
    | some fam =>
      cases he : initErrors s fam dir n with
      | none => exact .inr ⟨dir, fam, rfl, rfl, he, by simp [he]⟩
      | some c => exact .inl ⟨c, by simp [he]⟩

/-- UPDATE_AAD raises one code, does nothing on no bytes, or absorbs (R240). -/
theorem execUpdateAad_cases (s : State) :
    (∃ code, aadErrors s = some code ∧ execUpdateAad s = .next (s.raise code)) ∨
    (aadErrors s = none ∧ s.args.a1.toNat = 0 ∧ execUpdateAad s = .next (s.complete .ok 0#32)) ∨
    (aadErrors s = none ∧ s.args.a1.toNat ≠ 0 ∧
      execUpdateAad s = .next (((s.absorbAad s.srcBytes).withStatus s.status.tookAad).complete .ok 0#32)) := by
  unfold execUpdateAad
  cases h : aadErrors s with
  | some c => exact .inl ⟨c, rfl, rfl⟩
  | none =>
    by_cases h0 : s.args.a1.toNat = 0
    · exact .inr (.inl ⟨rfl, h0, by simp [h0]⟩)
    · exact .inr (.inr ⟨rfl, h0, by simp [h0]⟩)

/-- UPDATE raises one code or runs its body (R270). -/
theorem execUpdate_cases (s : State) :
    (∃ code, dataErrors s = some code ∧ execUpdate s = .next (s.raise code)) ∨
    (dataErrors s = none ∧ execUpdate s = .next (updateBody s)) := by
  unfold execUpdate
  cases h : dataErrors s with
  | some c => exact .inl ⟨c, rfl, rfl⟩
  | none => exact .inr ⟨rfl, rfl⟩

/-- FINALIZE raises one code or runs its body (R270). -/
theorem execFinalize_cases (s : State) :
    (∃ code, dataErrors s = some code ∧ execFinalize s = .next (s.raise code)) ∨
    (dataErrors s = none ∧ execFinalize s = .next (finalizeBody s)) := by
  unfold execFinalize
  cases h : dataErrors s with
  | some c => exact .inl ⟨c, rfl, rfl⟩
  | none => exact .inr ⟨rfl, rfl⟩

/-- OUTPUT_SIZE changes at most ERR and RESULT (R246). -/
theorem execOutputSize_cases (final : Bool) (s : State) :
    (s.status.active = false ∧ execOutputSize final s = .next (s.raise .illegalState)) ∨
    (s.status.active = true ∧ execOutputSize final s =
      .next (s.complete .ok (BitVec.ofNat 32 (min (outputSize s final s.args.a1.toNat) (2 ^ 32 - 1))))) := by
  unfold execOutputSize
  cases h : s.status.active <;> simp

/-! ## The bus -/

/-- A host access to REG: what it can answer (R73). -/
theorem regAccess_next {s t : State} {off bytes : Nat} {op : BusOp} (h : regAccess s off bytes op = .next t) :
    bytes = 4 ∧ off % 4 = 0 ∧
    ((op = .read ∧ t = s.answerRead (s.readReg off)) ∨
     (∃ v, op = .write v ∧ off = 0 ∧ issueCommand v s = .next t) ∨
     (∃ v, op = .write v ∧ off ≠ 0 ∧ t = s.writeReg off v)) := by
  unfold regAccess at h
  split at h
  · cases h
  · rename_i hf
    simp only [ne_eq, not_or, not_not] at hf
    refine ⟨hf.1, hf.2, ?_⟩
    cases op with
    | read =>
      cases h
      exact .inl ⟨rfl, rfl⟩
    | write v =>
      by_cases h0 : off = 0
      · simp only [h0, if_true] at h
        exact .inr (.inl ⟨v, rfl, h0, h⟩)
      · simp only [h0, if_false] at h
        cases h
        exact .inr (.inr ⟨v, rfl, h0, rfl⟩)

/-- A host access to DMEM: what it can answer (R72). -/
theorem dmemAccess_next {s t : State} {a bytes : Nat} {op : BusOp} (h : dmemAccess s a bytes op = .next t) :
    (bytes = 1 ∧ a < s.cfg.dmemSize ∧
      ((op = .read ∧ t = s.answerRead ((s.readByte a).setWidth 32)) ∨
       ∃ v, op = .write v ∧ t = s.memWrite a [v.setWidth 8])) ∨
    (bytes = 4 ∧ a % 4 = 0 ∧ a + 3 < s.cfg.dmemSize ∧
      ((op = .read ∧ t = s.answerRead (s.readWord a)) ∨ ∃ v, op = .write v ∧ t = s.writeWord a v)) := by
  unfold dmemAccess at h
  split at h
  · split at h
    · cases h
    · cases op <;> cases h
      · exact .inl ⟨‹_›, by omega, .inl ⟨rfl, rfl⟩⟩
      · exact .inl ⟨‹_›, by omega, .inr ⟨_, rfl, rfl⟩⟩
  · split at h
    · split at h
      · cases h
      · split at h
        · cases h
        · rename_i h4 h5
          cases op <;> cases h
          · exact .inr ⟨‹_›, by omega, by omega, .inl ⟨rfl, rfl⟩⟩
          · exact .inr ⟨‹_›, by omega, by omega, .inr ⟨_, rfl, rfl⟩⟩
    · cases h

/-- One bus access: REG, DMEM or nowhere (R70). -/
theorem busAccess_next {s t : State} {a : Access} (h : busAccess s a = .next t) :
    (s.cfg.regBase ≤ a.addr ∧ a.addr < s.cfg.regBase + 64 ∧ regAccess s (a.addr - s.cfg.regBase) a.bytes a.op = .next t) ∨
    (¬ (s.cfg.regBase ≤ a.addr ∧ a.addr < s.cfg.regBase + 64) ∧ s.cfg.dmemBase ≤ a.addr ∧
      dmemAccess s (a.addr - s.cfg.dmemBase) a.bytes a.op = .next t) := by
  unfold busAccess at h
  split at h
  · exact .inl ⟨‹_ ∧ _›.1, ‹_ ∧ _›.2, h⟩
  · rename_i hr
    split at h
    · exact .inr ⟨hr, ‹_›, h⟩
    · cases h

/-- The CMD write that `withCommand` puts first is what the next step performs (R21). -/
theorem step_withCommand (s : State) (w : Word) : step (s.withCommand w) = issueCommand w s := by
  simp [step, State.withCommand, busEvent, busAccess, regAccess, regWrite]

end Sys2Proof.Machine
end

