-- ==== Sys2Proof/Laws/Data.lean ====
section
/-! SUPPORT. Sys2Proof/Laws/Data.lean: what UPDATE and FINALIZE can do, case by case, in the terms of Safety.lean, so that no proof
has to take their bodies apart (R270 to R276). -/

namespace Sys2Proof.Machine

/-! ## The terms -/

theorem State.pending_eq (s : State) : s.pending = s.pbuf ++ s.srcBytes := rfl

@[simp] theorem State.pending_length (s : State) : s.pending.length = s.pbuf.length + s.args.a1.toNat := by
  simp [State.pending_eq]

@[simp] theorem State.crypt_length (s : State) (d : List Byte) : (s.crypt d).length = d.length := by simp [State.crypt]

theorem wholeBlocks_le (n B : Nat) : wholeBlocks n B ≤ n := Nat.div_mul_le_self n B

/-- UPDATE and FINALIZE run their bodies exactly on `dataLegal` states (R270). -/
theorem State.dataLegal_iff (s : State) : s.dataLegal ↔ dataErrors s = none := by
  rw [dataErrors_eq_none, Status.active_iff, State.legal_iff, State.legal_iff]
  rfl

theorem State.dataLegal.active {s : State} (h : s.dataLegal) : s.status.active = true := (Status.active_iff _).mpr h.1

theorem State.dataLegal.update {s : State} (h : s.dataLegal) : exec .update s = .next (updateBody s) := by
  simp [exec, execUpdate, (State.dataLegal_iff s).mp h]

theorem State.dataLegal.finalize {s : State} (h : s.dataLegal) : exec .finalize s = .next (finalizeBody s) := by
  simp [exec, execFinalize, (State.dataLegal_iff s).mp h]

/-- The codes of the prologue (R270). -/
theorem dataErrors_code {s : State} {c : ErrCode} (h : dataErrors s = some c) : c = .illegalState ∨ c = .addressError := by
  have := firstError_mem h
  simp at this
  tauto

/-- KsXor does the same in any state with the same family, session record and keystream state (R140). -/
theorem State.xorData_congr {s u : State} (hf : u.status.family = s.status.family) (hs : u.session = s.session)
    (hk : u.ks = s.ks) (d : List Byte) : u.xorData d = s.xorData d := by
  simp [State.xorData, State.ksBlock, hf, hs, hk]

/-- CloseAad of a CP or GCM session (R270). -/
theorem State.closedAuth_eq {s : State} (hf : s.status.family ≠ .stream) : s.closedAuth = s.authClosed := by
  unfold State.closedAuth State.authClosed authCloseAad
  cases s.status.aadClosed <;> simp [hf]

/-- CloseAad of a STREAM session leaves the authenticator alone (R270). -/
theorem State.closedAuth_stream {s : State} (hf : s.status.family = .stream) : s.closedAuth = s.auth := by
  simp [State.closedAuth, hf]

theorem State.authClosed_same (s : State) : Auth.SameKeys s.status.family s.auth s.authClosed := by
  unfold State.authClosed
  split
  · exact Auth.SameKeys.refl _ _
  · exact enginePad_same _ _

/-- AuthUpdateData after CloseAad (R187, R270). -/
theorem State.authWith_eq {s : State} (hf : s.status.family ≠ .stream) (c : List Byte) :
    authUpdateData s.status.family s.closedAuth c = s.authWith c := by
  unfold authUpdateData State.authWith
  rw [State.closedAuth_eq hf]
  simp only [(engineUpdate_same s.status.family s.authClosed c).ctLen, s.authClosed_same.ctLen]

/-- What data does to the authenticator depends only on the authenticator with the AAD closed: it is no matter whether an earlier
call closed it or this one does (R186, R187). -/
theorem State.authWith_congr {s d : State} (hf : d.status.family = s.status.family) (ha : d.authClosed = s.authClosed)
    (c : List Byte) : d.authWith c = s.authWith c := by
  have hc : d.auth.ctLen = s.auth.ctLen := by rw [← d.authClosed_same.ctLen, ← s.authClosed_same.ctLen, ha]
  unfold State.authWith
  rw [hf, ha, hc]

/-- The engine does not look at ct_len. -/
theorem engineUpdate_with_ctLen (fam : Family) (a : Auth) (n : Nat) (b : List Byte) :
    engineUpdate fam { a with ctLen := n } b = { engineUpdate fam a b with ctLen := n } := by
  induction b generalizing a with
  | nil => rfl
  | cons x xs ih =>
    have e : stageByte fam { a with ctLen := n } x = { stageByte fam a x with ctLen := n } := by
      unfold stageByte absorb
      simp only
      split <;> cases fam <;> rfl
    simp only [engineUpdate, List.foldl_cons] at *
    rw [e, ih]

/-! ## DMEM after a command -/

theorem State.memRead_of_write {s t : State} {a n : Nat} {b : List Byte} (hd : t.dmem = Memory.storeBytes s.dmem a b)
    (he : t.epoch = s.epoch) (h : b.length = n) : t.memRead a n = b := by
  rw [State.memRead_congr (s := s.memWrite a b) hd he, ← h]
  exact State.memRead_memWrite_same _ _ _

theorem State.sameOutside_of_write {s t : State} {a n : Nat} {b : List Byte} (hd : t.dmem = Memory.storeBytes s.dmem a b)
    (he : t.epoch = s.epoch) (h : b.length ≤ n) : s.sameOutside t a n := by
  intro x hx
  rw [State.readByte_congr (s := s.memWrite a b) hd he]
  exact State.readByte_memWrite_out _ _ _ (by omega)

/-- A state that Consume and `complete` end (R277). -/
theorem State.consumedFrom_of {s u : State} (hf : u.status.family = s.status.family) (hd : u.status.dir = s.status.dir)
    (hr : u.status.reinitRequired = s.status.reinitRequired) (hc : u.guardChacha = s.guardChacha)
    (hg : u.guardGcm = s.guardGcm) (code : ErrCode) (r : Word) : s.ConsumedFrom (u.consume.complete code r) := by
  refine ⟨⟨rfl, rfl, rfl, rfl⟩, rfl, rfl, ?_, hf, hd, hc, hg⟩
  simp only [State.complete_status, State.consume_status, Status.consumed_reinitRequired, hd, hr]
  split <;> simp [*]

/-! ## UPDATE -/

/-- UPDATE_ENC (R271): too small, exhausted, or done. -/
theorem updateEncrypt_cases (s : State) :
    let k := s.pending.length / s.session.block * s.session.block
    let x := s.xorData (s.pending.take k)
    let s1 := ((s.closeAad.withPbuf (s.pending.drop k)).withKs x.ks).memWrite s.args.a2.toNat x.out
    (s.args.a3.toNat < k ∧ updateEncrypt s = s.raise .bufferTooSmall) ∨
    (k ≤ s.args.a3.toNat ∧ x.exhausted = true ∧
      updateEncrypt s = s1.consume.complete .counterExhausted (BitVec.ofNat 32 x.out.length)) ∨
    (k ≤ s.args.a3.toNat ∧ x.exhausted = false ∧
      updateEncrypt s = (s1.absorbData x.out).complete .ok (BitVec.ofNat 32 k)) := by
  intro k x s1
  have hk : wholeBlocks (s.pbuf.length + s.srcBytes.length) s.session.block = k := by simp [k, wholeBlocks]
  have hsp : pbSplit s.closeAad.pbuf s.srcBytes s.closeAad.session.block = (s.pending.take k, s.pending.drop k) := by
    simp only [pbSplit, State.closeAad_pbuf, State.closeAad_session, List.length_append, hk, State.pending_eq]
  have hx : (s.closeAad.withPbuf (s.pending.drop k)).xorData (s.pending.take k) = x := State.xorData_congr rfl rfl rfl _
  unfold updateEncrypt
  simp only [hk, hsp, hx]
  by_cases h1 : s.args.a3.toNat < k
  · exact .inl ⟨h1, by simp [State.cap, h1]⟩
  · cases h2 : x.exhausted
    · exact .inr (.inr ⟨by omega, rfl, by simp only [State.cap, h1, if_false, Bool.false_eq_true]; rfl⟩)
    · exact .inr (.inl ⟨by omega, rfl, by simp only [State.cap, h1, if_false, if_true]; rfl⟩)

/-- UPDATE_DEC (R272): over capacity, or buffered. -/
theorem updateDecrypt_cases (s : State) :
    (s.cfg.pbufCap < s.pending.length ∧ updateDecrypt s = s.raise .capacityExceeded) ∨
    (s.pending.length ≤ s.cfg.pbufCap ∧ updateDecrypt s = (s.closeAad.withPbuf s.pending).complete .ok 0#32) := by
  unfold updateDecrypt
  by_cases h : s.cfg.pbufCap < s.pending.length
  · exact .inl ⟨h, by simp only [State.pending_length, State.srcBytes_length] at h ⊢; rw [if_pos h]⟩
  · exact .inr ⟨by omega, by
      simp only [State.pending_length, State.srcBytes_length] at h ⊢
      rw [if_neg h]
      rfl⟩

/-- UPDATE_STREAM (R273): too small, exhausted, or done. -/
theorem updateStream_cases (s : State) :
    let x := s.xorData s.srcBytes
    let s1 := (s.closeAad.withKs x.ks).memWrite s.args.a2.toNat x.out
    (s.args.a3.toNat < s.args.a1.toNat ∧ updateStream s = s.raise .bufferTooSmall) ∨
    (s.args.a1.toNat ≤ s.args.a3.toNat ∧ x.exhausted = true ∧
      updateStream s = s1.consume.complete .counterExhausted (BitVec.ofNat 32 x.out.length)) ∨
    (s.args.a1.toNat ≤ s.args.a3.toNat ∧ x.exhausted = false ∧
      updateStream s = s1.complete .ok (BitVec.ofNat 32 s.args.a1.toNat)) := by
  intro x s1
  have hx : s.closeAad.xorData s.srcBytes = x := State.xorData_congr rfl rfl rfl _
  unfold updateStream
  simp only [hx, State.srcBytes_length]
  by_cases h1 : s.args.a3.toNat < s.args.a1.toNat
  · exact .inl ⟨h1, by simp [State.cap, h1]⟩
  · cases h2 : x.exhausted
    · exact .inr (.inr ⟨by omega, rfl, by simp only [State.cap, h1, if_false, Bool.false_eq_true]; rfl⟩)
    · exact .inr (.inl ⟨by omega, rfl, by simp only [State.cap, h1, if_false, if_true]; rfl⟩)

/-- Which of the three an UPDATE runs. -/
theorem updateBody_cases (s : State) :
    (s.status.family = .stream ∧ updateBody s = updateStream s) ∨
    (s.status.family ≠ .stream ∧ s.status.dir = .encrypt ∧ updateBody s = updateEncrypt s) ∨
    (s.status.family ≠ .stream ∧ s.status.dir = .decrypt ∧ updateBody s = updateDecrypt s) := by
  unfold updateBody
  by_cases h : s.status.family = .stream
  · exact .inl ⟨h, by simp [h]⟩
  · cases hd : s.status.dir
    · exact .inr (.inl ⟨h, rfl, by simp [h]⟩)
    · exact .inr (.inr ⟨h, rfl, by simp [h]⟩)

/-! ## FINALIZE -/

/-- FINALIZE_ENC (R274): too small, exhausted, or done. -/
theorem finalizeEncrypt_cases {s : State} (hf : s.status.family ≠ .stream) :
    let m := s.pending.length
    let x := s.xorData s.pending
    let s1 := (s.closeAad.withPbuf []).withKs x.ks
    (s.args.a3.toNat < m + s.session.tagLen ∧ finalizeEncrypt s = s.raise .bufferTooSmall) ∨
    (m + s.session.tagLen ≤ s.args.a3.toNat ∧ x.exhausted = true ∧
      finalizeEncrypt s =
        (s1.memWrite s.args.a2.toNat x.out).consume.complete .counterExhausted (BitVec.ofNat 32 x.out.length)) ∨
    (m + s.session.tagLen ≤ s.args.a3.toNat ∧ x.exhausted = false ∧
      finalizeEncrypt s =
        ((s1.absorbData x.out).memWrite s.args.a2.toNat
          (x.out ++ authTag s.status.family s.session.tagLen (s.authWith x.out))).consume.complete .ok
            (BitVec.ofNat 32 (m + s.session.tagLen))) := by
  intro m x s1
  have hm : s.pbuf.length + s.srcBytes.length = m := by simp [m]
  have hx : (s.closeAad.withPbuf []).xorData (pbDrain s.closeAad.pbuf s.srcBytes) = x := State.xorData_congr rfl rfl rfl _
  have ht : (s1.absorbData x.out).tag = authTag s.status.family s.session.tagLen (s.authWith x.out) := by
    rw [← State.authWith_eq hf]
    rfl
  unfold finalizeEncrypt
  simp only [hm, hx]
  by_cases h1 : s.args.a3.toNat < m + s.session.tagLen
  · exact .inl ⟨h1, by simp [State.cap, h1]⟩
  · cases h2 : x.exhausted
    · refine .inr (.inr ⟨by omega, rfl, ?_⟩)
      simp only [State.cap, h1, if_false, Bool.false_eq_true]
      rw [← ht]
      rfl
    · exact .inr (.inl ⟨by omega, rfl, by simp only [State.cap, h1, if_false, if_true]; rfl⟩)

/-- FINALIZE_DEC (R275): too small, too short, too long for the keystream, a wrong tag, or done. -/
theorem finalizeDecrypt_cases {s : State} (hf : s.status.family ≠ .stream) :
    let len := s.pending.length - s.session.tagLen
    let ct := s.pending.take len
    let need := (len + blockBytes s.status.family - 1) / blockBytes s.status.family
    let good := authTag s.status.family s.session.tagLen (s.authWith ct) = s.pending.drop len
    let s1 := (s.closeAad.withPbuf []).absorbData ct
    let x := s.xorData ct
    (s.args.a3.toNat < len ∧ finalizeDecrypt s = s.raise .bufferTooSmall) ∨
    (len ≤ s.args.a3.toNat ∧ s.pending.length < s.session.tagLen ∧
      finalizeDecrypt s = s.closeAad.consume.complete .authenticationFailed 0#32) ∨
    (len ≤ s.args.a3.toNat ∧ s.session.tagLen ≤ s.pending.length ∧ s.ks.maxBlocks < s.ks.used + need ∧
      finalizeDecrypt s = (s.closeAad.withPbuf []).consume.complete .counterExhausted 0#32) ∨
    (len ≤ s.args.a3.toNat ∧ s.session.tagLen ≤ s.pending.length ∧ s.ks.used + need ≤ s.ks.maxBlocks ∧ ¬ good ∧
      finalizeDecrypt s =
        (if 0 < s.args.a1.toNat ∧ 0 < len ∧ overlaps s.args.a0.toNat s.args.a1.toNat s.args.a2.toNat len = true then
          s1.memWrite s.args.a2.toNat (zeros len) else s1).consume.complete .authenticationFailed 0#32) ∨
    (len ≤ s.args.a3.toNat ∧ s.session.tagLen ≤ s.pending.length ∧ s.ks.used + need ≤ s.ks.maxBlocks ∧ good ∧
      finalizeDecrypt s =
        ((s1.withKs x.ks).memWrite s.args.a2.toNat x.out).consume.complete .ok (BitVec.ofNat 32 len)) := by
  intro len ct need good s1 x
  have hm : s.pbuf.length + s.srcBytes.length = s.pending.length := by simp
  have hct : slice (pbDrain s.closeAad.pbuf s.srcBytes) 0 (s.pending.length - s.session.tagLen) = ct := by
    simp only [slice, pbDrain, State.closeAad_pbuf, ← State.pending_eq, List.drop_zero, Nat.sub_zero]
    rfl
  have hcand : slice (pbDrain s.closeAad.pbuf s.srcBytes) (s.pending.length - s.session.tagLen) s.pending.length =
      s.pending.drop len := by
    simp only [slice, pbDrain, State.closeAad_pbuf, ← State.pending_eq]
    rw [List.take_of_length_le (by simp)]
  have hcl : ct.length = len := by
    simp only [ct, List.length_take]
    omega
  have hx : s1.xorData ct = x := State.xorData_congr rfl rfl rfl _
  have ht : s1.tag = authTag s.status.family s.session.tagLen (s.authWith ct) := by
    rw [← State.authWith_eq hf]
    rfl
  have hunf : finalizeDecrypt s =
      if s.args.a3.toNat < len then s.raise .bufferTooSmall
      else if s.pending.length < s.session.tagLen then s.closeAad.consume.complete .authenticationFailed 0#32
      else if s.ks.maxBlocks < s.ks.used + need then (s.closeAad.withPbuf []).consume.complete .counterExhausted 0#32
      else if ¬ good then
        (if 0 < s.args.a1.toNat ∧ 0 < len ∧ overlaps s.args.a0.toNat s.args.a1.toNat s.args.a2.toNat len = true then
          s1.memWrite s.args.a2.toNat (zeros len) else s1).consume.complete .authenticationFailed 0#32
      else ((s1.withKs x.ks).memWrite s.args.a2.toNat x.out).consume.complete .ok (BitVec.ofNat 32 len) := by
    unfold finalizeDecrypt finalizeDecryptChecked
    simp only [hm]
    simp only [hct, hcand, hcl]
    change (if s.args.a3.toNat < len then _ else if s.pending.length < s.session.tagLen then _
      else if s.ks.maxBlocks < s.ks.used + need then _ else if s1.tag ≠ s.pending.drop len then _
      else (((s1.withKs (s1.xorData ct).ks).memWrite s.args.a2.toNat (s1.xorData ct).out).consume).complete .ok
        (BitVec.ofNat 32 len)) = _
    rw [ht, hx]
    rfl
  rw [hunf]
  by_cases h1 : s.args.a3.toNat < len
  · exact .inl ⟨h1, if_pos h1⟩
  by_cases h2 : s.pending.length < s.session.tagLen
  · exact .inr (.inl ⟨by omega, h2, by rw [if_neg h1, if_pos h2]⟩)
  by_cases h3 : s.ks.maxBlocks < s.ks.used + need
  · exact .inr (.inr (.inl ⟨by omega, by omega, h3, by rw [if_neg h1, if_neg h2, if_pos h3]⟩))
  by_cases h4 : good
  · exact .inr (.inr (.inr (.inr ⟨by omega, by omega, by omega, h4, by
      rw [if_neg h1, if_neg h2, if_neg h3, if_neg (not_not.mpr h4)]⟩)))
  · exact .inr (.inr (.inr (.inl ⟨by omega, by omega, by omega, h4, by rw [if_neg h1, if_neg h2, if_neg h3, if_pos h4]⟩)))

/-- FINALIZE_STREAM (R276): too small, or done. -/
theorem finalizeStream_cases (s : State) :
    let x := s.xorData s.srcBytes
    (s.args.a3.toNat < s.args.a1.toNat ∧ finalizeStream s = s.raise .bufferTooSmall) ∨
    (s.args.a1.toNat ≤ s.args.a3.toNat ∧
      finalizeStream s =
        ((s.closeAad.withKs x.ks).memWrite s.args.a2.toNat x.out).consume.complete
          (if x.exhausted then .counterExhausted else .ok) (BitVec.ofNat 32 x.out.length)) := by
  intro x
  have hx : s.closeAad.xorData s.srcBytes = x := State.xorData_congr rfl rfl rfl _
  unfold finalizeStream
  simp only [hx, State.srcBytes_length]
  by_cases h1 : s.args.a3.toNat < s.args.a1.toNat
  · exact .inl ⟨h1, by simp [State.cap, h1]⟩
  · exact .inr ⟨by omega, by simp only [State.cap, h1, if_false]; rfl⟩

/-- Which of the three a FINALIZE runs. -/
theorem finalizeBody_cases (s : State) :
    (s.status.family = .stream ∧ finalizeBody s = finalizeStream s) ∨
    (s.status.family ≠ .stream ∧ s.status.dir = .encrypt ∧ finalizeBody s = finalizeEncrypt s) ∨
    (s.status.family ≠ .stream ∧ s.status.dir = .decrypt ∧ finalizeBody s = finalizeDecrypt s) := by
  unfold finalizeBody
  by_cases h : s.status.family = .stream
  · exact .inl ⟨h, by simp [h]⟩
  · cases hd : s.status.dir
    · exact .inr (.inl ⟨h, rfl, by simp [h]⟩)
    · exact .inr (.inr ⟨h, rfl, by simp [h]⟩)

end Sys2Proof.Machine
end

