-- ==== Sys2Proof/Laws/Outcome.lean ====
section
/-! SUPPORT. Sys2Proof/Laws/Outcome.lean: one lemma that says what any command can do, for the proofs about all commands. -/

namespace Sys2Proof.Machine

/-- What a consumed session's state was before Consume: still the session's, with DMEM written (R270, R277). -/
structure State.Ending (s u : State) (b : List Byte) : Prop where
  status : u.status = s.status.dataOpen
  guardChacha : u.guardChacha = s.guardChacha
  guardGcm : u.guardGcm = s.guardGcm
  sameHost : s.sameHost u
  dmem : u.dmem = Memory.storeBytes s.dmem s.args.a2.toNat b

/-- The ways a command `i` at `s` can end in `t`. -/
inductive CommandOutcome (i : Instr) (s t : State) : Prop
  /-- A check failed (R323). -/
  | fail (code : ErrCode)
      (hc : code ≠ .ok ∧ code ≠ .authenticationFailed ∧ code ≠ .counterExhausted) (h : t = s.raise code)
  /-- INIT committed (R233). -/
  | init (dir : Dir) (fam : Family) (n : Nat) (m : Opmode) (f : FamilyField) (hi : i = .init m f n)
      (hd : dirOf m = some dir) (hf : familyOf f = some fam) (he : initErrors s fam dir n = none)
      (h : t = (initCommit s fam dir n).complete .ok 0#32)
  /-- UPDATE_AAD of no bytes (R243). -/
  | aadEmpty (hi : i = .updateAad) (he : aadErrors s = none) (h0 : s.args.a1.toNat = 0) (h : t = s.complete .ok 0#32)
  /-- UPDATE_AAD absorbed bytes (R240). -/
  | aad (hi : i = .updateAad) (he : aadErrors s = none) (h0 : s.args.a1.toNat ≠ 0)
      (h : t = ((s.absorbAad s.srcBytes).withStatus s.status.tookAad).complete .ok 0#32)
  /-- OUTPUT_SIZE (R245). -/
  | size (final : Bool) (hi : i = .outputSize final) (ha : s.status.active = true)
      (h : t = s.complete .ok (BitVec.ofNat 32 (min (outputSize s final s.args.a1.toNat) (2 ^ 32 - 1))))
  /-- ABORT (R250). -/
  | abort (hi : i = .abort) (h : t = (s.zeroise.withStatus s.status.aborted).complete .ok 0#32)
  /-- UPDATE completed OK and wrote `b` (R271 to R273). -/
  | update (hi : i = .update) (hL : s.dataLegal) (k : Keystream) (a : Auth) (p b : List Byte) (r : Word)
      (hb : b.length ≤ s.args.a3.toNat) (hr : b.length = r.toNat)
      (hdec : s.status.family ≠ .stream → s.status.dir = .decrypt → b = [] ∧ a = s.authClosed)
      (h : t =
        { s.closeAad with
          ks := k, auth := a, pbuf := p, dmem := Memory.storeBytes s.dmem s.args.a2.toNat b
          status := { s.status.dataOpen with err := .ok }, result := r })
  /-- FINALIZE, or an UPDATE that met exhaustion, wrote `b` and consumed the session (R271 to R277). -/
  | consume (hi : i = .finalize ∨ i = .update) (hL : s.dataLegal) (u : State) (code : ErrCode) (b : List Byte) (r : Word)
      (h : t = u.consume.complete code r)
      (hc : code = .ok ∧ i = .finalize ∨ code = .authenticationFailed ∧ i = .finalize ∨ code = .counterExhausted)
      (hu : s.Ending u b)
      (hb : b.length ≤ s.args.a3.toNat ∨ s.status.family ≠ .stream ∧ s.status.dir = .encrypt ∧ code = .ok)
      (hauth : code = .authenticationFailed → s.status.family ≠ .stream ∧ s.status.dir = .decrypt ∧ r = 0#32 ∧
        (b = [] ∨ b = zeros (s.pending.length - s.session.tagLen)))
      (hdec : s.status.family ≠ .stream → s.status.dir = .decrypt → code = .counterExhausted → b = [])
      (htag : s.status.family ≠ .stream → s.status.dir = .decrypt → code = .ok →
        s.session.tagLen ≤ s.pending.length ∧
        authTag s.status.family s.session.tagLen (s.authWith (s.pending.take (s.pending.length - s.session.tagLen))) =
          s.pending.drop (s.pending.length - s.session.tagLen))
      (hr : code ≠ .authenticationFailed → b.length = r.toNat ∨ s.status.family ≠ .stream ∧ code = .ok)

theorem State.xorData_out_le (s : State) (d : List Byte) : (s.xorData d).out.length ≤ d.length := (ksXor_out_length _ _ _).1

theorem State.xorData_out_eq (s : State) (d : List Byte) (h : (s.xorData d).exhausted = false) :
    (s.xorData d).out.length = d.length := (ksXor_out_length _ _ _).2 h

/-- A number within a register's value fits RESULT. -/
theorem toNat_ofNat_of_le {n : Nat} {w : Word} (h : n ≤ w.toNat) : (BitVec.ofNat 32 n).toNat = n := by
  have := w.isLt
  rw [BitVec.toNat_ofNat, Nat.mod_eq_of_lt (by omega)]

theorem execUpdate_outcome {s t : State} (h : exec .update s = .next t) : CommandOutcome .update s t := by
  rcases execUpdate_cases s with ⟨c, hc, e⟩ | ⟨hn, e⟩ <;> simp only [exec, e] at h <;> cases h
  · exact .fail c (by rcases dataErrors_code hc with rfl | rfl <;> simp) rfl
  have hL := (State.dataLegal_iff s).mpr hn
  rcases updateBody_cases s with ⟨hf, e⟩ | ⟨hf, hd, e⟩ | ⟨hf, hd, e⟩ <;> rw [e]
  · rcases updateStream_cases s with ⟨h1, e⟩ | ⟨h1, h2, e⟩ | ⟨h1, h2, e⟩ <;> rw [e]
    · exact .fail _ (by simp) rfl
    · have hl := s.xorData_out_le s.srcBytes
      rw [State.srcBytes_length] at hl
      exact .consume (.inr rfl) hL _ _ (s.xorData s.srcBytes).out _ rfl (.inr (.inr rfl))
        ⟨rfl, rfl, rfl, ⟨rfl, rfl, rfl, rfl, rfl⟩, rfl⟩ (.inl (by omega)) (by simp) (fun hh => absurd hf hh)
        (fun hh => absurd hf hh) (fun _ => .inl (toNat_ofNat_of_le (w := s.args.a3) (by omega)).symm)
    · have hl := s.xorData_out_eq s.srcBytes h2
      rw [State.srcBytes_length] at hl
      exact .update rfl hL _ _ _ (s.xorData s.srcBytes).out _ (by omega)
        (by rw [toNat_ofNat_of_le h1]; exact hl) (fun hh => absurd hf hh) rfl
  · have hk := wholeBlocks_le s.pending.length s.session.block
    unfold wholeBlocks at hk
    rcases updateEncrypt_cases s with ⟨h1, e⟩ | ⟨h1, h2, e⟩ | ⟨h1, h2, e⟩ <;> rw [e]
    · exact .fail _ (by simp) rfl
    · have hl := s.xorData_out_le (s.pending.take (s.pending.length / s.session.block * s.session.block))
      rw [List.length_take] at hl
      exact .consume (.inr rfl) hL _ _
        (s.xorData (s.pending.take (s.pending.length / s.session.block * s.session.block))).out _ rfl (.inr (.inr rfl))
        ⟨rfl, rfl, rfl, ⟨rfl, rfl, rfl, rfl, rfl⟩, rfl⟩ (.inl (by omega)) (by simp)
        (fun _ hh => by rw [hd] at hh; cases hh) (by simp)
        (fun _ => .inl (toNat_ofNat_of_le (w := s.args.a3) (by omega)).symm)
    · have hl := s.xorData_out_eq _ h2
      rw [List.length_take] at hl
      exact .update rfl hL _ _ _ (s.xorData (s.pending.take (s.pending.length / s.session.block * s.session.block))).out _
        (by omega) (by rw [toNat_ofNat_of_le h1]; omega) (fun _ hh => by rw [hd] at hh; cases hh) rfl
  · rcases updateDecrypt_cases s with ⟨h1, e⟩ | ⟨h1, e⟩ <;> rw [e]
    · exact .fail _ (by simp) rfl
    · exact .update rfl hL s.ks _ s.pending [] _ (by simp) (by simp) (fun _ _ => ⟨rfl, State.closedAuth_eq hf⟩) rfl

theorem execFinalize_outcome {s t : State} (h : exec .finalize s = .next t) : CommandOutcome .finalize s t := by
  rcases execFinalize_cases s with ⟨c, hc, e⟩ | ⟨hn, e⟩ <;> simp only [exec, e] at h <;> cases h
  · exact .fail c (by rcases dataErrors_code hc with rfl | rfl <;> simp) rfl
  have hL := (State.dataLegal_iff s).mpr hn
  rcases finalizeBody_cases s with ⟨hf, e⟩ | ⟨hf, hd, e⟩ | ⟨hf, hd, e⟩ <;> rw [e]
  · rcases finalizeStream_cases s with ⟨h1, e⟩ | ⟨h1, e⟩ <;> rw [e]
    · exact .fail _ (by simp) rfl
    · have hl := s.xorData_out_le s.srcBytes
      rw [State.srcBytes_length] at hl
      refine .consume (.inl rfl) hL _ _ (s.xorData s.srcBytes).out _ rfl ?_
        ⟨rfl, rfl, rfl, ⟨rfl, rfl, rfl, rfl, rfl⟩, rfl⟩ (.inl (by omega)) ?_ (fun hh => absurd hf hh)
        (fun hh => absurd hf hh) (fun _ => .inl (toNat_ofNat_of_le (w := s.args.a3) (by omega)).symm)
      · split <;> simp
      · split <;> simp
  · rcases finalizeEncrypt_cases hf with ⟨h1, e⟩ | ⟨h1, h2, e⟩ | ⟨h1, h2, e⟩ <;> rw [e]
    · exact .fail _ (by simp) rfl
    · have hl := s.xorData_out_le s.pending
      exact .consume (.inl rfl) hL _ _ (s.xorData s.pending).out _ rfl (.inr (.inr rfl))
        ⟨rfl, rfl, rfl, ⟨rfl, rfl, rfl, rfl, rfl⟩, rfl⟩ (.inl (by omega)) (by simp)
        (fun _ hh => by rw [hd] at hh; cases hh) (by simp)
        (fun _ => .inl (toNat_ofNat_of_le (w := s.args.a3) (by omega)).symm)
    · exact .consume (.inl rfl) hL _ _
        ((s.xorData s.pending).out ++ authTag s.status.family s.session.tagLen (s.authWith (s.xorData s.pending).out)) _ rfl
        (.inl ⟨rfl, rfl⟩) ⟨rfl, rfl, rfl, ⟨rfl, rfl, rfl, rfl, rfl⟩, rfl⟩ (.inr ⟨hf, hd, rfl⟩) (by simp) (by simp)
        (fun _ hh => by rw [hd] at hh; cases hh) (fun _ => .inr ⟨hf, rfl⟩)
  · rcases finalizeDecrypt_cases hf with ⟨h1, e⟩ | ⟨h1, h2, e⟩ | ⟨h1, h2, h3, e⟩ | ⟨h1, h2, h3, h4, e⟩ | ⟨h1, h2, h3, h4, e⟩ <;>
      rw [e]
    · exact .fail _ (by simp) rfl
    · exact .consume (.inl rfl) hL s.closeAad _ [] _ rfl (.inr (.inl ⟨rfl, rfl⟩))
        ⟨rfl, rfl, rfl, ⟨rfl, rfl, rfl, rfl, rfl⟩, rfl⟩ (.inl (by simp)) (fun _ => ⟨hf, hd, rfl, .inl rfl⟩) (by simp)
        (by simp) (by simp)
    · exact .consume (.inl rfl) hL (s.closeAad.withPbuf []) _ [] _ rfl (.inr (.inr rfl))
        ⟨rfl, rfl, rfl, ⟨rfl, rfl, rfl, rfl, rfl⟩, rfl⟩ (.inl (by simp)) (by simp) (fun _ _ _ => rfl) (by simp)
        (fun _ => .inl rfl)
    · split
      · exact .consume (.inl rfl) hL _ _ (zeros (s.pending.length - s.session.tagLen)) _ rfl (.inr (.inl ⟨rfl, rfl⟩))
          ⟨rfl, rfl, rfl, ⟨rfl, rfl, rfl, rfl, rfl⟩, rfl⟩ (.inl (by rw [zeros_length]; exact h1))
          (fun _ => ⟨hf, hd, rfl, .inr rfl⟩) (by simp) (by simp) (by simp)
      · exact .consume (.inl rfl) hL _ _ [] _ rfl (.inr (.inl ⟨rfl, rfl⟩))
          ⟨rfl, rfl, rfl, ⟨rfl, rfl, rfl, rfl, rfl⟩, rfl⟩ (.inl (by simp)) (fun _ => ⟨hf, hd, rfl, .inl rfl⟩) (by simp)
          (by simp) (by simp)
    · have hl := s.xorData_out_le (s.pending.take (s.pending.length - s.session.tagLen))
      rw [List.length_take] at hl
      exact .consume (.inl rfl) hL _ _ (s.xorData (s.pending.take (s.pending.length - s.session.tagLen))).out _ rfl
        (.inl ⟨rfl, rfl⟩) ⟨rfl, rfl, rfl, ⟨rfl, rfl, rfl, rfl, rfl⟩, rfl⟩ (.inl (by omega)) (by simp) (by simp)
        (fun _ _ _ => ⟨h2, h4⟩) (fun _ => .inr ⟨hf, rfl⟩)

/-- What any command can do. -/
theorem exec_outcome {i : Instr} {s t : State} (h : exec i s = .next t) : CommandOutcome i s t := by
  cases i with
  | init m f n =>
    simp only [exec, execInit] at h
    split at h
    · cases h
      exact .fail _ (by simp) rfl
    · cases h
      exact .fail _ (by simp) rfl
    · rename_i dir fam h1 h2
      split at h
      · rename_i c he
        cases h
        have hq := firstError_mem he
        simp at hq
        refine .fail c ⟨?_, ?_, ?_⟩ rfl <;> rintro rfl <;> simp at hq
      · rename_i he
        cases h
        exact .init dir fam n m f rfl h1 h2 he rfl
  | updateAad =>
    rcases execUpdateAad_cases s with ⟨c, hc, e⟩ | ⟨h1, h2, e⟩ | ⟨h1, h2, e⟩ <;> simp only [exec, e] at h <;> cases h
    · have hq := firstError_mem hc
      simp at hq
      refine .fail c ⟨?_, ?_, ?_⟩ rfl <;> rintro rfl <;> simp at hq
    · exact .aadEmpty rfl h1 h2 rfl
    · exact .aad rfl h1 h2 rfl
  | outputSize b =>
    rcases execOutputSize_cases b s with ⟨h1, e⟩ | ⟨h1, e⟩ <;> simp only [exec, e] at h <;> cases h
    · exact .fail _ (by simp) rfl
    · exact .size b rfl h1 rfl
  | abort =>
    simp only [exec, execAbort] at h
    cases h
    exact .abort rfl rfl
  | update => exact execUpdate_outcome h
  | finalize => exact execFinalize_outcome h

end Sys2Proof.Machine
end

