-- ==== Sys2Proof/Laws/PerInstr.lean ====
section
/-! SUPPORT. Sys2Proof/Laws/PerInstr.lean: statements about every command as syntax, one lemma per constructor. -/

/-- The word of a well-formed command carries its opcode and zero in every bit that the opcode's mask of R96 requires to be 0. -/
def Sys2Proof.Laws.EncodesUnderMask.Statement (i : Sys2Proof.Instr) : Prop :=
  i.wellFormed = true → Sys2Proof.encode i &&& i.mask = i.opc.setWidth 32

theorem Sys2Proof.Laws.EncodesUnderMask.init (m : Sys2Proof.Opmode) (f : Sys2Proof.FamilyField) (t : Nat) :
    Sys2Proof.Laws.EncodesUnderMask.Statement (.init m f t) := by
  intro h
  have ht : t < 32 := by simpa [Sys2Proof.Instr.wellFormed] using h
  interval_cases t <;> cases m <;> cases f <;> decide

theorem Sys2Proof.Laws.EncodesUnderMask.updateAad : Sys2Proof.Laws.EncodesUnderMask.Statement .updateAad :=
  fun _ => by decide

theorem Sys2Proof.Laws.EncodesUnderMask.update : Sys2Proof.Laws.EncodesUnderMask.Statement .update :=
  fun _ => by decide

theorem Sys2Proof.Laws.EncodesUnderMask.finalize : Sys2Proof.Laws.EncodesUnderMask.Statement .finalize :=
  fun _ => by decide

theorem Sys2Proof.Laws.EncodesUnderMask.outputSize (final : Bool) :
    Sys2Proof.Laws.EncodesUnderMask.Statement (.outputSize final) :=
  fun _ => by cases final <;> decide

theorem Sys2Proof.Laws.EncodesUnderMask.abort : Sys2Proof.Laws.EncodesUnderMask.Statement .abort :=
  fun _ => by decide
end

