-- ==== Sys2Proof/Laws/Session.lean ====
section
/-! SUPPORT. Sys2Proof/Laws/Session.lean: lemmas about a good session (Safety.lean): what the invariant depends on, what the shared
operations do to it, and the sizes that follow from it. -/

namespace Sys2Proof.Machine

/-! ## What the invariant depends on -/

/-- The session's rules do not look at ERR, RESULT, the ARG registers, DMEM or the model's own fields. -/
theorem State.SessionInv.congr {s t : State} (h : s.SessionInv) (hc : t.cfg = s.cfg) (h1 : t.status.phase = s.status.phase)
    (h2 : t.status.family = s.status.family) (h3 : t.status.dir = s.status.dir)
    (h4 : t.status.reinitRequired = s.status.reinitRequired) (h5 : t.status.aadClosed = s.status.aadClosed)
    (h6 : t.session = s.session) (h7 : t.guardChacha = s.guardChacha) (h8 : t.guardGcm = s.guardGcm) (h9 : t.ks = s.ks)
    (h10 : t.auth = s.auth) (h11 : t.pbuf = s.pbuf) : t.SessionInv := by
  obtain ⟨a1, a2, a3, a4, a5, a6, a7, a8, a9, a10, a11, a12, a13, a14, a15, a16, a17, a18⟩ := h
  constructor
  · rw [h2, h6]; exact a1
  · rw [hc, h2, h6]; exact a2
  · rw [h2, h6]; exact a3
  · rw [h2, h6]; exact a4
  · rw [h2, h6]; exact a5
  · rw [hc, h2, h9]; exact a6
  · rw [h9]; exact a7
  · rw [h9]; exact a8
  · rw [h9]; exact a9
  · simp only [State.ksBlock] at *; rw [h2, h6, h9]; exact a10
  · simp only [State.bufferRule] at *; rw [hc, h2, h3, h9, h10, h11]; exact a11
  · simp only [State.keysDerived] at *; rw [h2, h6, h9, h10]; exact a12
  · simp only [State.stageRule] at *; rw [h5, h10]; exact a13
  · rw [h10]; exact a14
  · rw [h2, h10]; exact a15
  · rw [h1, h10]; exact a16
  · rw [h4]; exact a17
  · rw [h2, h3, h6]
    intro hd
    rw [← a18 hd]
    simp only [State.guard]
    rw [h7, h8]

/-- The invariant looks at DMEM's form only, and not at ERR, RESULT, the ARG registers or the model's own fields. -/
theorem State.Inv.congr {s t : State} (h : s.Inv) (hc : t.cfg = s.cfg) (h1 : t.status.phase = s.status.phase)
    (h2 : t.status.family = s.status.family) (h3 : t.status.dir = s.status.dir)
    (h4 : t.status.reinitRequired = s.status.reinitRequired) (h5 : t.status.aadClosed = s.status.aadClosed)
    (h6 : t.session = s.session) (h7 : t.guardChacha = s.guardChacha) (h8 : t.guardGcm = s.guardGcm) (h9 : t.ks = s.ks)
    (h10 : t.auth = s.auth) (h11 : t.pbuf = s.pbuf) (hm : Memory.wf t.dmem) (hr : ∀ c ∈ t.dmem, c.1 < t.cfg.dmemSize) :
    t.Inv := by
  have ha : t.status.active = s.status.active := by simp [Status.active, h1]
  constructor
  · rw [hc]; exact h.cfg
  · exact hm
  · exact hr
  · rw [ha]
    intro x
    have := h.quiet x
    simp only [State.zeroised] at *
    rw [h6, h9, h10, h11]
    exact this
  · rw [h1, h2, h3]; exact h.idle
  · rw [h1, h5]; exact h.closed
  · rw [h1, h3, h4]; exact h.spent
  · rw [ha]; exact fun x => (h.session x).congr hc h1 h2 h3 h4 h5 h6 h7 h8 h9 h10 h11

/-- `complete` keeps a good state good (R9). -/
theorem State.Inv.complete {s : State} (h : s.Inv) (c : ErrCode) (r : Word) : (s.complete c r).Inv :=
  h.congr rfl rfl rfl rfl rfl rfl rfl rfl rfl rfl rfl rfl h.memWf h.memRange

/-- A write inside DMEM keeps a good state good. -/
theorem State.Inv.memWrite {s : State} (h : s.Inv) (a : Nat) (b : List Byte) (hl : a + b.length ≤ s.cfg.dmemSize) :
    (s.memWrite a b).Inv := by
  refine h.congr rfl rfl rfl rfl rfl rfl rfl rfl rfl rfl rfl rfl (Memory.storeBytes_wf _ _ h.memWf) (fun c hc => ?_)
  rcases Memory.mem_storeBytes hc with hx | hx
  · show c.1 < s.cfg.dmemSize
    omega
  · exact h.memRange c hx

/-- Consume leaves a good state, whatever session it ends (R277). -/
theorem State.Inv.of_consume {s : State} (hc : s.cfg.wf) (hm : Memory.wf s.dmem) (hr : ∀ c ∈ s.dmem, c.1 < s.cfg.dmemSize) :
    s.consume.Inv := by
  constructor
  · exact hc
  · exact hm
  · exact hr
  · exact fun _ => ⟨rfl, rfl, rfl, rfl⟩
  · intro h
    simp at h
  · simp
  · intro _ hd
    have hd' : s.status.dir = .encrypt := hd
    simp [hd']
  · intro h
    simp [Status.active_iff] at h

/-- The same session with another keystream, authenticator or pending buffer is good if its own rules hold. -/
theorem State.Inv.of_session {s t : State} (h : s.Inv) (ha : s.status.active = true) (hc : t.cfg = s.cfg)
    (hs : t.status = s.status) (hd : t.dmem = s.dmem) (hx : t.SessionInv) : t.Inv := by
  constructor
  · rw [hc]; exact h.cfg
  · rw [hd]; exact h.memWf
  · rw [hc, hd]; exact h.memRange
  · rw [hs, ha]
    intro x
    cases x
  · rw [hs]; exact h.idle
  · rw [hs]; exact h.closed
  · rw [hs]; exact h.spent
  · exact fun _ => hx

/-- The engine keeps the derived values. -/
theorem State.keysDerived_of_same {s t : State} (h2 : t.status.family = s.status.family) (h6 : t.session = s.session)
    (h9 : t.ks = s.ks) (hk : Auth.SameKeys s.status.family s.auth t.auth) (hs : s.status.family = .stream → t.auth = s.auth)
    (h : s.keysDerived) : t.keysDerived := by
  simp only [State.keysDerived] at *
  rw [h2, h6, h9]
  cases hf : s.status.family
  · rw [hf] at h hk
    simp only at h ⊢
    rw [hk.r, hk.s, hk.h, hk.ej0, hk.y (by simp)]
    exact h
  · rw [hf] at h hk
    simp only at h ⊢
    rw [hk.r, hk.s, hk.h, hk.ej0, hk.acc (by simp)]
    exact h
  · rw [hf] at h
    simp only at h ⊢
    rw [hs hf]
    exact h

/-- CloseAad keeps an active session good (R270). -/
theorem State.Inv.closeAad {s : State} (h : s.Inv) (ha : s.status.active = true) : s.closeAad.Inv := by
  have hk : Auth.SameKeys s.status.family s.auth s.closedAuth := by
    unfold State.closedAuth
    split
    · exact enginePad_same _ _
    · exact .refl _ _
  have hS := h.session ha
  refine ⟨h.cfg, h.memWf, h.memRange, fun x => ?_, fun x => ?_, by simp, fun x => ?_, fun _ => ?_⟩
  · simp [Status.active_eq_false_iff] at x
  · simp at x
  · simp at x
  refine { hS with keys := ?_, buffer := ?_, stage := ?_, acc := ?_, aadLen := ?_, initAad := fun x => by simp at x }
  · have hb := hS.buffer
    simp only [State.bufferRule] at hb ⊢
    simpa [hk.ctLen] using hb
  · exact State.keysDerived_of_same (s := s) rfl rfl rfl hk (fun hs => by simp [State.closedAuth, hs]) hS.keys
  · have hst := hS.stage
    simp only [State.stageRule, State.closeAad_auth, State.closeAad_status, hk.ctLen] at hst ⊢
    cases hcl : s.status.aadClosed
    · simp only [hcl] at hst
      by_cases hs : s.status.family = .stream
      · have hkeys := hS.keys
        simp only [State.keysDerived, hs] at hkeys
        simp [State.closedAuth, hs, hkeys.2.1, Auth.zero]
      · have h0 : s.auth.ctLen = 0 := by simpa using hst.2
        simp [State.closedAuth, hcl, hs, authCloseAad, h0]
    · simpa [State.closedAuth, hcl] using hst
  · simp only [State.closeAad_auth, State.closedAuth]
    split
    · exact enginePad_acc_lt hS.acc
    · exact hS.acc
  · simpa [hk.aadLen] using hS.aadLen

/-- UPDATE of a decrypting session keeps it good (R272). -/
theorem State.Inv.updateDecrypt {s : State} (h : s.Inv) (ha : s.status.active = true) (hf : s.status.family ≠ .stream)
    (hd : s.status.dir = .decrypt) : (Machine.updateDecrypt s).Inv := by
  rcases updateDecrypt_cases s with ⟨_, e⟩ | ⟨hc, e⟩ <;> rw [e]
  · exact h.complete _ _
  have h1 := h.closeAad ha
  have hS := h1.session (by simp [Status.active])
  refine State.Inv.complete (h1.of_session (t := s.closeAad.withPbuf s.pending) (by simp [Status.active]) rfl rfl rfl ?_) _ _
  obtain ⟨k1, k2, k3, k4, k5, k6, k7, k8, k9, k10, k11, k12, k13, k14, k15, k16, k17, k18⟩ := hS
  refine ⟨k1, k2, k3, k4, k5, k6, k7, k8, k9, k10, ?_, k12, k13, k14, k15, k16, k17, k18⟩
  have hb := k11
  simp only [State.bufferRule, State.withPbuf_status, State.closeAad_status, Status.dataOpen_family, Status.dataOpen_dir, hd]
    at hb ⊢
  revert hb hf
  cases s.status.family <;> simp <;> intro _ x y <;> exact ⟨by simpa using hc, x, y⟩

/-- The same, of the command (R270, R272). -/
theorem State.Inv.exec_update_decrypt {s t : State} (h : s.Inv) (hl : s.dataLegal) (hf : s.status.family ≠ .stream)
    (hd : s.status.dir = .decrypt) (he : exec .update s = .next t) : t.Inv := by
  rw [hl.update] at he
  injection he with he
  subst he
  rcases updateBody_cases s with ⟨hs, _⟩ | ⟨_, hs, _⟩ | ⟨_, _, e⟩
  · exact absurd hs hf
  · rw [hd] at hs
    cases hs
  · rw [e]
    exact h.updateDecrypt hl.active hf hd

/-! ## Sizes -/

theorem blockBytes_pos (f : Family) : 0 < blockBytes f := by cases f <;> simp [blockBytes]

/-- A session's blocks have the block size of its family (R6). -/
theorem State.SessionInv.ksBlock_length {s : State} (h : s.SessionInv) (c : Word) :
    (s.ksBlock c).length = blockBytes s.status.family := by
  unfold State.ksBlock Machine.ksBlock
  have h1 := h.keyLen
  have h2 := h.keys
  cases hf : s.status.family
  · simp [blockBytes]
  · rw [hf] at h1
    simp only [State.keysDerived, hf] at h2
    simp only [blockBytes]
    rw [h2.1]
    simp [keyLenOk] at h1
    exact aesEncrypt_length (by omega) _
  · simp [blockBytes]

/-- The session's block transform is the one written from the key alone. -/
theorem State.SessionInv.blockAt_eq {s : State} (h : s.SessionInv) : s.ksBlock = s.blockAt := by
  funext c
  unfold State.ksBlock Machine.ksBlock State.blockAt
  have hk := h.keys
  cases hf : s.status.family
  · rfl
  · simp only [State.keysDerived, hf] at hk
    simp only [hk.1, counterBlock, slice, aesEncrypt]
    rfl
  · rfl

/-- J0 of a GCM session has 16 bytes (R149). -/
theorem State.SessionInv.j0_length {s : State} (h : s.SessionInv) : s.ks.j0.length = 16 := by
  have hk := h.keys
  cases hf : s.status.family
  · simp only [State.keysDerived, hf] at hk
    rw [hk.2.2.2.2.2.2.1]
    rfl
  · simp only [State.keysDerived, hf] at hk
    rw [hk.2.2.1]
    unfold j0Of
    split
    · simp [*]
    · simp [ghashOneShot]
  · simp only [State.keysDerived, hf] at hk
    rw [hk.2.2]
    rfl

/-- The generator of a good session is good, from its initial counter on. -/
theorem State.SessionInv.ks_good {s : State} (h : s.SessionInv) : s.ks.Good s.ksBlock s.ksStart := by
  refine ⟨h.used, h.pos, h.bufFirst, h.bufLast, ?_⟩
  unfold State.ksStart
  bv_omega

/-- KsXor keeps the generator good. -/
theorem State.SessionInv.xorData_good {s : State} (h : s.SessionInv) {c0 : Word} (hg : s.ks.Good s.ksBlock c0) (d : List Byte) :
    (s.xorData d).ks.Good s.ksBlock c0 :=
  ksXor_good (fun c => by rw [h.ksBlock_length]; exact blockBytes_pos _) d hg

theorem State.SessionInv.buf_length {s : State} (h : s.SessionInv) :
    (s.ks.buf = [] ∧ s.ks.used = 0) ∨ s.ks.buf.length = blockBytes s.status.family := by
  by_cases hu : s.ks.used = 0
  · exact .inl ⟨h.bufFirst hu, hu⟩
  · refine .inr ?_
    rw [h.bufLast (by omega)]
    exact h.ksBlock_length _

/-- B of a CP or GCM session is its keystream block's size (R234). -/
theorem State.SessionInv.block_eq {s : State} (h : s.SessionInv) (hf : s.status.family ≠ .stream) :
    s.session.block = blockBytes s.status.family := by
  rw [h.block]
  revert hf
  cases s.status.family <;> simp [blockBytes, bufferBlockOf]

/-- An encrypting CP or GCM session is at a block boundary of its keystream (R214). -/
theorem State.SessionInv.enc_offset {s : State} (h : s.SessionInv) (hf : s.status.family ≠ .stream)
    (hd : s.status.dir = .encrypt) :
    s.ks.pos = s.ks.buf.length ∧ s.ksOffset = s.ks.used * blockBytes s.status.family ∧
    s.ksLeft = (s.ks.maxBlocks - s.ks.used) * blockBytes s.status.family := by
  have hb := h.buffer
  simp only [State.bufferRule, hd] at hb
  have hp : s.ks.pos = s.ks.buf.length := by
    revert hb hf
    cases s.status.family <;> simp
    · exact fun _ a _ => a
    · exact fun _ a _ => a
  have ho : s.ksOffset = s.ks.used * blockBytes s.status.family := by
    unfold State.ksOffset
    omega
  exact ⟨hp, ho, by rw [State.ksLeft, ho, Nat.sub_mul]⟩

/-- A decrypting CP or GCM session has used no keystream before FINALIZE (R216). -/
theorem State.SessionInv.dec_offset {s : State} (h : s.SessionInv) (hf : s.status.family ≠ .stream)
    (hd : s.status.dir = .decrypt) :
    s.ksOffset = 0 ∧ s.ks.used = 0 ∧ s.ksLeft = s.ks.maxBlocks * blockBytes s.status.family ∧ s.auth.ctLen = 0 := by
  have hb := h.buffer
  simp only [State.bufferRule, hd] at hb
  have hk : s.ks.used = 0 ∧ s.auth.ctLen = 0 := by
    revert hb hf
    cases s.status.family <;> simp
  have hp := h.pos
  have ho : s.ksOffset = 0 := by
    unfold State.ksOffset
    rw [h.bufFirst hk.1] at hp ⊢
    rw [hk.1]
    simp at hp ⊢
    omega
  exact ⟨ho, hk.1, by rw [State.ksLeft, ho]; rfl, hk.2⟩

/-- The tag has tag_len bytes (R188, R234). -/
theorem State.SessionInv.authTag_length {s : State} (h : s.SessionInv) (hf : s.status.family ≠ .stream) {a : Auth}
    (ha : a.ej0 = s.auth.ej0) : (authTag s.status.family s.session.tagLen a).length = s.session.tagLen := by
  have h3 := h.tagLen
  have h4 := h.keys
  have h5 := h.keyLen
  cases hx : s.status.family
  · simp [hx] at h3
    simp [authTag, h3]
  · simp only [State.keysDerived, hx] at h4
    simp only [keyLenOk, hx] at h5
    have he : a.ej0.length = 16 := by
      rw [ha, h4.2.2.2.1]
      exact aesEncrypt_length (by simpa [or_assoc] using h5) _
    have hp : (enginePad .gcm a).ej0 = a.ej0 := (enginePad_same .gcm a).ej0
    simp [hx] at h3
    simp only [authTag, gcmTag, slice_length, xorBytes_length, encBe_length, absorb, hp, he]
    omega
  · exact absurd hx hf

theorem State.authWith_ej0 (s : State) (c : List Byte) : (s.authWith c).ej0 = s.auth.ej0 :=
  (engineUpdate_same s.status.family s.authClosed c).ej0.trans s.authClosed_same.ej0

/-- Two ranges that are not empty overlap exactly when they share a byte (R76, R275). -/
theorem overlaps_iff {a n d l : Nat} (hn : 0 < n) (hl : 0 < l) :
    overlaps a n d l = true ↔ ∃ x, a ≤ x ∧ x < a + n ∧ d ≤ x ∧ x < d + l := by
  unfold overlaps overlapKind
  constructor
  · intro h
    have : ¬ (n = 0 ∨ l = 0 ∨ a + n ≤ d ∨ d + l ≤ a) := by
      intro hx
      rw [if_pos hx] at h
      simp at h
    exact ⟨max a d, by omega, by omega, by omega, by omega⟩
  · rintro ⟨x, h1, h2, h3, h4⟩
    rw [if_neg (by omega)]
    split <;> rfl

end Sys2Proof.Machine
end

