-- ==== Sys2Proof/Tests/Slice0.lean ====
section
/-! SUPPORT. Sys2Proof/Tests/Slice0.lean: tests with expected values from the spec's rules and from 95_test_vectors.md, and for every
statement with hypotheses a witness that meets them. -/

section

set_option Elab.async false

namespace Sys2Proof.Tests

open Sys2Proof.Machine

/-! ## WellFormed and Decode (R90 to R106) -/

/-- The one check of WellFormed: TAGLEN fits its five bits (R94). -/
theorem test_wellFormed_refuses_taglen_32 : (Instr.init .encrypt .gcm 32).wellFormed = false := by decide

/-- 0000 0000 000 11111 0000 10 01 00000001: TAGLEN 31, FAMILY 2, OPMODE 1, OPC 0x01 (R90 to R94). -/
theorem test_decode_init :
    decode 0b00000000000111110000100100000001#32 = .ok (.init .decrypt .stream 31) := by decide

/-- OPMODE and FAMILY at their greatest values, TAGLEN 16 (R92, R93, R100). -/
theorem test_decode_init_fields :
    decode 0b00000000000100000000111100000001#32 = .ok (.init .unwrap .fam3 16) ∧
    decode 0b00000000000011000000011000000001#32 = .ok (.init .wrap .gcm 12) ∧
    decode 0b00000000000000000000000000000001#32 = .ok (.init .encrypt .cp 0) := by decide

theorem test_decode_updateAad : decode 0b00000000000000000000000000000010#32 = .ok .updateAad := by decide

theorem test_decode_update : decode 0b00000000000000000000000000000011#32 = .ok .update := by decide

theorem test_decode_finalize : decode 0b00000000000000000000000000000100#32 = .ok .finalize := by decide

/-- FINAL is bit 24 (R95). -/
theorem test_decode_outputSize :
    decode 0b00000000000000000000000000000101#32 = .ok (.outputSize false) ∧
    decode 0b00000001000000000000000000000101#32 = .ok (.outputSize true) := by decide

theorem test_decode_abort : decode 0b00000000000000000000000000000110#32 = .ok .abort := by decide

/-- The words of vectors 5.2 that are ILLEGAL: wrong opcodes, and a bit set that R96 requires to be 0. -/
theorem test_decode_illegal :
    ∀ w ∈ [0x01000001#32, 0x00000000#32, 0x00000007#32, 0x00001001#32, 0x00000104#32, 0x02000005#32, 0x00000106#32],
      ∃ e, decode w = .error e := by
  intro w hw
  simp only [List.mem_cons, List.not_mem_nil, or_false] at hw
  rcases hw with rfl | rfl | rfl | rfl | rfl | rfl | rfl <;> exact ⟨_, rfl⟩

/-! ## The units -/

/-- V-BT-1. -/
theorem test_quarter_round :
    quarterWords 0x11111111#32 0x01020304#32 0x9b8d6f43#32 0x01234567#32 =
      (0xea2a92f4#32, 0xcb1cf8ce#32, 0x4581472e#32, 0x5881c4bb#32) := by decide

/-- V-BT-2. -/
theorem test_chacha_block :
    chacha20Block (encBe 0x000102030405060708090a0b0c0d0e0f101112131415161718191a1b1c1d1e1f 32) 1#32
        (encBe 0x000000090000004a00000000 12) =
      encBe 0x10f1e7e4d13b5915500fdd1fa32071c4c7d1f4c733c068030422aa9ac3d46c4ed2826446079faa0914c2d705d98b02a2b5129cd1de164eb9cbd083e8a2503c4e
        64 := by decide +kernel

/-- V-BT-4. -/
theorem test_key_expansion :
    slice (keyExpansion (encBe 0x2b7e151628aed2a6abf7158809cf4f3c 16)).flatten 16 32 =
      encBe 0xa0fafe1788542cb123a339392a6c7605 16 ∧
    slice (keyExpansion (encBe 0x2b7e151628aed2a6abf7158809cf4f3c 16)).flatten 160 176 =
      encBe 0xd014f9a8c9ee2589e13f0cc8b6630ca6 16 := by decide +kernel

/-- V-BT-5, the three key sizes. -/
theorem test_aes :
    aesEncrypt (encBe 0x000102030405060708090a0b0c0d0e0f 16) (encBe 0x00112233445566778899aabbccddeeff 16) =
      encBe 0x69c4e0d86a7b0430d8cdb78070b4c55a 16 ∧
    aesEncrypt (encBe 0x000102030405060708090a0b0c0d0e0f1011121314151617 24)
        (encBe 0x00112233445566778899aabbccddeeff 16) = encBe 0xdda97ca4864cdfe06eaf70a0ec0d7191 16 ∧
    aesEncrypt (encBe 0x000102030405060708090a0b0c0d0e0f101112131415161718191a1b1c1d1e1f 32)
        (encBe 0x00112233445566778899aabbccddeeff 16) = encBe 0x8ea2b7ca516745bfeafc49904b496089 16 := by
  decide +kernel

/-- V-GH-1. -/
theorem test_ghash_step :
    ghAbsorb 0x66e94bd4ef8a2c3b884cfa59ca342b2e#128 0#128 (encBe 0x0388dace60b6a392f328c2b971b2fe78 16) =
      0x5e2ec746917062882c85b0685353deb7#128 := by decide +kernel

/-- V-KS-3: J0 of an IV that is not 12 bytes long. -/
theorem test_j0_of_8_byte_iv :
    j0Of 0xb83b533708bf535d0aa6e52980d53b78#128 (encBe 0xcafebabefacedbad 8) =
      encBe 0xc43a83c4c4badec4354ca984db252f7d 16 := by decide +kernel

/-- V-POLY-1: clamped r, s, and the tag of a message whose last block is short. -/
theorem test_poly1305 :
    let otk := encBe 0x85d6be7857556d337f4452fe42d506a80103808afb0db2fd4abff6af4149f51b 32
    let msg := encBe 0x43727970746f6772617068696320466f72756d2052657365617263682047726f7570 34
    polyR otk = 0x0806d5400e52447c036d555408bed685#128 ∧ polyS otk = 0x1bf54941aff6bf4afdb20dfb8a800301#128 ∧
    polyFinal (engineUpdate .cp { Auth.zero with r := polyR otk, s := polyS otk } msg) =
      encBe 0xa8061dc1305136c6c22b8baf0c0127a9 16 := by decide +kernel

/-- V-POLY-2. -/
theorem test_one_time_key :
    oneTimeKey (encBe 0x808182838485868788898a8b8c8d8e8f909192939495969798999a9b9c9d9e9f 32)
        (encBe 0x000000000001020304050607 12) =
      encBe 0x8ad5a08b905f81cc815040274ab29471a833b637e3fd0da508dbb8e2fdd1a646 32 := by decide +kernel

/-! ## Machines to test on -/

/-- A machine with byte strings written to DMEM. -/
def written (s : State) (l : List (Nat × List Byte)) : State := l.foldl (fun s p => s.memWrite p.1 p.2) s

/-- What a command leaves. -/
def after (i : Instr) (s : State) : State :=
  match exec i s with
  | .next t => t
  | .fault _ => s
  | .refused _ => s

/-- What a step leaves, or the state itself. -/
def stepped (s : State) : State :=
  match step s with
  | .next t => t
  | .fault _ => s
  | .refused _ => s

theorem exec_after (i : Instr) (s : State) : exec i s = .next (after i s) := by
  have h : ∃ t, exec i s = .next t := by
    cases i with
    | init m f n =>
      rcases execInit_cases m f n s with ⟨_, e⟩ | ⟨_, _, _, _, _, e⟩
      · exact ⟨_, e⟩
      · exact ⟨_, e⟩
    | updateAad => rcases execUpdateAad_cases s with ⟨_, _, e⟩ | ⟨_, _, e⟩ | ⟨_, _, e⟩ <;> exact ⟨_, e⟩
    | update => rcases execUpdate_cases s with ⟨_, _, e⟩ | ⟨_, e⟩ <;> exact ⟨_, e⟩
    | finalize => rcases execFinalize_cases s with ⟨_, _, e⟩ | ⟨_, e⟩ <;> exact ⟨_, e⟩
    | outputSize b => rcases execOutputSize_cases b s with ⟨_, e⟩ | ⟨_, e⟩ <;> exact ⟨_, e⟩
    | abort => exact ⟨_, rfl⟩
  obtain ⟨t, h⟩ := h
  simp [after, h]

/-- A parameter set with EXHAUST_SHIFT 2, as in section 6 of the vectors: 256 bytes of keystream for CP and STREAM, 32 for GCM. -/
def short : Config := { Config.vectors with exhaustShift := 2, pbufCap := 64 }

/-- A machine with ARG0 to ARG4 written. -/
def withArgs (s : State) (a0 a1 a2 a3 a4 : Word) : State := { s with args := ⟨a0, a1, a2, a3, a4⟩ }

/-- A fresh session, as INIT with TAGLEN 0 leaves it (R233, R234), with byte strings written to DMEM. -/
def fresh (c : Config) (fam : Family) (dir : Dir) (key nonce : List Byte) (args : Args) : State :=
  { State.resetWith c 0 [] with
    status := { Status.reset with phase := .init, family := fam, dir := dir }
    args := args
    session := initSession fam key nonce 0
    guardChacha := some (key, nonce)
    guardGcm := some (key, nonce)
    ks := initKeystream c fam key nonce args.a4
    auth := initAuth fam key nonce }

theorem fresh_inv (c : Config) (fam : Family) (dir : Dir) (key nonce : List Byte) (args : Args) (hc : c.wf)
    (hk : keyLenOk fam key.length = true) (hn : nonceLenOk c fam nonce.length = true) :
    (fresh c fam dir key nonce args).Inv := by
  refine ⟨hc, List.Pairwise.nil, ?_, ?_, ?_, ?_, ?_, fun _ => ?_⟩
  · intro x hx
    simp [fresh, State.resetWith] at hx
  · intro h
    simp [fresh, Status.active] at h
  · intro h
    simp [fresh] at h
  · simp [fresh, Status.reset]
  · intro h
    simp [fresh] at h
  · constructor
    · exact hk
    · exact hn
    · cases fam <;> simp [fresh, initSession, tagLenOf]
    · intro h
      have h' : fam = .stream := h
      subst h'
      rfl
    · rfl
    · cases fam <;> rfl
    · cases fam <;> simp [fresh, initKeystream, Keystream.zero]
    · cases fam <;> simp [fresh, initKeystream, Keystream.zero]
    · cases fam <;> simp [fresh, initKeystream, Keystream.zero]
    · cases fam <;> simp [fresh, initKeystream, Keystream.zero]
    · cases fam <;> cases dir <;>
        simp [State.bufferRule, fresh, initKeystream, initAuth, Keystream.zero, Auth.zero, blockBytes, State.resetWith]
    · cases fam <;> simp [State.keysDerived, fresh, initKeystream, initAuth, initSession, Keystream.zero, Auth.zero]
    · cases fam <;> simp [State.stageRule, fresh, initAuth, Auth.zero, Status.reset]
    · cases fam <;> simp [fresh, initAuth, Auth.zero, polyP]
    · cases fam <;> simp [fresh, initAuth, Auth.zero]
    · cases fam <;> simp [fresh, initAuth, Auth.zero]
    · rfl
    · cases fam <;> simp [fresh, initSession, State.guard]

theorem written_inv {s : State} (l : List (Nat × List Byte)) (h : s.Inv) (hl : ∀ p ∈ l, p.1 + p.2.length ≤ s.cfg.dmemSize) :
    (written s l).Inv := by
  induction l generalizing s with
  | nil => exact h
  | cons p l ih => exact ih (h.memWrite _ _ (hl p (by simp))) (fun q hq => hl q (by simp [hq]))

/-- The key and nonce of V-GCM-1, with the AES-128 key for GCM and the 32-byte one for ChaCha20. -/
def zeroKey (fam : Family) : List Byte := zeros (match fam with | .gcm => 16 | .cp => 32 | .stream => 32)

/-- A fresh session under the zero key and nonce. -/
def session (c : Config) (fam : Family) (dir : Dir) (a0 a1 a2 a3 : Word) (l : List (Nat × List Byte)) : State :=
  written (fresh c fam dir (zeroKey fam) (zeros 12) ⟨a0, a1, a2, a3, 1#32⟩) l

theorem session_inv (c : Config) (fam : Family) (dir : Dir) (a0 a1 a2 a3 : Word) (l : List (Nat × List Byte)) (hc : c.wf)
    (hl : ∀ p ∈ l, p.1 + p.2.length ≤ c.dmemSize) : (session c fam dir a0 a1 a2 a3 l).Inv := by
  refine written_inv l (fresh_inv c fam dir _ _ _ hc (by cases fam <;> decide) ?_) hl
  have : 12 ≤ c.nonceMax := hc.2.2.2.1
  cases fam <;> simp [nonceLenOk, this]

/-- The ciphertext and tag of V-GCM-1 (zero key, zero nonce, 16 zero bytes). -/
def gcm1 : List Byte := encBe 0x0388dace60b6a392f328c2b971b2fe78ab6e47d42cec13bdf53a67b21257bddf 32

/-! ## One command each -/

/-- The fresh core of section 5 of the vectors: the key 00 01 ... 1f at 0, the nonce 00 x 12 at 0x20. -/
def core5 (c : Config) : State :=
  written (State.resetWith c 0 [])
    [(0, encBe 0x000102030405060708090a0b0c0d0e0f101112131415161718191a1b1c1d1e1f 32), (0x20, zeros 128), (4080, zeros 16)]

/-- V-GCM-1's INIT: STATUS 0x110, H, E(K, J0), J0 and the first data counter 2 (V-L1-2, R236). -/
theorem test_init_gcm :
    let t := after (.init .encrypt .gcm 0) (withArgs (written State.reset [(0, zeros 16), (0x20, zeros 12)]) 0#32 16#32 0x20#32 12#32 0#32)
    t.status.word = 0x00000110#32 ∧ t.result = 0#32 ∧ t.auth.h = 0x66e94bd4ef8a2c3b884cfa59ca342b2e#128 ∧
    t.auth.ej0 = encBe 0x58e2fccefa7e3061367f1d57a4e7455a 16 ∧ t.ks.j0 = zeros 12 ++ [0#8, 0#8, 0#8, 1#8] ∧
    t.ks.ctr = 2#32 ∧ t.guardGcm = some (zeros 16, zeros 12) ∧ t.guardChacha = none := by decide +kernel

/-- Vectors 5.1: INIT's checks, each at its boundary, with the STATUS word each row gives. -/
theorem test_init_checks :
    (∀ v ∈ [(Instr.init .encrypt .cp 0, 0#32, 16#32, 0x20#32, 12#32, 0x00000001#32),
        (.init .encrypt .gcm 0, 0#32, 20#32, 0x20#32, 12#32, 0x00000001#32),
        (.init .encrypt .cp 0, 0#32, 32#32, 0x20#32, 8#32, 0x00000002#32),
        (.init .encrypt .gcm 0, 0#32, 16#32, 0x20#32, 0#32, 0x00000002#32),
        (.init .encrypt .gcm 0, 0#32, 16#32, 0x20#32, 129#32, 0x00000002#32),
        (.init .encrypt .cp 12, 0#32, 32#32, 0x20#32, 12#32, 0x00000002#32),
        (.init .encrypt .gcm 11, 0#32, 16#32, 0x20#32, 12#32, 0x00000002#32),
        (.init .encrypt .gcm 17, 0#32, 16#32, 0x20#32, 12#32, 0x00000002#32),
        (.init .encrypt .stream 16, 0#32, 32#32, 0x20#32, 12#32, 0x00000002#32),
        (.init .wrap .cp 0, 0#32, 7#32, 0x20#32, 12#32, 0x00000002#32),
        (.init .unwrap .gcm 0, 0#32, 16#32, 0x20#32, 12#32, 0x00000002#32),
        (.init .encrypt .fam3 0, 0#32, 32#32, 0x20#32, 12#32, 0x00000002#32),
        (.init .encrypt .cp 0, 4080#32, 32#32, 0x20#32, 12#32, 0x00000009#32),
        (.init .encrypt .cp 0, 0xFFFFFFF0#32, 32#32, 0x20#32, 12#32, 0x00000009#32)],
      (after v.1 (withArgs (core5 Config.vectors) v.2.1 v.2.2.1 v.2.2.2.1 v.2.2.2.2.1 0#32)).status.word = v.2.2.2.2.2) ∧
    (∀ v ∈ [(Instr.init .encrypt .gcm 0, 0#32, 16#32, 0x20#32, 128#32, 0x00000110#32),
        (.init .encrypt .gcm 13, 0#32, 24#32, 0x20#32, 1#32, 0x00000110#32),
        (.init .encrypt .cp 16, 0#32, 32#32, 0x20#32, 12#32, 0x00000010#32),
        (.init .encrypt .cp 0, 0#32, 32#32, 4084#32, 12#32, 0x00000010#32)],
      (after v.1 (withArgs (core5 Config.vectors) v.2.1 v.2.2.1 v.2.2.2.1 v.2.2.2.2.1 0#32)).status.word = v.2.2.2.2.2) := by
  decide +kernel

/-- UPDATE_AAD stages bytes, counts them and moves STATE to ACCEPTING_AAD (R240, R242); STREAM refuses it even for no bytes (5.2). -/
theorem test_updateAad :
    let t := after .updateAad (session Config.vectors .cp .encrypt 0x45#32 7#32 0#32 0#32 [(0x45, encBe 0xc1c2c3c4c5c6c7 7)])
    t.status.word = 0x00000020#32 ∧ t.auth.stage = encBe 0xc1c2c3c4c5c6c7 7 ∧ t.auth.aadLen = 7 ∧
    (after .updateAad (session Config.vectors .stream .encrypt 0x100#32 0#32 0#32 0#32 [])).status.word = 0x00000216#32 := by
  decide +kernel

/-- V-GCM-1's plaintext through UPDATE, source and destination the same (R271): the ciphertext, STATUS 0x1130, RESULT 16. -/
theorem test_update_encrypt :
    let t := after .update (session Config.vectors .gcm .encrypt 0x100#32 16#32 0x100#32 16#32 [(0x100, zeros 16)])
    t.status.word = 0x00001130#32 ∧ t.result = 16#32 ∧ t.memRead 0x100 16 = gcm1.take 16 ∧ t.pbuf = [] := by
  decide +kernel

/-- Vectors 5.3 and 5.4: UPDATE keeps what fills no block; a decrypting one buffers up to PBUF_CAP and no further. A STREAM one
crosses into a second block: V-BT-3's blocks 1 and 2 over zero bytes (R273). -/
theorem test_update_buffers :
    (let t := after .update (session Config.vectors .gcm .encrypt 0x100#32 20#32 0x200#32 16#32 [(0x100, zeros 20)])
     t.status.word = 0x00001130#32 ∧ t.result = 16#32 ∧ t.pbuf = zeros 4) ∧
    (after .update (session short .cp .decrypt 0x100#32 64#32 0#32 0#32 [(0x100, zeros 65)])).status.word = 0x00001430#32 ∧
    (after .update (session short .cp .decrypt 0x100#32 65#32 0#32 0#32 [(0x100, zeros 65)])).status.word = 0x00000417#32 ∧
    (let t := after .update (session Config.vectors .stream .encrypt 0x100#32 68#32 0x200#32 68#32 [(0x100, zeros 68)])
     t.status.word = 0x00001230#32 ∧ t.result = 68#32 ∧ t.memRead 0x200 8 = encBe 0x9f07e7be5551387a 8 ∧
     t.memRead 0x240 4 = encBe 0x2d09a0e6 4 ∧ t.ks.pos = 4) := by
  decide +kernel

/-- V-GCM-1 through FINALIZE: ciphertext and tag, STATUS 0x940, RESULT 32 (program P1). Vectors 6.3: at its limit of 256 bytes a
STREAM one of 257 writes 256, COUNTER_EXHAUSTED, STATUS 0xA45. -/
theorem test_finalize_encrypt :
    (let t := after .finalize (session Config.vectors .gcm .encrypt 0x100#32 16#32 0x200#32 32#32 [(0x100, zeros 16)])
     t.status.word = 0x00000940#32 ∧ t.result = 32#32 ∧ t.memRead 0x200 32 = gcm1) ∧
    (let t := after .finalize (session short .stream .encrypt 0x100#32 257#32 0x600#32 257#32
       [(0x100, zeros 257), (0x700, [0xee#8])])
     t.status.word = 0x00000A45#32 ∧ t.result = 256#32 ∧ t.memRead 0x700 1 = [0xee#8]) := by decide +kernel

/-- Programs P1 and P4: the good tag in place gives the plaintext; a wrong tag in place zeroes its place. -/
theorem test_finalize_decrypt :
    (let t := after .finalize (session Config.vectors .gcm .decrypt 0x200#32 32#32 0x200#32 32#32 [(0x200, gcm1)])
     t.status.word = 0x00000540#32 ∧ t.result = 16#32 ∧ t.memRead 0x200 32 = zeros 16 ++ gcm1.drop 16) ∧
    (let t := after .finalize (session Config.vectors .gcm .decrypt 0x200#32 32#32 0x200#32 32#32
       [(0x200, gcm1), (0x21f, [0xde#8])])
     t.status.word = 0x00000544#32 ∧ t.result = 0#32 ∧
     t.memRead 0x200 32 = zeros 16 ++ encBe 0xab6e47d42cec13bdf53a67b21257bdde 16) := by decide +kernel

/-- Vectors 5.5: OUTPUT_SIZE of an encrypting CP session with 36 bytes pending, and saturated. -/
theorem test_outputSize :
    let s := (session Config.vectors .cp .encrypt 0#32 30#32 0#32 0#32 []).withPbuf (zeros 36)
    let big := (session Config.vectors .cp .encrypt 0#32 0xFFFFFFFF#32 0#32 0#32 []).withPbuf (zeros 36)
    (after (.outputSize false) s).result = 64#32 ∧ (after (.outputSize true) s).result = 82#32 ∧
    (after (.outputSize false) big).result = 4294967295#32 ∧ (after (.outputSize true) big).result = 4294967295#32 := by
  decide +kernel

/-- Vectors 5.5: OUTPUT_SIZE of a decrypting GCM session with 5 bytes pending and tag length 13; and of an IDLE core (5.2). -/
theorem test_outputSize_decrypt :
    let s := (fresh Config.vectors .gcm .decrypt (zeros 16) (zeros 12) ⟨0#32, 30#32, 0#32, 0#32, 0#32⟩).withPbuf (zeros 5)
    let s13 := s.withSession { s.session with tagLen := 13 } s.ks s.auth
    (after (.outputSize true) s13).result = 22#32 ∧ (after (.outputSize false) s13).result = 0#32 ∧
    (after (.outputSize true) (withArgs s13 0#32 7#32 0#32 0#32 0#32)).result = 0#32 ∧
    (after (.outputSize false) State.reset).status.word = 0x00000006#32 := by decide +kernel

/-- ABORT: STATUS 0, the session gone, the guard slot and REINIT_REQUIRED kept (R250). -/
theorem test_abort :
    let s := session Config.vectors .gcm .decrypt 0#32 0#32 0#32 0#32 []
    let t := after .abort s
    t.status.word = 0#32 ∧ t.session.key = [] ∧ t.auth.h = 0#128 ∧ t.guardGcm = some (zeros 16, zeros 12) ∧
    (after .abort (s.withStatus { s.status with reinitRequired := true })).status.word = 0x00000800#32 := by decide +kernel

/-! ## Witnesses: for each statement with hypotheses, a state and operands that meet them -/

/-! ### Encoding -/

theorem witness_DecodeOfEncodeIsTheCommand : (Instr.init .unwrap .fam3 31).wellFormed = true := by decide

theorem witness_EncodeOfDecodeIsTheWord : decode 0x001F0F01#32 = .ok (.init .unwrap .fam3 31) := by decide

/-! ### The bus and the registers -/

theorem witness_StepRunsTheWrittenCommand :
    decode 0x00000006#32 = .ok .abort ∧ decodeTableWord 32 0x01000005 = some (.outputSize true) := by decide

theorem witness_IllegalWordCompletesIllegalCommand :
    decode 0x00000007#32 = .error (.opcode 0x07#8) ∧ decode 0x00000104#32 = .error (.reservedBits 0x04#8) := by decide

theorem witness_IdleBusChangesNothing : State.reset.bus = [] := rfl

theorem witness_RegisterBlockMap :
    (0x3C, 0#32) ∈ [(0x20, State.reset.args.a4), (0x3C, 0#32)] ∧
    ∃ t, step { State.reset with bus := [.reset, .access (regRead Config.vectors 0x3C)] } = .next t := ⟨by decide, _, rfl⟩

theorem witness_StatusWordAndWriters :
    (∃ t, step { State.reset with bus := [.reset] } = .next t) ∧
    (∃ t, busAccess State.reset (regRead Config.vectors 0x00) = .next t ∧
      ¬ ((regRead Config.vectors 0x00).addr = 0 ∧ ∃ w, (regRead Config.vectors 0x00).op = .write w)) ∧
    (∃ t, busAccess State.reset (regWrite Config.vectors 0x04 0xFFFFFFFF#32) = .next t ∧
      ¬ ((regWrite Config.vectors 0x04 0xFFFFFFFF#32).addr = 0 ∧
        ∃ w, (regWrite Config.vectors 0x04 0xFFFFFFFF#32).op = .write w)) :=
  ⟨⟨_, rfl⟩, ⟨_, rfl, fun ⟨_, _, h⟩ => by cases h⟩, ⟨_, rfl, fun ⟨h, _⟩ => by cases h⟩⟩

theorem witness_ArgRegistersHoldWhatTheHostWrote :
    0x10 ∈ [0x10, 0x14, 0x18, 0x1C, 0x20] ∧ 0x20 ∈ [0x10, 0x14, 0x18, 0x1C, 0x20] ∧
    exec .update State.reset = .next (after .update State.reset) := ⟨by decide, by decide, exec_after _ _⟩

/-- The last byte, the last word, and each form of bus error: misaligned, past the end, across the end, of odd width. -/
theorem witness_DmemHostAccess :
    Config.vectors.wf ∧ 4095 < Config.vectors.dmemSize ∧ (4092 % 4 = 0 ∧ 4092 + 3 < Config.vectors.dmemSize) ∧
    (∀ a ∈ [1, 4095, 4096], ¬ (Config.vectors.regBase ≤ Config.vectors.dmemBase + a ∧
      Config.vectors.dmemBase + a < Config.vectors.regBase + 64)) ∧
    1 % 4 ≠ 0 ∧ Config.vectors.dmemSize ≤ 4096 ∧
    (let c := { Config.vectors with dmemSize := 4098 }
     c.wf ∧ 4096 % 4 = 0 ∧ 4096 < c.dmemSize ∧ c.dmemSize ≤ 4096 + 3) := by decide

theorem witness_RegisterAccessForms : 0 < 64 ∧ 63 < 64 := by decide

theorem witness_AccessesChangeOnlyTheirLocation :
    (∃ t, busAccess State.reset (regRead Config.vectors 0x3C) = .next t) ∧
    (∃ t, busAccess State.reset (regWrite Config.vectors 0x3C 5#32) = .next t ∧ 0 < 0x3C ∧ 0x3C < 0 + 64) ∧
    (∃ t, busAccess State.reset (byteWrite Config.vectors 4095 5#8) = .next t ∧ ¬ (0 ≤ 65536 + 4095 ∧ 65536 + 4095 < 0 + 64)) :=
  ⟨⟨_, rfl⟩, ⟨_, rfl, by decide, by decide⟩, ⟨_, rfl, by decide⟩⟩

/-- Two machines in sessions under different keys that agree on everything the host can read. -/
theorem witness_HostReadsSeeOnlyVisibleState :
    let s := fresh Config.vectors .gcm .decrypt (zeros 16) (zeros 12) Args.reset
    let t := fresh Config.vectors .gcm .decrypt (zeros 15 ++ [1#8]) (zeros 12) Args.reset
    t.session.key ≠ s.session.key ∧ t.cfg = s.cfg ∧ t.status = s.status ∧ t.result = s.result ∧ t.args = s.args ∧
    (∀ x, t.readByte x = s.readByte x) ∧ (regRead Config.vectors 0x04).op = .read ∧
    (∃ s', busAccess s (regRead Config.vectors 0x04) = .next s') ∧ (∃ t', busAccess t (regRead Config.vectors 0x04) = .next t') :=
  ⟨by decide, rfl, rfl, rfl, rfl, fun _ => rfl, rfl, ⟨_, rfl⟩, ⟨_, rfl⟩⟩

theorem witness_ResetSetsEveryRegister : ∃ s : State, s = State.reset := ⟨_, rfl⟩

theorem witness_ResetDrawsDmemAfresh : ∃ t, step { State.reset with bus := [.reset] } = .next t := ⟨_, rfl⟩

theorem witness_DoSetsArgsAndRunsTheCommand :
    State.reset.bus = [] ∧ (Instr.init .encrypt .gcm 16).wellFormed = true ∧
    [1#32, 2#32, 3#32, 4#32, 5#32].length ≤ 5 := by decide

/-! ### All commands -/

/-- A decrypting GCM session whose 10 bytes of input hold no tag (vectors 5.4). -/
def tooShort : State := session Config.vectors .gcm .decrypt 0x100#32 10#32 0x200#32 0#32 [(0x100, zeros 10)]

/-- An encrypting GCM session of two blocks that is given three (vectors 6.2). -/
def tooLong : State := session short .gcm .encrypt 0x100#32 48#32 0x200#32 64#32 [(0x100, zeros 48)]

theorem witness_CommandsKeepTheHostSide : exec .abort tooShort = .next (after .abort tooShort) := exec_after _ _

/-- One error of each kind: a failed check, a failed tag, exhaustion. -/
theorem witness_ErrorsAreAllOrNothing :
    exec .update State.reset = .next (after .update State.reset) ∧ (after .update State.reset).status.err = .illegalState ∧
    exec .finalize tooShort = .next (after .finalize tooShort) ∧
    (after .finalize tooShort).status.err = .authenticationFailed ∧
    exec .update tooLong = .next (after .update tooLong) ∧ (after .update tooLong).status.err = .counterExhausted :=
  ⟨exec_after _ _, by decide +kernel, exec_after _ _, by decide +kernel, exec_after _ _, by decide +kernel⟩

theorem witness_RetryGivesTheSameError :
    exec .update State.reset = .next (after .update State.reset) ∧ (after .update State.reset).status.err ≠ .ok ∧
    (after .update State.reset).status.err ≠ .authenticationFailed ∧
    (after .update State.reset).status.err ≠ .counterExhausted := ⟨exec_after _ _, by decide +kernel⟩

/-- INIT's operands on the core of vectors 5: a 32-byte key at 0 and a 12-byte nonce at 0x20. -/
def keyed : State := withArgs (core5 Config.vectors) 0#32 32#32 0x20#32 12#32 0#32

theorem witness_GuardSlotsBelongToInit :
    (exec (.init .encrypt .cp 0) keyed = .next (after (.init .encrypt .cp 0) keyed) ∧
      (after (.init .encrypt .cp 0) keyed).guardChacha ≠ keyed.guardChacha) ∧
    (exec (.init .encrypt .gcm 0) keyed = .next (after (.init .encrypt .gcm 0) keyed) ∧
      (after (.init .encrypt .gcm 0) keyed).guardGcm ≠ keyed.guardGcm) ∧
    ((∀ m f n, Instr.abort ≠ .init m f n) ∧ exec .abort keyed = .next (after .abort keyed)) ∧
    (∃ t, step { State.reset with bus := [.reset] } = .next t) :=
  ⟨⟨exec_after _ _, by decide +kernel⟩, ⟨exec_after _ _, by decide +kernel⟩, ⟨fun _ _ _ h => by (cases h), exec_after _ _⟩,
    ⟨_, rfl⟩⟩

/-- A CMD write of a word that decodes to ILLEGAL. -/
def illegalWrite : Access := regWrite Config.vectors 0x00 0x07#32

theorem illegalWrite_illegal : ¬ (illegalWrite.addr = 0 ∧ ∃ w i, illegalWrite.op = .write w ∧ decode w = .ok i) := by
  rintro ⟨-, w, i, h, hd⟩
  cases h
  revert hd
  show (Except.error (IllegalWord.opcode 0x07#8) : Except IllegalWord Instr) = .ok i → False
  exact fun hd => by cases hd

theorem witness_StateFollowsTheTransitionTable :
    (let s := session Config.vectors .cp .encrypt 0x45#32 1#32 0#32 0#32 [(0x45, [1#8])]
     exec .updateAad s = .next (after .updateAad s) ∧ (after .updateAad s).status.err = .ok) ∧
    (exec .finalize tooShort = .next (after .finalize tooShort) ∧
      (after .finalize tooShort).status.phase ≠ tooShort.status.phase) ∧
    (∃ t, step { State.reset with bus := [.reset] } = .next t) ∧
    (∃ t, busAccess State.reset illegalWrite = .next t ∧
      ¬ (illegalWrite.addr = 0 ∧ ∃ w i, illegalWrite.op = .write w ∧ decode w = .ok i)) :=
  ⟨⟨exec_after _ _, by decide +kernel⟩, ⟨exec_after _ _, by decide +kernel⟩, ⟨_, rfl⟩, ⟨_, rfl, illegalWrite_illegal⟩⟩

theorem witness_FamilyAndDirAreTheLastInits :
    (exec (.init .encrypt .gcm 0) keyed = .next (after (.init .encrypt .gcm 0) keyed) ∧
      (after (.init .encrypt .gcm 0) keyed).status.err = .ok) ∧
    (exec .update tooLong = .next (after .update tooLong) ∧ (∀ m f n, Instr.update = .init m f n →
      (after .update tooLong).status.err ≠ .ok) ∧ Instr.update ≠ .abort) ∧
    ((tooShort.status.phase = .idle → tooShort.status.family = .cp ∧ tooShort.status.dir = .encrypt) ∧
      exec .abort tooShort = .next (after .abort tooShort) ∧ (after .abort tooShort).status.phase = .idle) ∧
    (∃ t, step { State.reset with bus := [.reset] } = .next t) ∧
    (∃ t, busAccess State.reset illegalWrite = .next t ∧
      ¬ (illegalWrite.addr = 0 ∧ ∃ w i, illegalWrite.op = .write w ∧ decode w = .ok i)) :=
  ⟨⟨exec_after _ _, by decide +kernel⟩, ⟨exec_after _ _, fun _ _ _ h => by (cases h), by decide⟩,
    ⟨by decide +kernel, exec_after _ _, by decide +kernel⟩, ⟨_, rfl⟩, ⟨_, rfl, illegalWrite_illegal⟩⟩

/-- A spent session: FINALIZED after an encrypting FINALIZE. -/
def spent : State := after .update tooLong

theorem witness_ReinitRequiredMarksSpentSessions :
    spent.status.phase = .finalized ∧ exec .update spent = .next (after .update spent) ∧
    (∀ m f n, Instr.update ≠ .init m f n) ∧ Instr.update ≠ .abort ∧
    (∃ t, busAccess State.reset illegalWrite = .next t ∧
      ¬ (illegalWrite.addr = 0 ∧ ∃ w i, illegalWrite.op = .write w ∧ decode w = .ok i)) :=
  ⟨by decide +kernel, exec_after _ _, fun _ _ _ h => by (cases h), by decide, ⟨_, rfl, illegalWrite_illegal⟩⟩

/-- A first UPDATE of either direction. -/
theorem witness_AadClosedFollowsItsRule :
    (exec .update tooShort = .next (after .update tooShort) ∧ tooShort.status.family ≠ .stream ∧
      tooShort.status.dir = .decrypt ∧ (after .update tooShort).status.err = .ok ∧ tooShort.status.aadClosed = false) ∧
    (let s := session Config.vectors .gcm .encrypt 0x100#32 20#32 0x200#32 16#32 [(0x100, zeros 20)]
     exec .update s = .next (after .update s) ∧ s.status.family ≠ .stream ∧ s.status.dir = .encrypt ∧
      (after .update s).status.err = .ok ∧ s.status.aadClosed = false) :=
  ⟨⟨exec_after _ _, by decide +kernel⟩, ⟨exec_after _ _, by decide +kernel⟩⟩

theorem witness_DataCommandsNeedAnActiveSession :
    exec .update State.reset = .next (after .update State.reset) ∧ exec .finalize tooShort = .next (after .finalize tooShort) ∧
    exec (.outputSize true) spent = .next (after (.outputSize true) spent) := ⟨exec_after _ _, exec_after _ _, exec_after _ _⟩

/-- Each of the ways to consume a session: OK, a failed tag, and exhaustion in FINALIZE and in UPDATE. -/
theorem witness_FinalizeConsumesTheSession :
    (let s := session Config.vectors .cp .encrypt 0#32 0#32 0x200#32 16#32 []
     exec .finalize s = .next (after .finalize s) ∧ (after .finalize s).status.err = .ok) ∧
    (exec .finalize tooShort = .next (after .finalize tooShort) ∧
      (after .finalize tooShort).status.err = .authenticationFailed) ∧
    (exec .finalize tooLong = .next (after .finalize tooLong) ∧ (after .finalize tooLong).status.err = .counterExhausted) ∧
    (exec .update tooLong = .next (after .update tooLong) ∧ (after .update tooLong).status.err = .counterExhausted) :=
  ⟨⟨exec_after _ _, by decide +kernel⟩, ⟨exec_after _ _, by decide +kernel⟩, ⟨exec_after _ _, by decide +kernel⟩,
    ⟨exec_after _ _, by decide +kernel⟩⟩

/-! ### INIT -/

/-- The code of the statement InitReportsTheFirstFailingCheck, as it stands there. -/
def initCode (m : Opmode) (f : FamilyField) (n : Nat) (s : State) : ErrCode :=
  let klen := s.args.a1.toNat
  let nlen := s.args.a3.toNat
  let pair := (s.memRead s.args.a0.toNat klen, s.memRead s.args.a2.toNat nlen)
  let slot := if f = .gcm then s.guardGcm else s.guardChacha
  if m = .wrap ∨ m = .unwrap then .invalidParameter
  else if f = .fam3 then .invalidParameter
  else if (f = .cp ∨ f = .stream) ∧ klen ≠ 32 then .invalidKey
  else if f = .gcm ∧ klen ≠ 16 ∧ klen ≠ 24 ∧ klen ≠ 32 then .invalidKey
  else if (f = .cp ∨ f = .stream) ∧ nlen ≠ 12 then .invalidParameter
  else if f = .gcm ∧ ¬ (1 ≤ nlen ∧ nlen ≤ s.cfg.nonceMax) then .invalidParameter
  else if f = .cp ∧ n ≠ 0 ∧ n ≠ 16 then .invalidParameter
  else if f = .gcm ∧ n ≠ 0 ∧ ¬ (12 ≤ n ∧ n ≤ 16) then .invalidParameter
  else if f = .stream ∧ n ≠ 0 then .invalidParameter
  else if s.cfg.dmemSize < s.args.a0.toNat + klen ∨ s.cfg.dmemSize < s.args.a2.toNat + nlen then .addressError
  else if m = .encrypt ∧ slot = some pair then .invalidKey
  else .ok

/-- Every clause of that code at the boundary of its range (vectors 5.1). -/
theorem witness_InitReportsTheFirstFailingCheck :
    (∀ v ∈ [(Opmode.wrap, FamilyField.cp, 0, 0#32, 7#32, 0x20#32, 12#32, ErrCode.invalidParameter),
        (.unwrap, .fam3, 0, 0#32, 7#32, 0x20#32, 12#32, .invalidParameter),
        (.encrypt, .fam3, 0, 0#32, 7#32, 0x20#32, 12#32, .invalidParameter),
        (.encrypt, .cp, 0, 0#32, 31#32, 0x20#32, 12#32, .invalidKey),
        (.encrypt, .stream, 0, 0#32, 33#32, 0x20#32, 12#32, .invalidKey),
        (.encrypt, .gcm, 0, 0#32, 20#32, 0x20#32, 12#32, .invalidKey),
        (.encrypt, .cp, 0, 0#32, 32#32, 0x20#32, 13#32, .invalidParameter),
        (.encrypt, .gcm, 0, 0#32, 16#32, 0x20#32, 0#32, .invalidParameter),
        (.encrypt, .gcm, 0, 0#32, 16#32, 0x20#32, 129#32, .invalidParameter),
        (.encrypt, .cp, 15, 0#32, 32#32, 0x20#32, 12#32, .invalidParameter),
        (.encrypt, .gcm, 11, 0#32, 24#32, 0x20#32, 128#32, .invalidParameter),
        (.encrypt, .gcm, 17, 0#32, 32#32, 0x20#32, 1#32, .invalidParameter),
        (.encrypt, .stream, 1, 0#32, 32#32, 0x20#32, 12#32, .invalidParameter),
        (.encrypt, .cp, 0, 4065#32, 32#32, 0x20#32, 12#32, .addressError),
        (.decrypt, .cp, 0, 0#32, 32#32, 4085#32, 12#32, .addressError)],
      initCode v.1 v.2.1 v.2.2.1 (withArgs (core5 Config.vectors) v.2.2.2.1 v.2.2.2.2.1 v.2.2.2.2.2.1 v.2.2.2.2.2.2.1 0#32) =
        v.2.2.2.2.2.2.2) ∧
    initCode .encrypt .gcm 0 (after (.init .encrypt .gcm 0) keyed) = .invalidKey ∧
    initCode .decrypt .gcm 0 (after (.init .encrypt .gcm 0) keyed) = .ok ∧
    (∀ v ∈ [(Opmode.encrypt, FamilyField.cp, 16, 0#32, 32#32, 4084#32, 12#32),
        (.encrypt, .gcm, 12, 0#32, 16#32, 0x20#32, 128#32),
        (.decrypt, .gcm, 16, 0#32, 24#32, 0x20#32, 1#32),
        (.encrypt, .stream, 0, 0#32, 32#32, 0x20#32, 12#32)],
      initCode v.1 v.2.1 v.2.2.1 (withArgs (core5 Config.vectors) v.2.2.2.1 v.2.2.2.2.1 v.2.2.2.2.2.1 v.2.2.2.2.2.2 0#32) =
        .ok) := by decide +kernel

/-- The three families, with GCM at both ends of its lengths, each range ending at DMEM_SIZE. -/
theorem witness_InitLoadsTheSession :
    (let s := withArgs State.reset 4064#32 32#32 4084#32 12#32 0#32
     s.args.a0.toNat + s.args.a1.toNat ≤ s.cfg.dmemSize ∧ s.args.a2.toNat + s.args.a3.toNat ≤ s.cfg.dmemSize ∧
     s.args.a1.toNat = 32 ∧ s.args.a3.toNat = 12 ∧ ∀ p, s.guardChacha ≠ some p) ∧
    (∀ v ∈ [(16, 1), (24, 12), (32, 128)],
      let s := withArgs State.reset 0#32 (BitVec.ofNat 32 v.1) 3968#32 (BitVec.ofNat 32 v.2) 0#32
      s.args.a0.toNat + s.args.a1.toNat ≤ s.cfg.dmemSize ∧ s.args.a2.toNat + s.args.a3.toNat ≤ s.cfg.dmemSize ∧
      (s.args.a1.toNat = 16 ∨ s.args.a1.toNat = 24 ∨ s.args.a1.toNat = 32) ∧ 1 ≤ s.args.a3.toNat ∧
      s.args.a3.toNat ≤ s.cfg.nonceMax ∧ s.guardGcm = none) ∧
    (12 ≤ 12 ∧ 12 ≤ 16) ∧ (12 ≤ 16 ∧ 16 ≤ 16) :=
  ⟨⟨by decide, by decide, by decide, by decide, fun _ h => by (cases h)⟩, by decide +kernel, by decide, by decide⟩

theorem witness_RepeatedEncryptInitIsRejected :
    ∀ f ∈ [FamilyField.cp, .gcm, .stream],
      exec (.init .encrypt f 0) keyed = .next (after (.init .encrypt f 0) keyed) ∧
      (after (.init .encrypt f 0) keyed).status.err = .ok :=
  fun f hf => ⟨exec_after _ _, by revert f hf; decide +kernel⟩

/-! ### UPDATE_AAD, OUTPUT_SIZE, ABORT -/

/-- A GCM session that has taken all the AAD but one byte of its limit. -/
def nearLimit (n : Nat) : State :=
  let s := session Config.vectors .gcm .encrypt 0x100#32 (BitVec.ofNat 32 n) 0#32 0#32 []
  s.withSession s.session s.ks { s.auth with aadLen := 2 ^ 61 - 2 }

/-- IDLE; STREAM; a range one byte past the end; the AAD limit met and passed by one byte; no bytes. -/
theorem witness_UpdateAadAbsorbsTheAad :
    ¬ (State.reset.status.phase = .init ∨ State.reset.status.phase = .acceptingAad) ∧
    (session Config.vectors .stream .encrypt 0#32 0#32 0#32 0#32 []).status.family = .stream ∧
    (let s := session Config.vectors .cp .encrypt 4095#32 2#32 0#32 0#32 []
     s.status.phase = .init ∧ s.status.family ≠ .stream ∧ s.cfg.dmemSize < s.args.a0.toNat + s.args.a1.toNat) ∧
    (∀ n ∈ [0, 1, 2],
      (nearLimit n).status.phase = .init ∧ (nearLimit n).status.family ≠ .stream ∧
      (nearLimit n).args.a0.toNat + (nearLimit n).args.a1.toNat ≤ (nearLimit n).cfg.dmemSize) ∧
    (nearLimit 0).args.a1.toNat = 0 ∧
    (nearLimit 1).auth.aadLen + (nearLimit 1).args.a1.toNat ≤ 2 ^ 61 - 1 ∧
    2 ^ 61 - 1 < (nearLimit 2).auth.aadLen + (nearLimit 2).args.a1.toNat := by decide +kernel

theorem witness_OutputSizeComputesTheSize :
    tooLong.status.phase = .init ∧ (after .update tooShort).status.phase = .acceptingData ∧
    State.reset.status.phase = .idle ∧ spent.status.phase = .finalized := by decide +kernel

theorem witness_OutputSizePredictsResult :
    (exec .update tooShort = .next (after .update tooShort) ∧ (after .update tooShort).status.err = .ok ∧
      exec (.outputSize false) tooShort = .next (after (.outputSize false) tooShort)) ∧
    (let s := session Config.vectors .cp .encrypt 0#32 0#32 0x200#32 16#32 []
     exec .finalize s = .next (after .finalize s) ∧ (after .finalize s).status.err = .ok ∧
     exec (.outputSize true) s = .next (after (.outputSize true) s)) :=
  ⟨⟨exec_after _ _, by decide +kernel, exec_after _ _⟩, ⟨exec_after _ _, by decide +kernel, exec_after _ _⟩⟩

/-! ### UPDATE and FINALIZE -/

/-- The clauses of DataCommandsReportTheFirstFailingCheck met one below and at their limits (vectors 5.2 to 5.4). -/
theorem witness_DataCommandsReportTheFirstFailingCheck :
    State.reset.status.phase = .idle ∧
    (let s := session Config.vectors .gcm .encrypt 4081#32 16#32 0x200#32 16#32 []
     s.status.phase = .init ∧ s.cfg.dmemSize < s.args.a0.toNat + s.args.a1.toNat) ∧
    (∀ cap ∈ [15, 16],
      let s := session Config.vectors .gcm .encrypt 0x100#32 20#32 0x200#32 (BitVec.ofNat 32 cap) []
      s.status.active = true ∧ s.cfg.dmemSize ≥ s.args.a0.toNat + s.args.a1.toNat ∧
      (s.args.a3.toNat < (s.pbuf.length + s.args.a1.toNat) / s.session.block * s.session.block ↔ cap = 15)) ∧
    (∀ cap ∈ [35, 36],
      let s := session Config.vectors .gcm .encrypt 0x100#32 20#32 0x200#32 (BitVec.ofNat 32 cap) []
      s.args.a3.toNat < s.pbuf.length + s.args.a1.toNat + s.session.tagLen ↔ cap = 35) ∧
    (∀ n ∈ [64, 65],
      let s := session short .cp .decrypt 0x100#32 (BitVec.ofNat 32 n) 0x200#32 0#32 []
      s.cfg.pbufCap < s.pbuf.length + s.args.a1.toNat ↔ n = 65) ∧
    (∀ cap ∈ [3, 4],
      let s := session Config.vectors .gcm .decrypt 0x100#32 20#32 0x200#32 (BitVec.ofNat 32 cap) []
      s.args.a3.toNat < s.pbuf.length + s.args.a1.toNat - s.session.tagLen ↔ cap = 3) := by decide +kernel

/-- An encrypting GCM session given all the blocks it has, 32 bytes, in exactly the room they need. -/
def atLimit (a3 : Word) : State := session short .gcm .encrypt 0x100#32 32#32 0x200#32 a3 [(0x100, zeros 32)]

theorem atLimit_inv (a3 : Word) : (atLimit a3).Inv := session_inv _ _ _ _ _ _ _ _ (by decide) (by decide +kernel)

theorem witness_UpdateEncryptsWholeBlocks :
    let s := atLimit 32#32
    s.Inv ∧ s.dataLegal ∧ s.status.family ≠ .stream ∧ s.status.dir = .encrypt ∧
    s.pending.length / s.session.block * s.session.block ≤ s.args.a3.toNat ∧
    s.pending.length / s.session.block * s.session.block = s.ksLeft :=
  ⟨atLimit_inv _, (State.dataLegal_iff _).mpr (by decide +kernel), by decide +kernel⟩

/-- One byte over PBUF_CAP, and exactly PBUF_CAP. -/
theorem witness_UpdateDecryptOnlyBuffers :
    ∀ n ∈ [64, 65],
      let s := session short .cp .decrypt 0x100#32 (BitVec.ofNat 32 n) 0x200#32 0#32 []
      s.dataLegal ∧ s.status.family ≠ .stream ∧ s.status.dir = .decrypt ∧
      (s.cfg.pbufCap < s.pbuf.length + s.args.a1.toNat ↔ n = 65) := by
  intro n hn
  refine ⟨(State.dataLegal_iff _).mpr ?_, ?_⟩ <;> revert n hn <;> decide +kernel

/-- A STREAM session of 256 bytes of keystream, with `n` bytes to do in room for `cap`. -/
def stream (n cap : Nat) : State :=
  session short .stream .encrypt 0x100#32 (BitVec.ofNat 32 n) 0x600#32 (BitVec.ofNat 32 cap) [(0x100, zeros 257)]

theorem stream_inv (n cap : Nat) : (stream n cap).Inv := session_inv _ _ _ _ _ _ _ _ (by decide) (by decide +kernel)

/-- Too little room by one; exactly the keystream left; one byte more. -/
theorem witness_UpdateStreamXorsEveryByte :
    (∀ v ∈ [(256, 255), (256, 256), (257, 257)],
      (stream v.1 v.2).Inv ∧ (stream v.1 v.2).dataLegal ∧ (stream v.1 v.2).status.family = .stream) ∧
    (stream 256 255).args.a3.toNat < (stream 256 255).args.a1.toNat ∧
    ((stream 256 256).args.a1.toNat ≤ (stream 256 256).args.a3.toNat ∧
      (stream 256 256).args.a1.toNat = (stream 256 256).ksLeft) ∧
    ((stream 257 257).args.a1.toNat ≤ (stream 257 257).args.a3.toNat ∧
      (stream 257 257).ksLeft < (stream 257 257).args.a1.toNat) := by
  refine ⟨fun v hv => ⟨stream_inv _ _, (State.dataLegal_iff _).mpr ?_, ?_⟩, by decide +kernel⟩ <;> revert v hv <;>
    decide +kernel

theorem witness_FinalizeEncryptsAndAppendsTheTag :
    let s := atLimit 48#32
    s.Inv ∧ s.dataLegal ∧ s.status.family ≠ .stream ∧ s.status.dir = .encrypt ∧
    s.pending.length + s.session.tagLen ≤ s.args.a3.toNat ∧ s.pending.length = s.ksLeft :=
  ⟨atLimit_inv _, (State.dataLegal_iff _).mpr (by decide +kernel), by decide +kernel⟩

/-- A decrypting GCM session given V-GCM-1's ciphertext and tag at 0x200, with the tag's last byte replaced by `b`, to open to
`dst`. -/
def opening (b dst : Nat) : State :=
  session Config.vectors .gcm .decrypt 0x200#32 32#32 (BitVec.ofNat 32 dst) 16#32
    [(0x200, gcm1), (0x21f, [BitVec.ofNat 8 b])]

theorem opening_inv (b dst : Nat) : (opening b dst).Inv :=
  session_inv _ _ _ _ _ _ _ _ (by decide) (by simp [gcm1, Config.vectors])

theorem witness_FinalizeDecryptsWhenTheTagMatches :
    let s := opening 0xdf 0x300
    let len := s.pending.length - s.session.tagLen
    s.Inv ∧ s.dataLegal ∧ s.status.family ≠ .stream ∧ s.status.dir = .decrypt ∧ s.session.tagLen ≤ s.pending.length ∧
    len ≤ s.args.a3.toNat ∧ len ≤ s.ksLeft ∧
    authTag s.status.family s.session.tagLen (s.authWith (s.pending.take len)) = s.pending.drop len :=
  ⟨opening_inv _ _, (State.dataLegal_iff _).mpr (by decide +kernel), by decide +kernel⟩

theorem tooShort_inv : tooShort.Inv := session_inv _ _ _ _ _ _ _ _ (by decide) (by decide +kernel)

/-- A decrypting GCM session of two blocks given 33 bytes of ciphertext (vectors 6.2). -/
def tooLongOpening : State := session short .gcm .decrypt 0x600#32 49#32 0x700#32 33#32 [(0x600, zeros 49)]

theorem tooLongOpening_inv : tooLongOpening.Inv := session_inv _ _ _ _ _ _ _ _ (by decide) (by decide +kernel)

/-- Too short for a tag; one byte too long for the keystream; a wrong tag, its place overlapping the source in one byte and not
at all. -/
theorem witness_FinalizeDecryptRejects :
    (tooShort.Inv ∧ tooShort.dataLegal ∧ tooShort.status.family ≠ .stream ∧ tooShort.status.dir = .decrypt ∧
      tooShort.pending.length - tooShort.session.tagLen ≤ tooShort.args.a3.toNat ∧
      tooShort.pending.length < tooShort.session.tagLen) ∧
    (tooLongOpening.Inv ∧ tooLongOpening.dataLegal ∧ tooLongOpening.status.family ≠ .stream ∧
      tooLongOpening.status.dir = .decrypt ∧
      tooLongOpening.pending.length - tooLongOpening.session.tagLen ≤ tooLongOpening.args.a3.toNat ∧
      tooLongOpening.session.tagLen ≤ tooLongOpening.pending.length ∧
      tooLongOpening.ksLeft + 1 = tooLongOpening.pending.length - tooLongOpening.session.tagLen) ∧
    (∀ dst ∈ [0x1F1, 0x300],
      let s := opening 0xde dst
      let len := s.pending.length - s.session.tagLen
      s.Inv ∧ s.dataLegal ∧ s.status.family ≠ .stream ∧ s.status.dir = .decrypt ∧ len ≤ s.args.a3.toNat ∧
      s.session.tagLen ≤ s.pending.length ∧ len ≤ s.ksLeft ∧
      authTag s.status.family s.session.tagLen (s.authWith (s.pending.take len)) ≠ s.pending.drop len ∧
      (overlaps s.args.a0.toNat s.args.a1.toNat s.args.a2.toNat len = true ↔ dst = 0x1F1)) := by
  refine ⟨⟨tooShort_inv, (State.dataLegal_iff _).mpr (by decide +kernel), by decide +kernel⟩,
    ⟨tooLongOpening_inv, (State.dataLegal_iff _).mpr (by decide +kernel), by decide +kernel⟩,
    fun dst hd => ⟨opening_inv _ _, (State.dataLegal_iff _).mpr ?_, ?_⟩⟩ <;> revert dst hd <;> decide +kernel

theorem witness_FinalizeStreamXorsAndConsumes :
    (∀ v ∈ [(256, 255), (256, 256), (257, 257)],
      (stream v.1 v.2).Inv ∧ (stream v.1 v.2).dataLegal ∧ (stream v.1 v.2).status.family = .stream) ∧
    (stream 256 255).args.a3.toNat < (stream 256 255).args.a1.toNat ∧
    (stream 256 256).args.a1.toNat ≤ (stream 256 256).args.a3.toNat ∧
    (stream 257 257).args.a1.toNat ≤ (stream 257 257).args.a3.toNat :=
  ⟨fun _ hv => witness_UpdateStreamXorsEveryByte.1 _ hv, by decide +kernel⟩

theorem tooLong_inv : tooLong.Inv := session_inv _ _ _ _ _ _ _ _ (by decide) (by decide +kernel)

theorem witness_EncryptExhaustionWritesTheBlocksLeft :
    tooLong.Inv ∧ tooLong.dataLegal ∧ tooLong.status.family ≠ .stream ∧ tooLong.status.dir = .encrypt ∧
    (let left := (tooLong.ks.maxBlocks - tooLong.ks.used) * blockBytes tooLong.status.family
     tooLong.pending.length / tooLong.session.block * tooLong.session.block ≤ tooLong.args.a3.toNat ∧
     left < tooLong.pending.length / tooLong.session.block * tooLong.session.block ∧
     tooLong.pending.length + tooLong.session.tagLen ≤ tooLong.args.a3.toNat ∧ left < tooLong.pending.length) :=
  ⟨tooLong_inv, (State.dataLegal_iff _).mpr (by decide +kernel), by decide +kernel⟩

/-- In place, a byte of DMEM changes after the right tag, and after a wrong one. -/
theorem witness_NoPlaintextBeforeTheTagIsChecked :
    ∀ b ∈ [0xdf, 0xde],
      (opening b 0x200).status.family ≠ .stream ∧ (opening b 0x200).status.dir = .decrypt ∧
      exec .finalize (opening b 0x200) = .next (after .finalize (opening b 0x200)) ∧
      (after .finalize (opening b 0x200)).readByte 0x200 ≠ (opening b 0x200).readByte 0x200 := by
  intro b hb
  refine ⟨?_, ?_, exec_after _ _, ?_⟩ <;> revert b hb <;> decide +kernel

theorem witness_CommandsThatStoreNothing :
    exec (.init .encrypt .cp 0) keyed = .next (after (.init .encrypt .cp 0) keyed) ∧
    exec .updateAad tooShort = .next (after .updateAad tooShort) ∧
    exec (.outputSize false) tooShort = .next (after (.outputSize false) tooShort) ∧
    exec .abort tooShort = .next (after .abort tooShort) ∧ exec .update tooShort = .next (after .update tooShort) ∧
    tooShort.status.family ≠ .stream ∧ tooShort.status.dir = .decrypt :=
  ⟨exec_after _ _, exec_after _ _, exec_after _ _, exec_after _ _, exec_after _ _, by decide +kernel⟩

theorem witness_DataCommandsStoreOnlyTheirResult :
    (tooLong.Inv ∧ exec .update tooLong = .next (after .update tooLong) ∧
      (after .update tooLong).status.err ≠ .authenticationFailed) ∧
    ((opening 0xde 0x200).Inv ∧
      exec .finalize (opening 0xde 0x200) = .next (after .finalize (opening 0xde 0x200)) ∧
      (after .finalize (opening 0xde 0x200)).status.err = .authenticationFailed) :=
  ⟨⟨tooLong_inv, exec_after _ _, by decide +kernel⟩, ⟨opening_inv _ _, exec_after _ _, by decide +kernel⟩⟩

/-- The same 16 bytes opened to the source's own place, and to a place one byte further. -/
theorem witness_OverlapDoesNotChangeTheOutput :
    let s := opening 0xdf 0x200
    let s' : State := { s with args := { s.args with a2 := 0x201#32 } }
    s.Inv ∧ s.args.a2.toNat + s.args.a3.toNat ≤ s.cfg.dmemSize ∧ (0x201#32).toNat + s.args.a3.toNat ≤ s.cfg.dmemSize ∧
    exec .finalize s = .next (after .finalize s) ∧ exec .finalize s' = .next (after .finalize s') :=
  ⟨opening_inv _ _, by decide +kernel, by decide +kernel, exec_after _ _, exec_after _ _⟩

/-! ### The units -/

/-- A block transform of two bytes. -/
def toyBlock (c : Word) : List Byte := [c.setWidth 8, 0x55#8]

/-- Five bytes in three chunks, one of them empty, that end on the last block allowed. -/
theorem witness_KeystreamIsTheSameInChunks :
    ((([[1#8], [], [2#8, 3#8, 4#8]] : List (List Byte)).foldl
      (fun (acc : XorResult) d =>
        let x := ksXor toyBlock acc.ks d
        ⟨acc.out ++ x.out, x.ks, acc.exhausted || x.exhausted⟩) ⟨[], { Keystream.zero with maxBlocks := 2 }, false⟩).exhausted) =
      false := by decide

theorem witness_ExhaustionComesExactlyAtTheLimit :
    0 < 2 ∧ (∀ c, (toyBlock c).length = 2) ∧
    (let k : Keystream := { Keystream.zero with maxBlocks := 2, used := 1, buf := [7#8, 8#8], pos := 1 }
     k.used ≤ k.maxBlocks ∧ k.pos ≤ k.buf.length) := ⟨by decide, fun _ => rfl, by decide⟩

theorem witness_KeystreamByteIsFixedByItsPlace : tooLong.Inv ∧ tooLong.status.active = true :=
  ⟨tooLong_inv, by decide +kernel⟩

/-- A GCM session of two blocks: the first and the last. -/
theorem witness_CountersNeverRepeat :
    tooLong.Inv ∧ tooLong.status.active = true ∧ 0 < 1 ∧ 1 < tooLong.ks.maxBlocks ∧ tooLong.status.family = .gcm :=
  ⟨tooLong_inv, by decide +kernel⟩

theorem witness_TagIsThatOfOneString : Auth.zero.aadLen = 0 ∧ Auth.zero.ctLen = 0 ∧ Auth.zero.stage = [] := by decide

/-! ### The whole machine -/

/-- A step that runs an UPDATE on a good session. -/
theorem witness_EveryStepKeepsTheInvariant :
    (tooLong.withCommand 0x03#32).Inv ∧ step (tooLong.withCommand 0x03#32) = .next (after .update tooLong) := by
  refine ⟨tooLong_inv.congr rfl rfl rfl rfl rfl rfl rfl rfl rfl rfl rfl rfl tooLong_inv.memWf tooLong_inv.memRange, ?_⟩
  rw [step_withCommand]
  exact exec_after .update tooLong

theorem witness_ResetIsGood : short.wf ∧ Config.vectors.wf := by decide

/-- V-GCM-1's ciphertext and tag given to a decrypting session as 20 bytes by UPDATE, which closes the AAD, and 12 by FINALIZE. -/
def openingSplit : State :=
  withArgs (after .update (withArgs (opening 0xdf 0x300) 0x200#32 20#32 0x300#32 16#32 0#32)) 0x214#32 12#32 0x300#32 16#32 0#32

/-- The rules of a good state do not look at the ARG registers. -/
theorem withArgs_inv {s : State} (h : s.Inv) (a0 a1 a2 a3 a4 : Word) : (withArgs s a0 a1 a2 a3 a4).Inv :=
  h.congr rfl rfl rfl rfl rfl rfl rfl rfl rfl rfl rfl rfl h.memWf h.memRange

theorem openingSplit_inv : openingSplit.Inv :=
  withArgs_inv ((withArgs_inv (opening_inv 0xdf 0x300) _ _ _ _ _).exec_update_decrypt
    ((State.dataLegal_iff _).mpr (by decide +kernel)) (by decide +kernel) (by decide +kernel) (exec_after _ _)) _ _ _ _ _

/-- V-GCM-1 encrypted by one FINALIZE, and decrypted by one FINALIZE and by UPDATE and FINALIZE. -/
theorem witness_DecryptionUndoesEncryption :
    let s := session Config.vectors .gcm .encrypt 0x100#32 16#32 0x200#32 32#32 [(0x100, zeros 16)]
    let t := after .finalize s
    s.Inv ∧ s.status.active = true ∧ s.status.family ≠ .stream ∧ s.status.dir = .encrypt ∧ exec .finalize s = .next t ∧
    t.status.err = .ok ∧
    ∀ d ∈ [opening 0xdf 0x300, openingSplit], d.Inv ∧ d.dataLegal ∧ d.status.active = true ∧ d.status.dir = .decrypt ∧
      d.status.family = s.status.family ∧ d.session = s.session ∧ d.ks = s.ks ∧ d.authClosed = s.authClosed ∧
      d.pending = s.output t ∧ s.pending.length ≤ d.args.a3.toNat := by
  refine ⟨session_inv _ _ _ _ _ _ _ _ (by decide) (by decide +kernel), by decide +kernel, by decide +kernel,
    by decide +kernel, exec_after _ _, by decide +kernel, fun d hd => ?_⟩
  rcases List.mem_pair.mp hd with rfl | rfl
  · exact ⟨opening_inv _ _, (State.dataLegal_iff _).mpr (by decide +kernel), by decide +kernel⟩
  · exact ⟨openingSplit_inv, (State.dataLegal_iff _).mpr (by decide +kernel), by decide +kernel⟩

/-- Two encryptions of 32 zero bytes: 20 by UPDATE and 12 by FINALIZE, and all by FINALIZE. -/
def splitStart : State :=
  session Config.vectors .gcm .encrypt 0x100#32 20#32 0x200#32 16#32 [(0x100, zeros 32)]

theorem witness_SplittingTheDataChangesNoByte :
    let s := splitStart
    let t := after .update s
    let u := withArgs t 0x114#32 12#32 0x210#32 32#32 0#32
    let v := after .finalize u
    let s' := withArgs s 0x100#32 32#32 0x300#32 48#32 0#32
    let u' := after .finalize s'
    s.Inv ∧ s.status.family ≠ .stream ∧ s.status.dir = .encrypt ∧ exec .update s = .next t ∧ t.status.err = .ok ∧
    t.SameSession u ∧ exec .finalize u = .next v ∧ v.status.err = .ok ∧ s.SameSession s' ∧ exec .finalize s' = .next u' ∧
    u'.status.err = .ok ∧
    s'.memRead s'.args.a0.toNat s'.args.a1.toNat =
      s.memRead s.args.a0.toNat s.args.a1.toNat ++ u.memRead u.args.a0.toNat u.args.a1.toNat :=
  ⟨session_inv _ _ _ _ _ _ _ _ (by decide) (by decide +kernel), by decide +kernel, by decide +kernel, exec_after _ _,
    by decide +kernel, ⟨rfl, rfl, rfl, rfl, rfl, rfl, rfl, rfl, rfl, rfl, rfl, rfl⟩, exec_after _ _, by decide +kernel,
    ⟨rfl, rfl, rfl, rfl, rfl, rfl, rfl, rfl, rfl, rfl, rfl, rfl⟩, exec_after _ _, by decide +kernel, by decide +kernel⟩

end Sys2Proof.Tests

end
end

section
/-! PROOFS. The invariant of the whole machine (O56): what one bus event can do, and that every command and every other event
keeps a good state good (R38). -/

namespace Sys2Proof.Machine

/-! ## One bus event -/

/-- What a CMD write can answer (R21, R101). -/
theorem issueCommand_next {w : Word} {s t : State} (h : issueCommand w s = .next t) :
    (∃ i, decode w = .ok i ∧ exec i s = .next t) ∨ ((∀ i, decode w ≠ .ok i) ∧ t = s.raise .illegalCommand) := by
  unfold issueCommand at h
  cases hd : decode w with
  | ok i =>
    rw [hd] at h
    exact .inl ⟨i, rfl, h⟩
  | error e =>
    rw [hd] at h
    cases h
    exact .inr ⟨nofun, rfl⟩

/-- What one host access can do: answer a read, write a register other than CMD, write bytes inside DMEM, or issue a command
(R20, R72, R73). -/
theorem busAccess_effect {s t : State} {a : Access} (h : busAccess s a = .next t) :
    (∃ v, t = s.answerRead v) ∨ (∃ off v, t = s.writeReg off v) ∨
    (∃ x b, x + b.length ≤ s.cfg.dmemSize ∧ t = s.memWrite x b) ∨
    (a.addr = s.cfg.regBase ∧ ∃ w, a.op = .write w ∧ issueCommand w s = .next t) := by
  rcases busAccess_next h with ⟨hlo, -, h⟩ | ⟨-, -, h⟩
  · obtain ⟨-, -, ⟨-, e⟩ | ⟨w, hw, h0, hc⟩ | ⟨v, -, -, e⟩⟩ := regAccess_next h
    · exact .inl ⟨_, e⟩
    · exact .inr (.inr (.inr ⟨by omega, w, hw, hc⟩))
    · exact .inr (.inl ⟨_, v, e⟩)
  · rcases dmemAccess_next h with ⟨-, hx, ⟨-, e⟩ | ⟨v, -, e⟩⟩ | ⟨-, -, hx, ⟨-, e⟩ | ⟨v, -, e⟩⟩
    · exact .inl ⟨_, e⟩
    · exact .inr (.inr (.inl ⟨_, _, by simpa using hx, e⟩))
    · exact .inl ⟨_, e⟩
    · exact .inr (.inr (.inl ⟨_, _, by simp only [encLe_length]; omega, e⟩))

/-! ## The derived values -/

/-- AuthUpdateAad moves aad_len and otherwise leaves what the engine leaves (R185). -/
theorem authUpdateAad_same (fam : Family) (a : Auth) (b : List Byte) :
    Auth.SameKeys fam { a with aadLen := a.aadLen + b.length } (authUpdateAad fam a b) := by
  obtain ⟨h1, h2, h3, h4, h5, h6, h7, h8⟩ := engineUpdate_same fam a b
  exact ⟨by simp [authUpdateAad, h1], h2, h3, h4, h5, h6, h7, h8⟩

/-- AuthUpdateData moves ct_len and otherwise leaves what the engine leaves (R187). -/
theorem authUpdateData_same (fam : Family) (a : Auth) (c : List Byte) :
    Auth.SameKeys fam { a with ctLen := a.ctLen + c.length } (authUpdateData fam a c) := by
  obtain ⟨h1, h2, h3, h4, h5, h6, h7, h8⟩ := engineUpdate_same fam a c
  exact ⟨h1, by simp [authUpdateData, h2], h3, h4, h5, h6, h7, h8⟩

/-- The derived values of a CP or GCM session look at neither length of the authenticator, and at the keystream's counter only
against its initial value `c0`. -/
theorem State.keysDerived_of_moved {s t : State} (hf : s.status.family ≠ .stream) (hfam : t.status.family = s.status.family)
    (hses : t.session = s.session) (hj : t.ks.j0 = s.ks.j0)
    (ht : t.ks.ctr = s.ksStart + BitVec.ofNat 32 t.ks.used) {n m : Nat}
    (hk : Auth.SameKeys s.status.family { s.auth with aadLen := n, ctLen := m } t.auth) (h : s.keysDerived) :
    t.keysDerived := by
  obtain ⟨-, -, er, es, eh, ee, eacc, ey⟩ := hk
  have hs : s.ks.ctr = s.ksStart + BitVec.ofNat 32 s.ks.used := (sub_add_cancel _ _).symm
  simp only [State.keysDerived] at *
  rw [hfam, hses, hj, ht, er, es, eh, ee]
  cases hx : s.status.family with
  | cp =>
    rw [ey (by simp [hx])]
    simp only [hx] at h ⊢
    obtain ⟨h1, h2, h3, h4, h5, h6, h7, h8⟩ := h
    refine ⟨h1, h2, h3, h4, h5, h6, h7, ?_⟩
    rw [h8] at hs
    rw [add_right_cancel hs]
  | gcm =>
    rw [eacc (by simp [hx])]
    simp only [hx] at h ⊢
    obtain ⟨h1, h2, h3, h4, h5, h6, h7, h8⟩ := h
    refine ⟨h1, h2, h3, h4, h5, h6, h7, ?_⟩
    rw [h8] at hs
    rw [add_right_cancel hs]
  | stream => exact absurd hx hf

/-! ## Every command keeps the machine good -/

/-- The machine after any reset is good (R350, R351). -/
theorem State.Inv.of_resetWith {c : Config} (hc : c.wf) (epoch : Nat) (bus : List BusEvent) :
    (State.resetWith c epoch bus).Inv where
  cfg := hc
  memWf := State.resetWith_mem_wf c epoch bus
  memRange := fun _ hx => absurd hx List.not_mem_nil
  quiet := fun _ => ⟨rfl, rfl, rfl, rfl⟩
  idle := fun _ => ⟨rfl, rfl⟩
  closed := by simp [State.resetWith, Status.reset]
  spent := fun h => by simp [State.resetWith, Status.reset] at h
  session := fun h => by simp [State.resetWith, Status.reset, Status.active] at h

/-- ABORT leaves a good state (R250). -/
theorem State.Inv.abort {s : State} (h : s.Inv) : (s.zeroise.withStatus s.status.aborted).Inv where
  cfg := h.cfg
  memWf := h.memWf
  memRange := h.memRange
  quiet := fun _ => ⟨rfl, rfl, rfl, rfl⟩
  idle := fun _ => ⟨rfl, rfl⟩
  closed := by simp
  spent := fun x => by simp at x
  session := fun x => by simp [Status.active] at x

/-! ### INIT -/

@[simp] theorem initCommit_status (s : State) (fam : Family) (dir : Dir) (n : Nat) :
    (initCommit s fam dir n).status = s.status.started fam dir := rfl

@[simp] theorem initCommit_cfg (s : State) (fam : Family) (dir : Dir) (n : Nat) :
    (initCommit s fam dir n).cfg = s.cfg := by
  unfold initCommit
  split <;> rfl

@[simp] theorem initCommit_dmem (s : State) (fam : Family) (dir : Dir) (n : Nat) :
    (initCommit s fam dir n).dmem = s.dmem := by
  unfold initCommit
  split <;> rfl

@[simp] theorem initCommit_pbuf (s : State) (fam : Family) (dir : Dir) (n : Nat) :
    (initCommit s fam dir n).pbuf = [] := by
  unfold initCommit
  split <;> rfl

@[simp] theorem initCommit_session (s : State) (fam : Family) (dir : Dir) (n : Nat) :
    (initCommit s fam dir n).session =
      initSession fam (s.rangeBytes s.args.a0 s.args.a1) (s.rangeBytes s.args.a2 s.args.a3) n := rfl

@[simp] theorem initCommit_ks (s : State) (fam : Family) (dir : Dir) (n : Nat) :
    (initCommit s fam dir n).ks =
      initKeystream s.cfg fam (s.rangeBytes s.args.a0 s.args.a1) (s.rangeBytes s.args.a2 s.args.a3) s.args.a4 := rfl

@[simp] theorem initCommit_auth (s : State) (fam : Family) (dir : Dir) (n : Nat) :
    (initCommit s fam dir n).auth =
      initAuth fam (s.rangeBytes s.args.a0 s.args.a1) (s.rangeBytes s.args.a2 s.args.a3) := rfl

@[simp] theorem initCommit_guardChacha (s : State) (fam : Family) (dir : Dir) (n : Nat) :
    (initCommit s fam dir n).guardChacha =
      if dir = .encrypt ∧ fam ≠ .gcm then some (s.rangeBytes s.args.a0 s.args.a1, s.rangeBytes s.args.a2 s.args.a3)
      else s.guardChacha := by
  cases dir <;> cases fam <;> rfl

@[simp] theorem initCommit_guardGcm (s : State) (fam : Family) (dir : Dir) (n : Nat) :
    (initCommit s fam dir n).guardGcm =
      if dir = .encrypt ∧ fam = .gcm then some (s.rangeBytes s.args.a0 s.args.a1, s.rangeBytes s.args.a2 s.args.a3)
      else s.guardGcm := by
  cases dir <;> cases fam <;> rfl

/-- A fresh generator has used no block and holds none (R145, R234). -/
theorem initKeystream_fresh (c : Config) (fam : Family) (key nonce : List Byte) (a4 : Word) :
    (initKeystream c fam key nonce a4).used = 0 ∧ (initKeystream c fam key nonce a4).pos = 0 ∧
    (initKeystream c fam key nonce a4).buf = [] ∧
    (initKeystream c fam key nonce a4).maxBlocks = maxBlocksOf c fam := by
  cases fam <;> exact ⟨rfl, rfl, rfl, rfl⟩

/-- A fresh authenticator has absorbed nothing (R234). -/
theorem initAuth_fresh (fam : Family) (key nonce : List Byte) :
    (initAuth fam key nonce).aadLen = 0 ∧ (initAuth fam key nonce).ctLen = 0 ∧ (initAuth fam key nonce).stage = [] ∧
    (initAuth fam key nonce).acc = 0 := by
  cases fam <;> exact ⟨rfl, rfl, rfl, rfl⟩

/-- INIT that passes its checks leaves a session by the rules (R231 to R234). -/
theorem State.SessionInv.of_initCommit {s : State} {fam : Family} {dir : Dir} {n : Nat}
    (he : initErrors s fam dir n = none) : (initCommit s fam dir n).SessionInv := by
  obtain ⟨hkey, hnonce, htag, -, -, -⟩ := initErrors_eq_none.mp he
  obtain ⟨hused, hpos, hbuf, hmax⟩ := initKeystream_fresh s.cfg fam (s.rangeBytes s.args.a0 s.args.a1)
    (s.rangeBytes s.args.a2 s.args.a3) s.args.a4
  obtain ⟨haad, hct, hstage, hacc⟩ := initAuth_fresh fam (s.rangeBytes s.args.a0 s.args.a1)
    (s.rangeBytes s.args.a2 s.args.a3)
  constructor
  case keyLen => simpa [initSession] using hkey
  case nonceLen => simpa [initSession] using hnonce
  case tagLen =>
    cases fam with
    | cp => exact .inl rfl
    | gcm =>
      simp [taglenOk] at htag
      simp only [initCommit_session, initSession, tagLenOf, initCommit_status, Status.started_family]
      split
      · exact .inl rfl
      · exact .inr (.inl ⟨trivial, by omega⟩)
    | stream => exact .inr (.inr ⟨rfl, rfl⟩)
  case streamTag =>
    intro hf
    obtain rfl : fam = .stream := hf
    rfl
  case block => rfl
  case maxBlocks => simpa using hmax
  case used => simp [hused]
  case pos => simp [hpos]
  case bufFirst => simp [hbuf]
  case bufLast => simp [hused]
  case buffer =>
    simp only [State.bufferRule, initCommit_status, Status.started_family, Status.started_dir, initCommit_pbuf,
      initCommit_ks, initCommit_auth, hused, hpos, hbuf, hct]
    cases fam <;> cases dir <;> simp [blockBytes]
  case keys => cases fam <;> simp [State.keysDerived, initSession, initKeystream, initAuth, Keystream.zero, Auth.zero]
  case stage => simp [State.stageRule, hstage, haad, hct]
  case acc => simpa [hacc] using polyP_pos
  case aadLen => simp [haad]
  case initAad => simp [haad]
  case notSpent => rfl
  case guarded =>
    intro hd
    obtain rfl : dir = .encrypt := hd
    cases fam <;> rfl

/-- INIT that passes its checks leaves a good state. -/
theorem State.Inv.initCommit {s : State} (h : s.Inv) {fam : Family} {dir : Dir} {n : Nat}
    (he : initErrors s fam dir n = none) : (Machine.initCommit s fam dir n).Inv where
  cfg := by simpa using h.cfg
  memWf := by simpa using h.memWf
  memRange := by simpa using h.memRange
  quiet := fun x => by simp [Status.active] at x
  idle := fun x => by simp at x
  closed := by simp
  spent := fun x => by simp at x
  session := fun _ => .of_initCommit he

/-! ### UPDATE_AAD -/

/-- UPDATE_AAD that absorbs its bytes leaves a good state (R240). -/
theorem State.Inv.tookAad {s : State} (h : s.Inv) (he : aadErrors s = none) :
    ((s.absorbAad s.srcBytes).withStatus s.status.tookAad).Inv := by
  obtain ⟨hacc, hf, -, hlim⟩ := aadErrors_eq_none.mp he
  have hS := h.session (Status.acceptsAad_active hacc)
  have hopen : s.status.aadClosed = false := by
    rw [Bool.eq_false_iff, ne_eq, h.closed]
    rcases (Status.acceptsAad_iff _).mp hacc with hp | hp <;> simp [hp]
  have hk := authUpdateAad_same s.status.family s.auth s.srcBytes
  have hstage := hS.stage
  simp only [State.stageRule, hopen, Bool.false_eq_true, if_false] at hstage
  have hfed := engineUpdate_stage s.status.family s.auth s.srcBytes (by omega)
  refine ⟨h.cfg, h.memWf, h.memRange, fun x => by simp [Status.active] at x, fun x => by simp at x, by simp [hopen],
    fun x => by simp at x, fun _ => ?_⟩
  refine { hS with
    buffer := ?_, keys := ?_, stage := ?_, acc := engineUpdate_acc_lt _ hS.acc, aadLen := ?_,
    initAad := fun x => by simp at x }
  · have hb := hS.buffer
    simp only [State.bufferRule] at hb ⊢
    simpa [hk.ctLen] using hb
  · exact State.keysDerived_of_moved hf rfl rfl rfl (sub_add_cancel _ _).symm hk hS.keys
  · simp only [State.stageRule, State.withStatus_status, Status.tookAad_aadClosed, hopen, Bool.false_eq_true, if_false,
      State.withStatus_auth, State.absorbAad_auth, hk.aadLen, hk.ctLen]
    refine ⟨?_, hstage.2⟩
    show (engineUpdate _ _ _).stage.length = _
    omega
  · simpa [hk.aadLen] using hlim

/-! ### UPDATE -/

/-- Two counts of blocks of `B` bytes, the last block of either not empty, agree in the blocks and in the last one's bytes. -/
theorem blocks_unique {B u v p : Nat} (hp : 0 < p) (hB : p ≤ B) (h : u * B + p = v * B + B) : u = v ∧ p = B := by
  rcases Nat.lt_trichotomy u v with hlt | rfl | hlt
  · have := Nat.mul_le_mul_right B hlt
    rw [Nat.succ_mul] at this
    omega
  · exact ⟨rfl, by omega⟩
  · have := Nat.mul_le_mul_right B hlt
    rw [Nat.succ_mul] at this
    omega

/-- The generator's books for a session's own KsXor (R143, R144). -/
theorem State.SessionInv.xorData_account {s : State} (h : s.SessionInv) (d : List Byte) :
    (s.xorData d).ks.used * blockBytes s.status.family + (s.xorData d).ks.pos + s.ks.buf.length =
      s.ks.used * blockBytes s.status.family + s.ks.pos + (s.xorData d).out.length + (s.xorData d).ks.buf.length ∧
    ((s.xorData d).out ≠ [] → 0 < (s.xorData d).ks.pos) ∧
    ((s.xorData d).ks.buf = s.ks.buf ∨ (s.xorData d).ks.buf.length = blockBytes s.status.family) :=
  ksXor_account (blockBytes_pos _) h.ksBlock_length s.ks d h.pos

/-- After KsXor of whole blocks at a block boundary the generator is at a block boundary again, as many blocks further on
(R144, R214). -/
theorem State.SessionInv.xorData_blocks {s : State} (h : s.SessionInv) (hp : s.ks.pos = s.ks.buf.length) {d : List Byte}
    {q : Nat} (hd : d.length = q * blockBytes s.status.family) (hx : (s.xorData d).exhausted = false) :
    (s.xorData d).ks.pos = (s.xorData d).ks.buf.length ∧ (s.xorData d).ks.used = s.ks.used + q := by
  have hB := blockBytes_pos s.status.family
  cases q with
  | zero =>
    obtain rfl : d = [] := List.length_eq_zero_iff.mp (by omega)
    exact ⟨hp, rfl⟩
  | succ q =>
    have hout := s.xorData_out_eq d hx
    have hpos := (h.xorData_good h.ks_good d).pos
    obtain ⟨hsum, hstart, hbuf⟩ := h.xorData_account d
    rw [Nat.succ_mul] at hd
    have hstarted : 0 < (s.xorData d).ks.pos := hstart (fun e => by simp [e] at hout; omega)
    have hfull : (s.xorData d).ks.buf.length = blockBytes s.status.family := by
      rcases hbuf with e | e
      · rcases h.buf_length with ⟨e', -⟩ | e'
        · simp [e, e'] at hpos
          omega
        · rw [e, e']
      · exact e
    rw [hfull] at hpos ⊢
    have hblocks := blocks_unique (u := (s.xorData d).ks.used) (v := s.ks.used + (q + 1)) hstarted hpos
      (by simp only [Nat.add_mul, Nat.one_mul]; omega)
    exact ⟨hblocks.2, hblocks.1⟩

/-- What an UPDATE moves of a session: the keystream state, the pending buffer and the authenticator (R271, R273). -/
def State.moved (s : State) (k : Keystream) (p : List Byte) (a : Auth) : State := { s with ks := k, pbuf := p, auth := a }

@[simp] theorem State.moved_status (s : State) (k : Keystream) (p : List Byte) (a : Auth) :
    (s.moved k p a).status = s.status := rfl
@[simp] theorem State.moved_ks (s : State) (k : Keystream) (p : List Byte) (a : Auth) :
    (s.moved k p a).ks = k := rfl
@[simp] theorem State.moved_auth (s : State) (k : Keystream) (p : List Byte) (a : Auth) :
    (s.moved k p a).auth = a := rfl
@[simp] theorem State.moved_pbuf (s : State) (k : Keystream) (p : List Byte) (a : Auth) :
    (s.moved k p a).pbuf = p := rfl

/-- A session moved on by KsXor keeps the generator's rules; what is left to show is what the command does to the pending
buffer and the authenticator (R38). -/
theorem State.SessionInv.withXor {s : State} (h : s.SessionInv) (d : List Byte) {p : List Byte} {a : Auth}
    (buffer : (s.moved (s.xorData d).ks p a).bufferRule)
    (keys : (s.moved (s.xorData d).ks p a).keysDerived)
    (stage : (s.moved (s.xorData d).ks p a).stageRule)
    (acc : a.acc < polyP) (haad : a.aadLen = s.auth.aadLen) :
    (s.moved (s.xorData d).ks p a).SessionInv := by
  have hgood := h.xorData_good h.ks_good d
  obtain ⟨hmax, hj0⟩ := ksXor_frame s.ksBlock s.ks d
  refine { h with
    maxBlocks := hmax.trans h.maxBlocks, used := hgood.used, pos := hgood.pos, bufFirst := hgood.bufFirst, bufLast := ?_,
    buffer := buffer, keys := keys, stage := stage, acc := acc, aadLen := haad.trans_le h.aadLen,
    initAad := fun x => haad.trans (h.initAad x) }
  intro hu
  have hsame : (s.moved (s.xorData d).ks p a).ksBlock = s.ksBlock :=
    congrArg (Machine.ksBlock s.status.family s.session) hj0
  rw [hsame]
  exact hgood.bufLast hu

/-- An encrypting CP or GCM session has used exactly the blocks of its ciphertext (R214). -/
theorem State.SessionInv.enc_ctLen {s : State} (h : s.SessionInv) (hf : s.status.family ≠ .stream)
    (hd : s.status.dir = .encrypt) : s.auth.ctLen = s.ks.used * blockBytes s.status.family := by
  have hb := h.buffer
  simp only [State.bufferRule, hd] at hb
  cases hfam : s.status.family with
  | cp =>
    rw [hfam] at hb
    exact hb.2.2
  | gcm =>
    rw [hfam] at hb
    exact hb.2.2
  | stream => exact absurd hfam hf

/-- UPDATE of an encrypting CP or GCM session that is not exhausted, once the AAD is closed: the session goes on by the rules
(R214, R271). -/
theorem State.SessionInv.encryptBlocks {s : State} (h : s.SessionInv) (hf : s.status.family ≠ .stream)
    (hd : s.status.dir = .encrypt) (hclosed : s.status.aadClosed = true) {d p : List Byte} {q : Nat}
    (hlen : d.length = q * blockBytes s.status.family) (hp : p.length < blockBytes s.status.family)
    (hx : (s.xorData d).exhausted = false) :
    (((s.withPbuf p).withKs (s.xorData d).ks).absorbData (s.xorData d).out).SessionInv := by
  have hctLen := h.enc_ctLen hf hd
  obtain ⟨hpos, hused⟩ := h.xorData_blocks (h.enc_offset hf hd).1 hlen hx
  have hout := s.xorData_out_eq d hx
  have hk := authUpdateData_same s.status.family s.auth (s.xorData d).out
  have hct : (authUpdateData s.status.family s.auth (s.xorData d).out).ctLen =
      (s.xorData d).ks.used * blockBytes s.status.family := by
    rw [hk.ctLen, hused, Nat.add_mul]
    simp only [hctLen, hout, hlen]
  have hstage := h.stage
  simp only [State.stageRule, hclosed, if_true] at hstage
  refine h.withXor d (p := p) (a := authUpdateData s.status.family s.auth (s.xorData d).out) ?_ ?_ ?_
    (engineUpdate_acc_lt _ h.acc) hk.aadLen
  · simp only [State.bufferRule, State.moved_status, State.moved_ks, State.moved_auth, State.moved_pbuf, hd]
    cases hfam : s.status.family with
    | cp =>
      rw [hfam] at hp hct
      exact ⟨hp, hpos, hct⟩
    | gcm =>
      rw [hfam] at hp hct
      exact ⟨hp, hpos, hct⟩
    | stream => exact absurd hfam hf
  · exact State.keysDerived_of_moved hf rfl rfl (ksXor_frame _ _ _).2 (h.xorData_good h.ks_good d).ctr hk h.keys
  · simp only [State.stageRule, State.moved_status, State.moved_auth, hclosed, if_true, hk.ctLen]
    have hfed := engineUpdate_stage s.status.family s.auth (s.xorData d).out (by omega)
    show (engineUpdate _ _ _).stage.length = _
    omega

/-- UPDATE of a STREAM session that is not exhausted (R273). -/
theorem State.SessionInv.streamXor {s : State} (h : s.SessionInv) (hf : s.status.family = .stream) (d : List Byte) :
    (s.withKs (s.xorData d).ks).SessionInv := by
  have hkeys := h.keys
  simp only [State.keysDerived, hf] at hkeys
  obtain ⟨hsched, hauth, hj0⟩ := hkeys
  refine h.withXor d ?_ ?_ h.stage h.acc rfl
  · have hb := h.buffer
    simp only [State.bufferRule, State.moved_status, hf] at hb ⊢
    exact hb
  · simp only [State.keysDerived, State.moved_status, hf]
    exact ⟨hsched, hauth, (ksXor_frame _ _ _).2.trans hj0⟩

/-- A command that closes the AAD, writes bytes within its destination and consumes the session leaves a good state (R277). -/
theorem State.Inv.of_ending {s u : State} {b : List Byte} {code : ErrCode} {r : Word} (h : s.Inv) (hu : s.Ending u b)
    (hfit : s.args.a2.toNat + b.length ≤ s.cfg.dmemSize) : (u.consume.complete code r).Inv := by
  obtain ⟨hcfg, -⟩ := hu.sameHost
  have hw := h.memWrite s.args.a2.toNat b hfit
  refine (State.Inv.of_consume (by rw [hcfg]; exact h.cfg) (by rw [hu.dmem]; exact hw.memWf) ?_).complete code r
  rw [hu.dmem, hcfg]
  exact hw.memRange

/-- UPDATE of a STREAM session keeps a good state good (R273). -/
theorem State.Inv.updateStream {s : State} (h : s.Inv) (hL : s.dataLegal) (hf : s.status.family = .stream) :
    (Machine.updateStream s).Inv := by
  have hdst := hL.2.2
  have hl := s.xorData_out_le s.srcBytes
  rw [State.srcBytes_length] at hl
  rcases updateStream_cases s with ⟨-, e⟩ | ⟨hfit, -, e⟩ | ⟨hfit, -, e⟩ <;> rw [e]
  · exact h.complete _ _
  · exact h.of_ending ⟨rfl, rfl, rfl, ⟨rfl, rfl, rfl, rfl, rfl⟩, rfl⟩ (by omega)
  · have hcl := h.closeAad hL.active
    have hact : s.closeAad.status.active = true := by simp [Status.active]
    have hgood : (s.closeAad.withKs (s.xorData s.srcBytes).ks).Inv :=
      hcl.of_session hact rfl rfl rfl ((hcl.session hact).streamXor hf s.srcBytes)
    exact (hgood.memWrite s.args.a2.toNat _ (by simp only [State.withKs_cfg, State.closeAad_cfg]; omega)).complete _ _

/-- UPDATE of an encrypting CP or GCM session keeps a good state good (R271). -/
theorem State.Inv.updateEncrypt {s : State} (h : s.Inv) (hL : s.dataLegal) (hf : s.status.family ≠ .stream)
    (hd : s.status.dir = .encrypt) : (Machine.updateEncrypt s).Inv := by
  have hdst := hL.2.2
  have hblk := (h.session hL.active).block_eq hf
  have hwhole := wholeBlocks_le s.pending.length s.session.block
  have hrest := Nat.mod_lt s.pending.length (hblk ▸ blockBytes_pos s.status.family)
  have hsplit := Nat.div_add_mod' s.pending.length s.session.block
  have hcases := updateEncrypt_cases s
  simp only [wholeBlocks] at hwhole
  generalize hq : s.pending.length / s.session.block = q at hwhole hsplit hcases
  generalize hk : q * s.session.block = k at hwhole hsplit hcases
  have hlen : (s.pending.take k).length = k := by rw [List.length_take, Nat.min_eq_left hwhole]
  have hl := s.xorData_out_le (s.pending.take k)
  rw [hlen] at hl
  rcases hcases with ⟨-, e⟩ | ⟨hfit, -, e⟩ | ⟨hfit, hx, e⟩ <;> rw [e]
  · exact h.complete _ _
  · exact h.of_ending ⟨rfl, rfl, rfl, ⟨rfl, rfl, rfl, rfl, rfl⟩, rfl⟩ (by omega)
  · have hcl := h.closeAad hL.active
    have hact : s.closeAad.status.active = true := by simp [Status.active]
    have hS := (hcl.session hact).encryptBlocks hf hd rfl (d := s.pending.take k) (p := s.pending.drop k) (q := q)
      (by rw [hlen, ← hk, hblk]; rfl)
      (by rw [List.length_drop, State.closeAad_status, Status.dataOpen_family, ← hblk]; omega) hx
    have hgood : (((s.closeAad.withPbuf (s.pending.drop k)).withKs (s.xorData (s.pending.take k)).ks).absorbData
        (s.xorData (s.pending.take k)).out).Inv := hcl.of_session hact rfl rfl rfl hS
    have hw := hgood.memWrite s.args.a2.toNat (s.xorData (s.pending.take k)).out
    simp only [State.absorbData_cfg, State.withKs_cfg, State.withPbuf_cfg, State.closeAad_cfg] at hw
    exact (hw (by omega)).complete _ _

/-- UPDATE keeps a good state good (R270). -/
theorem State.Inv.exec_update {s t : State} (h : s.Inv) (he : exec .update s = .next t) : t.Inv := by
  rcases execUpdate_cases s with ⟨c, -, e⟩ | ⟨hn, e⟩ <;> simp only [exec, e] at he <;> cases he
  · exact h.complete _ _
  have hL := (State.dataLegal_iff s).mpr hn
  rcases updateBody_cases s with ⟨hf, e⟩ | ⟨hf, hd, e⟩ | ⟨hf, hd, e⟩ <;> rw [e]
  · exact h.updateStream hL hf
  · exact h.updateEncrypt hL hf hd
  · exact h.updateDecrypt hL.active hf hd

/-! ### FINALIZE -/

/-- FINALIZE of an encrypting CP or GCM session keeps a good state good: ciphertext and tag fit the destination (R274). -/
theorem State.Inv.finalizeEncrypt {s : State} (h : s.Inv) (hL : s.dataLegal) (hf : s.status.family ≠ .stream) :
    (Machine.finalizeEncrypt s).Inv := by
  have hdst := hL.2.2
  have hl := s.xorData_out_le s.pending
  rcases finalizeEncrypt_cases hf with ⟨-, e⟩ | ⟨hfit, -, e⟩ | ⟨hfit, -, e⟩ <;> rw [e]
  · exact h.complete _ _
  · exact h.of_ending ⟨rfl, rfl, rfl, ⟨rfl, rfl, rfl, rfl, rfl⟩, rfl⟩ (by omega)
  · have htag := (h.session hL.active).authTag_length hf (State.authWith_ej0 s (s.xorData s.pending).out)
    refine h.of_ending ⟨rfl, rfl, rfl, ⟨rfl, rfl, rfl, rfl, rfl⟩, rfl⟩ ?_
    rw [List.length_append, htag]
    omega

/-- FINALIZE keeps a good state good (R270). -/
theorem State.Inv.exec_finalize {s t : State} (h : s.Inv) (he : exec .finalize s = .next t) : t.Inv := by
  cases execFinalize_outcome he with
  | fail code _ ht => exact ht ▸ h.complete _ _
  | consume _ hL u code b r ht _ hu hb =>
    rcases hb with hb | ⟨hf, hd, -⟩
    · have hdst := hL.2.2
      exact ht ▸ h.of_ending hu (by omega)
    · rw [hL.finalize] at he
      cases he
      rcases finalizeBody_cases s with ⟨hs, -⟩ | ⟨-, -, e⟩ | ⟨-, hs, -⟩
      · exact absurd hs hf
      · exact e ▸ h.finalizeEncrypt hL hf
      · simp [hd] at hs
  | init _ _ _ _ _ hi => cases hi
  | aadEmpty hi => cases hi
  | aad hi => cases hi
  | size _ hi => cases hi
  | abort hi => cases hi
  | update hi => cases hi

/-! ### Any command, any event -/

/-- Every command keeps a good state good (R38). -/
theorem State.Inv.exec {s t : State} (h : s.Inv) {i : Instr} (he : Machine.exec i s = .next t) : t.Inv := by
  cases i with
  | init m f n =>
    rcases execInit_cases m f n s with ⟨c, e⟩ | ⟨dir, fam, -, -, hn, e⟩ <;>
      simp only [Machine.exec, e] at he <;> cases he
    · exact h.complete _ _
    · exact (h.initCommit hn).complete _ _
  | updateAad =>
    rcases execUpdateAad_cases s with ⟨c, -, e⟩ | ⟨-, -, e⟩ | ⟨hn, -, e⟩ <;>
      simp only [Machine.exec, e] at he <;> cases he
    · exact h.complete _ _
    · exact h.complete _ _
    · exact (h.tookAad hn).complete _ _
  | update => exact h.exec_update he
  | finalize => exact h.exec_finalize he
  | outputSize final =>
    rcases execOutputSize_cases final s with ⟨-, e⟩ | ⟨-, e⟩ <;> simp only [Machine.exec, e] at he <;> cases he <;>
      exact h.complete _ _
  | abort =>
    cases he
    exact h.abort.complete _ _

/-- The invariant does not look at what the host does next (log entry 3). -/
theorem State.Inv.withBus {s : State} (h : s.Inv) (bus : List BusEvent) : ({ s with bus := bus } : State).Inv :=
  h.congr rfl rfl rfl rfl rfl rfl rfl rfl rfl rfl rfl rfl h.memWf h.memRange

/-- One host access keeps a good state good. -/
theorem State.Inv.busAccess {s t : State} (h : s.Inv) {a : Access} (he : Machine.busAccess s a = .next t) : t.Inv := by
  rcases busAccess_effect he with ⟨v, rfl⟩ | ⟨off, v, rfl⟩ | ⟨x, b, hfit, rfl⟩ | ⟨-, w, -, hc⟩
  · exact h.congr rfl rfl rfl rfl rfl rfl rfl rfl rfl rfl rfl rfl h.memWf h.memRange
  · exact h.congr rfl rfl rfl rfl rfl rfl rfl rfl rfl rfl rfl rfl h.memWf h.memRange
  · exact h.memWrite x b hfit
  · rcases issueCommand_next hc with ⟨i, -, hi⟩ | ⟨-, rfl⟩
    · exact h.exec hi
    · exact h.complete _ _

/-- Settles O56: the step performs one bus event, and each of its kinds keeps the machine good. -/
theorem everyStepKeepsTheInvariant : Obligations.EveryStepKeepsTheInvariant := by
  intro s t h hstep
  unfold step at hstep
  split at hstep
  · cases hstep
    exact h
  next e rest _ =>
    cases e with
    | access a => exact (h.withBus rest).busAccess hstep
    | reset =>
      cases hstep
      exact .of_resetWith h.cfg _ _
    | foreign a => cases hstep

end Sys2Proof.Machine
end

section
/-! PROOFS. The register block and the bus (O5, O8, O9, O10, O14): what a step with a host access at the front of the bus does,
what a read answers, and what an access that is no command leaves unchanged (R20 to R30, R37, R80). -/

namespace Sys2Proof.Machine

/-! ## A step with a register access first -/

/-- A write to CMD issues the command (R21). -/
theorem step_cmdWrite (s : State) (rest : List BusEvent) (w : Word) :
    step { s with bus := .access (regWrite s.cfg 0x00 w) :: rest } = issueCommand w { s with bus := rest } :=
  step_withCommand { s with bus := rest } w

/-- A write to a register word other than CMD (R20, R73). -/
theorem step_regWrite (s : State) (rest : List BusEvent) (v : Word) {off : Nat} (h64 : off < 64) (h4 : off % 4 = 0)
    (h0 : off ≠ 0) :
    step { s with bus := .access (regWrite s.cfg off v) :: rest } = .next ({ s with bus := rest }.writeReg off v) := by
  simp [step, busEvent, busAccess, regWrite, regAccess, h64, h4, h0]

/-- A read of a register word answers it and changes nothing else (R20, R73, R80). -/
theorem step_regRead (s : State) (rest : List BusEvent) {off : Nat} {v : Word} (h64 : off < 64) (h4 : off % 4 = 0)
    (hv : s.readReg off = v) :
    step { s with bus := .access (regRead s.cfg off) :: rest } = .next { s with bus := rest, readData := v } := by
  have hread : ({ s with bus := rest } : State).readReg off = v := hv
  simp [step, busEvent, busAccess, regRead, regAccess, h64, h4, hread, State.answerRead]

/-- A step that meets the reset input (R350). -/
theorem step_reset (s : State) (rest : List BusEvent) :
    step { s with bus := .reset :: rest } = .next (State.resetWith s.cfg (s.epoch + 1) rest) := rfl

/-- STATUS reads 0 after reset (R22). -/
theorem Status.reset_word : Status.reset.word = 0#32 := by decide

/-- After reset every register word reads 0 (R20, R22, R28, R29, R350). -/
theorem readReg_resetWith (c : Config) (epoch : Nat) (bus : List BusEvent) (off : Nat) :
    (State.resetWith c epoch bus).readReg off = 0#32 := by
  unfold State.readReg
  split
  · exact Status.reset_word
  · split_ifs <;> rfl

/-- A register word other than the ARG written reads as before (R20, R29). -/
theorem readReg_writeReg_of_ne (s : State) (v : Word) {off off' : Nat} (h : off ∈ [0x10, 0x14, 0x18, 0x1C, 0x20])
    (hne : off' ≠ off) : (s.writeReg off v).readReg off' = s.readReg off' := by
  simp only [List.mem_cons, List.not_mem_nil, or_false] at h
  rcases h with rfl | rfl | rfl | rfl | rfl <;> simp [State.readReg, Args.write, hne]

/-- An ARG register reads what was written to it (R29). -/
theorem readReg_writeReg_same (s : State) (v : Word) {off : Nat} (h : off ∈ [0x10, 0x14, 0x18, 0x1C, 0x20]) :
    (s.writeReg off v).readReg off = v := by
  simp only [List.mem_cons, List.not_mem_nil, or_false] at h
  rcases h with rfl | rfl | rfl | rfl | rfl <;> rfl

/-- A table word stands for the command that its bits, zero-extended to a CMD word, decode to (R97, R103). -/
theorem decodeTableWord_eq_some {nbits w : Nat} {i : Instr} (h : decodeTableWord nbits w = some i) :
    decode (BitVec.ofNat 32 (w % 2 ^ nbits)) = .ok i := by
  unfold decodeTableWord at h
  split at h
  next j hj =>
    cases h
    exact hj
  · cases h

theorem issueCommand_of_decode {w : Word} {i : Instr} (h : decode w = .ok i) (s : State) : issueCommand w s = exec i s := by
  simp [issueCommand, h]

/-- Settles O5: a CMD write at the front of the bus is the command its word decodes to. -/
theorem stepRunsTheWrittenCommand : Obligations.StepRunsTheWrittenCommand := by
  refine ⟨fun s w i rest hd => ?_, fun s nbits w i hd => ?_, fun s rest => ?_⟩
  · rw [step_cmdWrite, issueCommand_of_decode hd]
  · rw [State.withFetchWord, step_withCommand, issueCommand_of_decode (decodeTableWord_eq_some hd)]
  · exact step_regRead s rest (by decide) (by decide) rfl

/-- Settles O8: each of the 16 words is read through `readReg` and written through `Args.write`. -/
theorem registerBlockMap : Obligations.RegisterBlockMap := by
  intro s rest
  refine ⟨fun p hp => ?_, fun v off hoff => ?_, fun v p hp => ?_⟩
  · have hform : p.1 < 64 ∧ p.1 % 4 = 0 ∧ s.readReg p.1 = p.2 := by
      simp only [List.mem_cons, List.not_mem_nil, or_false] at hp
      rcases hp with rfl | rfl | rfl | rfl | rfl | rfl | rfl | rfl | rfl | rfl | rfl | rfl | rfl | rfl | rfl | rfl <;>
        exact ⟨by norm_num, by norm_num, rfl⟩
    obtain ⟨h64, h4, hread⟩ := hform
    refine ⟨step_regRead s rest h64 h4 hread, fun t ht => ?_⟩
    rw [step_reset] at ht
    cases ht
    exact step_regRead (State.resetWith s.cfg (s.epoch + 1) rest) rest h64 h4 (readReg_resetWith ..)
  · simp only [List.mem_cons, List.not_mem_nil, or_false] at hoff
    rcases hoff with rfl | rfl | rfl | rfl | rfl | rfl | rfl | rfl | rfl | rfl <;>
      exact step_regWrite s rest v (by decide) (by decide) (by decide)
  · simp only [List.mem_cons, List.not_mem_nil, or_false] at hp
    rcases hp with rfl | rfl | rfl | rfl | rfl <;>
      exact step_regWrite s rest v (by norm_num) (by norm_num) (by norm_num)

/-! ## The STATUS word -/

theorem ErrCode.code_lt (c : ErrCode) : c.code < 16 := by cases c <;> decide

theorem Phase.code_lt (p : Phase) : p.code < 8 := by cases p <;> decide

theorem Family.code_lt (f : Family) : f.code < 4 := by cases f <;> decide

theorem Dir.code_lt (d : Dir) : d.code < 2 := by cases d <;> decide

/-- The number of the STATUS word is the sum of its fields at their places: it fits 13 bits (R22). -/
theorem Status.word_toNat (st : Status) :
    st.word.toNat = st.err.code + st.phase.code * 2 ^ 4 + st.family.code * 2 ^ 8 + st.dir.code * 2 ^ 10 +
      st.reinitRequired.toNat * 2 ^ 11 + st.aadClosed.toNat * 2 ^ 12 ∧ st.word.toNat < 2 ^ 13 := by
  have h1 := st.err.code_lt
  have h2 := st.phase.code_lt
  have h3 := st.family.code_lt
  have h4 := st.dir.code_lt
  have h5 := st.reinitRequired.toNat_lt
  have h6 := st.aadClosed.toNat_lt
  simp only [Status.word, BitVec.toNat_ofNat]
  omega

/-- A bit of a word, from its number. -/
theorem word_getLsbD (w : Word) (b : Nat) : w.getLsbD b = decide (w.toNat / 2 ^ b % 2 = 1) := by
  rw [← BitVec.testBit_toNat, Nat.testBit_eq_decide_div_mod_eq]

/-- The fields of the STATUS word by their places (R22). -/
theorem Status.word_fields (st : Status) :
    st.word.toNat % 16 = st.err.code ∧ st.word.toNat / 2 ^ 4 % 8 = st.phase.code ∧ st.word.toNat / 2 ^ 7 % 2 = 0 ∧
    st.word.toNat / 2 ^ 8 % 4 = st.family.code ∧ st.word.toNat / 2 ^ 10 % 2 = st.dir.code ∧
    st.word.toNat / 2 ^ 11 % 2 = st.reinitRequired.toNat ∧ st.word.toNat / 2 ^ 12 % 2 = st.aadClosed.toNat := by
  have h1 := st.err.code_lt
  have h2 := st.phase.code_lt
  have h3 := st.family.code_lt
  have h4 := st.dir.code_lt
  have h5 := st.reinitRequired.toNat_lt
  have h6 := st.aadClosed.toNat_lt
  rw [st.word_toNat.1]
  omega

/-- An access that is no write to CMD leaves STATUS alone (R22). -/
theorem busAccess_status {s t : State} {a : Access} (h : busAccess s a = .next t)
    (hn : ¬ (a.addr = s.cfg.regBase ∧ ∃ w, a.op = .write w)) : t.status = s.status := by
  rcases busAccess_effect h with ⟨_, rfl⟩ | ⟨_, _, rfl⟩ | ⟨_, _, -, rfl⟩ | ⟨ha, w, hw, -⟩
  · rfl
  · rfl
  · rfl
  · exact absurd ⟨ha, w, hw⟩ hn

/-- Settles O9: the STATUS word is the sum of its fields, each within its own bits. -/
theorem statusWordAndWriters : Obligations.StatusWordAndWriters := by
  refine ⟨fun st => ?_, fun s t rest h => ?_, fun s t a h hn => busAccess_status h hn⟩
  · obtain ⟨herr, hphase, h7, hfam, hdir, hre, hcl⟩ := st.word_fields
    refine ⟨?_, ?_, ?_, ?_, ?_, ?_, ?_, fun b hb => ?_⟩
    · rw [herr]
      cases st.err <;> rfl
    · rw [hphase]
      cases st.phase <;> rfl
    · rw [word_getLsbD, h7]
      rfl
    · rw [hfam]
      cases st.family <;> rfl
    · rw [word_getLsbD, hdir]
      cases st.dir <;> rfl
    · rw [word_getLsbD, hre]
      cases st.reinitRequired <;> rfl
    · rw [word_getLsbD, hcl]
      cases st.aadClosed <;> rfl
    · exact BitVec.testBit_toNat _ ▸
        Nat.testBit_lt_two_pow (st.word_toNat.2.trans_le (Nat.pow_le_pow_right (by decide) hb))
  · rw [step_reset] at h
    cases h
    exact Status.reset_word

/-! ## What a read answers -/

/-- What a read answers, written from the registers and DMEM (R20, R70, R72). -/
def State.readValue (s : State) (a : Access) : Word :=
  if s.cfg.regBase ≤ a.addr ∧ a.addr < s.cfg.regBase + 64 then s.readReg (a.addr - s.cfg.regBase)
  else if a.bytes = 1 then (s.readByte (a.addr - s.cfg.dmemBase)).setWidth 32
  else s.readWord (a.addr - s.cfg.dmemBase)

/-- A read that completes answers `readValue` (R20, R72). -/
theorem busAccess_read {s t : State} {a : Access} (hr : a.op = .read) (h : busAccess s a = .next t) :
    t.readData = s.readValue a := by
  unfold State.readValue
  rcases busAccess_next h with ⟨hlo, hhi, h⟩ | ⟨hout, -, h⟩
  · rw [if_pos ⟨hlo, hhi⟩]
    obtain ⟨-, -, ⟨-, rfl⟩ | ⟨w, hw, -⟩ | ⟨w, hw, -⟩⟩ := regAccess_next h
    · rfl
    · simp [hr] at hw
    · simp [hr] at hw
  · rw [if_neg hout]
    rcases dmemAccess_next h with ⟨h1, -, ⟨-, rfl⟩ | ⟨w, hw, -⟩⟩ | ⟨h4, -, -, ⟨-, rfl⟩ | ⟨w, hw, -⟩⟩
    · rw [if_pos h1]
      rfl
    · simp [hr] at hw
    · rw [if_neg (by omega)]
      rfl
    · simp [hr] at hw

/-- What a read answers depends on the parameters, STATUS, RESULT, the ARG registers and the bytes of DMEM alone (R37). -/
theorem State.readValue_congr {s t : State} (hcfg : t.cfg = s.cfg) (hst : t.status = s.status) (hres : t.result = s.result)
    (hargs : t.args = s.args) (hmem : ∀ x, t.readByte x = s.readByte x) (a : Access) : t.readValue a = s.readValue a := by
  simp only [State.readValue, State.readReg, State.readWord, State.memRead, hcfg, hst, hres, hargs, hmem]

/-- Settles O14: a read answers a function of the visible state. -/
theorem hostReadsSeeOnlyVisibleState : Obligations.HostReadsSeeOnlyVisibleState := by
  intro s t s' t' a hr hcfg hst hres hargs hmem hs ht
  rw [busAccess_read hr hs, busAccess_read hr ht, State.readValue_congr hcfg hst hres hargs hmem]

/-! ## The ARG registers -/

/-- No command changes the parameters, the ARG registers or the model's own fields (R29). -/
theorem exec_sameHost {i : Instr} {s t : State} (h : exec i s = .next t) : s.sameHost t := by
  cases exec_outcome h with
  | fail code _ ht => exact ht ▸ ⟨rfl, rfl, rfl, rfl, rfl⟩
  | init dir fam n m f _ _ _ _ ht => cases dir <;> exact ht ▸ ⟨rfl, rfl, rfl, rfl, rfl⟩
  | aadEmpty _ _ _ ht => exact ht ▸ ⟨rfl, rfl, rfl, rfl, rfl⟩
  | aad _ _ _ ht => exact ht ▸ ⟨rfl, rfl, rfl, rfl, rfl⟩
  | size _ _ _ ht => exact ht ▸ ⟨rfl, rfl, rfl, rfl, rfl⟩
  | abort _ ht => exact ht ▸ ⟨rfl, rfl, rfl, rfl, rfl⟩
  | update _ _ _ _ _ _ _ _ _ _ ht => exact ht ▸ ⟨rfl, rfl, rfl, rfl, rfl⟩
  | consume _ _ u _ _ _ ht _ hu => exact ht ▸ hu.sameHost

/-- Settles O20: by the ways a command can end. -/
theorem commandsKeepTheHostSide : Obligations.CommandsKeepTheHostSide :=
  fun _ _ _ h => exec_sameHost h

/-- Settles O10: a write to an ARG offset lands in that register alone, and no command writes one. -/
theorem argRegistersHoldWhatTheHostWrote : Obligations.ArgRegistersHoldWhatTheHostWrote := by
  refine ⟨fun s v rest off hoff => ?_, fun i s t h => (exec_sameHost h).2.1⟩
  have hform : off < 64 ∧ off % 4 = 0 ∧ off ≠ 0 := by
    simp only [List.mem_cons, List.not_mem_nil, or_false] at hoff
    omega
  obtain ⟨h64, h4, h0⟩ := hform
  exact ⟨_, step_regWrite s _ v h64 h4 h0,
    step_regRead ({ s with bus := rest }.writeReg off v) rest h64 h4 (readReg_writeReg_same _ v hoff),
    fun off' _ hne => readReg_writeReg_of_ne s v hoff hne⟩

end Sys2Proof.Machine
end

section
/-! PROOFS. STATUS and the guard slots (O23 to O27): what any command does to STATE, FAMILY, DIR, REINIT_REQUIRED and AAD_CLOSED
(R24 to R27), and who writes and reads a guard slot (R33). -/

namespace Sys2Proof.Machine

/-! ## STATUS after a command -/

/-- The ways a command `i` at `s` can leave STATUS (R22 to R27). -/
inductive StatusOutcome (i : Instr) (s : State) : Status → Prop
  /-- A check failed (R323). -/
  | fail (code : ErrCode) (hi : i ≠ .abort) (hok : code ≠ .ok) (htag : code ≠ .authenticationFailed)
      (hks : code ≠ .counterExhausted) : StatusOutcome i s { s.status with err := code }
  /-- INIT committed (R233, R236). -/
  | started (m : Opmode) (f : FamilyField) (n : Nat) (fam : Family) (dir : Dir) (hi : i = .init m f n)
      (hd : dirOf m = some dir) (hf : familyOf f = some fam) :
      StatusOutcome i s { s.status.started fam dir with err := .ok }
  /-- UPDATE_AAD of no bytes (R243). -/
  | aadEmpty (hi : i = .updateAad) (ha : s.status.acceptsAad = true) (h0 : s.args.a1.toNat = 0) :
      StatusOutcome i s { s.status with err := .ok }
  /-- UPDATE_AAD took bytes (R242). -/
  | tookAad (hi : i = .updateAad) (ha : s.status.acceptsAad = true) (h0 : s.args.a1.toNat ≠ 0) :
      StatusOutcome i s { s.status.tookAad with err := .ok }
  /-- OUTPUT_SIZE (R246). -/
  | size (final : Bool) (hi : i = .outputSize final) : StatusOutcome i s { s.status with err := .ok }
  /-- ABORT (R250). -/
  | aborted (hi : i = .abort) : StatusOutcome i s { s.status.aborted with err := .ok }
  /-- UPDATE completed OK (R270). -/
  | dataOpen (hi : i = .update) (ha : s.status.active = true) : StatusOutcome i s { s.status.dataOpen with err := .ok }
  /-- FINALIZE passed its checks, or UPDATE met exhaustion (R277). -/
  | consumed (code : ErrCode) (ha : s.status.active = true)
      (hi : i = .finalize ∧ (code = .ok ∨ code = .counterExhausted ∨ code = .authenticationFailed) ∨
        i = .update ∧ code = .counterExhausted) :
      StatusOutcome i s { s.status.dataOpen.consumed with err := code }

/-- Every command leaves STATUS in one of these ways (R22 to R27). -/
theorem exec_status {i : Instr} {s t : State} (h : exec i s = .next t) : StatusOutcome i s t.status := by
  cases exec_outcome h with
  | fail code hc ht =>
    refine ht ▸ .fail code ?_ hc.1 hc.2.1 hc.2.2
    rintro rfl
    have hok : t.status.err = .ok := by
      cases h
      rfl
    rw [ht] at hok
    exact hc.1 hok
  | init dir fam n m f hi hd hf _ ht => exact ht ▸ .started m f n fam dir hi hd hf
  | aadEmpty hi he h0 ht => exact ht ▸ .aadEmpty hi (aadErrors_eq_none.mp he).1 h0
  | aad hi he h0 ht => exact ht ▸ .tookAad hi (aadErrors_eq_none.mp he).1 h0
  | size final hi _ ht => exact ht ▸ .size final hi
  | abort hi ht => exact ht ▸ .aborted hi
  | update hi hL _ _ _ _ _ _ _ _ ht => exact ht ▸ .dataOpen hi hL.active
  | consume hi hL u code b r ht hc hu =>
    have hst : t.status = { s.status.dataOpen.consumed with err := code } := by rw [ht, ← hu.status]; rfl
    rw [hst]
    refine .consumed code hL.active ?_
    rcases hi with rfl | rfl
    · exact .inl ⟨rfl, by rcases hc with ⟨rfl, -⟩ | ⟨rfl, -⟩ | rfl <;> simp⟩
    · exact .inr ⟨rfl, by simpa using hc⟩

/-- An access that issues no command that decodes changes at most ERR of STATUS (R22, R101). -/
theorem busAccess_status_of_noCommand {s t : State} {a : Access} (h : busAccess s a = .next t)
    (hn : ¬ (a.addr = s.cfg.regBase ∧ ∃ w i, a.op = .write w ∧ decode w = .ok i)) :
    ∃ code, t.status = { s.status with err := code } := by
  rcases busAccess_effect h with ⟨_, rfl⟩ | ⟨_, _, rfl⟩ | ⟨_, _, -, rfl⟩ | ⟨ha, w, hw, hc⟩
  · exact ⟨_, rfl⟩
  · exact ⟨_, rfl⟩
  · exact ⟨_, rfl⟩
  · rcases issueCommand_next hc with ⟨i, hd, -⟩ | ⟨-, rfl⟩
    · exact absurd ⟨ha, w, i, hw, hd⟩ hn
    · exact ⟨_, rfl⟩

/-- Settles O24: the table of R24 by the ways a command can leave STATUS. -/
theorem stateFollowsTheTransitionTable : Obligations.StateFollowsTheTransitionTable := by
  refine ⟨fun i s t h => ?_, fun s t rest h => ?_, fun s t a h hn => ?_⟩
  · have hst := exec_status h
    generalize t.status = st at hst
    cases hst with
    | fail code hi hok htag hks => cases i <;> simp [hok, htag, hks] at hi ⊢
    | started m f n fam dir hi => simp [hi]
    | aadEmpty hi ha h0 => simpa [hi, h0] using (Status.acceptsAad_iff _).mp ha
    | tookAad hi ha h0 => simpa [hi, Nat.pos_of_ne_zero h0] using (Status.acceptsAad_iff _).mp ha
    | size final hi => simp [hi]
    | aborted hi => simp [hi]
    | dataOpen hi ha =>
      have := (Status.active_iff _).mp ha
      simp [hi, this]
    | consumed code ha hi =>
      have := (Status.active_iff _).mp ha
      rcases hi with ⟨rfl, rfl | rfl | rfl⟩ | ⟨rfl, rfl⟩ <;> simp [this]
  · rw [step_reset] at h
    cases h
    rfl
  · obtain ⟨code, e⟩ := busAccess_status_of_noCommand h hn
    rw [e]

theorem dirOf_eq_some {m : Opmode} {dir : Dir} (h : dirOf m = some dir) :
    m = .encrypt ∧ dir = .encrypt ∨ m = .decrypt ∧ dir = .decrypt := by
  cases m <;> cases h <;> simp

theorem familyOf_eq_some {f : FamilyField} {fam : Family} (h : familyOf f = some fam) :
    f = .cp ∧ fam = .cp ∨ f = .gcm ∧ fam = .gcm ∨ f = .stream ∧ fam = .stream := by
  cases f <;> cases h <;> simp

/-- Settles O25: FAMILY and DIR move in a successful INIT and in ABORT alone. -/
theorem familyAndDirAreTheLastInits : Obligations.FamilyAndDirAreTheLastInits := by
  refine ⟨fun i s t h => ?_, fun s t rest h => ?_, fun s t a h hn => ?_⟩
  · have hst := exec_status h
    generalize t.status = st at hst
    cases hst with
    | fail code hi hok => cases i <;> simp [hok] at hi ⊢
    | started m f n fam dir hi hd hf =>
      subst hi
      refine ⟨fun m' f' n' e _ => ?_, fun hfail => ?_, nofun, fun _ => nofun⟩
      · cases e
        exact ⟨dirOf_eq_some hd, familyOf_eq_some hf⟩
      · exact absurd rfl (hfail m f n rfl)
    | aadEmpty hi => simp [hi]
    | tookAad hi => simp [hi]
    | size final hi => simp [hi]
    | aborted hi => simp [hi]
    | dataOpen hi => simp [hi]
    | consumed code _ hi => rcases hi with ⟨rfl, -⟩ | ⟨rfl, -⟩ <;> simp
  · rw [step_reset] at h
    cases h
    exact ⟨rfl, rfl, rfl⟩
  · obtain ⟨code, e⟩ := busAccess_status_of_noCommand h hn
    rw [e]
    exact ⟨rfl, rfl⟩

/-- A consumed session turns every command but INIT and ABORT away (R26, R240, R245, R284). -/
theorem exec_of_finalized {i : Instr} {s : State} (hp : s.status.phase = .finalized) (hi : ∀ m f n, i ≠ .init m f n)
    (ha : i ≠ .abort) : exec i s = .next (s.failed .illegalState) := by
  have hact : s.status.active = false := (Status.active_eq_false_iff _).mpr (.inr hp)
  have hdata : dataErrors s = some .illegalState := by simp [dataErrors, firstError_cons, hact]
  have haad : aadErrors s = some .illegalState := by simp [aadErrors, firstError_cons, Status.acceptsAad, hp]
  cases i with
  | init m f n => exact absurd rfl (hi m f n)
  | updateAad =>
    simp only [exec, execUpdateAad, haad]
    rfl
  | update =>
    simp only [exec, execUpdate, hdata]
    rfl
  | finalize =>
    simp only [exec, execFinalize, hdata]
    rfl
  | outputSize final =>
    simp only [exec, execOutputSize, hact]
    rfl
  | abort => exact absurd rfl ha

/-- Settles O26: REINIT_REQUIRED moves in Consume and in a successful INIT alone. -/
theorem reinitRequiredMarksSpentSessions : Obligations.ReinitRequiredMarksSpentSessions := by
  refine ⟨fun i s t h => ⟨?_, fun hp hi ha => ?_⟩, fun s t a h hn => ?_⟩
  · have hst := exec_status h
    generalize t.status = st at hst
    cases hst with
    | fail code hi hok htag hks => cases i <;> simp [hok, htag, hks] at hi ⊢
    | started m f n fam dir hi => simp [hi]
    | aadEmpty hi => simp [hi]
    | tookAad hi => simp [hi]
    | size final hi => simp [hi]
    | aborted hi => simp [hi]
    | dataOpen hi => simp [hi]
    | consumed code _ hi =>
      rcases hi with ⟨rfl, rfl | rfl | rfl⟩ | ⟨rfl, rfl⟩ <;> cases hdir : s.status.dir <;> simp [hdir]
  · rw [exec_of_finalized hp hi ha] at h
    cases h
    rfl
  · obtain ⟨code, e⟩ := busAccess_status_of_noCommand h hn
    rw [e]

/-! ## AAD_CLOSED and the padding -/

/-- An UPDATE of a decrypting CP or GCM session that completes OK closes the AAD and absorbs nothing more (R272). -/
theorem update_decrypt_auth {s t : State} (h : exec .update s = .next t) (hf : s.status.family ≠ .stream)
    (hd : s.status.dir = .decrypt) (hok : t.status.err = .ok) : t.auth = s.authClosed := by
  cases execUpdate_outcome h with
  | update _ _ k a p b r _ _ hdec ht => exact ht ▸ (hdec hf hd).2
  | fail code hc ht =>
    rw [ht] at hok
    exact absurd hok hc.1
  | consume _ _ u code b r ht hc =>
    rw [ht] at hok
    obtain rfl : code = .ok := hok
    simp at hc
  | init _ _ _ _ _ hi => cases hi
  | aadEmpty hi => cases hi
  | aad hi => cases hi
  | size _ hi => cases hi
  | abort hi => cases hi

/-- An UPDATE of an encrypting CP or GCM session that completes OK closes the AAD and absorbs the ciphertext that it wrote
(R271). -/
theorem update_encrypt_auth {s t : State} (h : exec .update s = .next t) (hf : s.status.family ≠ .stream)
    (hd : s.status.dir = .encrypt) (hok : t.status.err = .ok) : t.auth = s.authWith (s.output t) := by
  rcases execUpdate_cases s with ⟨c, hc, e⟩ | ⟨-, e⟩ <;> simp only [exec, e] at h <;> cases h
  · obtain rfl : c = .ok := hok
    simpa using dataErrors_code hc
  have hbody : updateBody s = updateEncrypt s := by simp [updateBody, hf, hd]
  have hwhole := wholeBlocks_le s.pending.length s.session.block
  simp only [wholeBlocks] at hwhole
  rw [hbody] at hok ⊢
  rcases updateEncrypt_cases s with ⟨-, e⟩ | ⟨-, -, e⟩ | ⟨hfit, hx, e⟩ <;> rw [e] at hok ⊢
  · simp at hok
  · simp at hok
  · have hout := s.xorData_out_eq _ hx
    rw [List.length_take, Nat.min_eq_left hwhole] at hout
    have hread := State.memRead_of_write (s := s) (t := updateEncrypt s) (a := s.args.a2.toNat) (by rw [e]; rfl)
      (by rw [e]; rfl) (hout.trans (toNat_ofNat_of_le hfit).symm)
    rw [e] at hread
    exact (State.authWith_eq hf _).trans (congrArg s.authWith hread.symm)

theorem State.authClosed_open {s : State} (h : s.status.aadClosed = false) :
    s.authClosed = enginePad s.status.family s.auth := by
  simp [State.authClosed, h]

/-- Settles O27: AAD_CLOSED by the ways a command can leave STATUS, the authenticator by UPDATE's direction. -/
theorem aadClosedFollowsItsRule : Obligations.AadClosedFollowsItsRule := by
  intro i s t h
  refine ⟨?_, ?_, ?_⟩
  · have hst := exec_status h
    generalize t.status = st at hst
    cases hst with
    | fail code hi hok htag hks => cases i <;> simp [hok, htag, hks] at hi ⊢
    | started m f n fam dir hi => simp [hi]
    | aadEmpty hi => simp [hi]
    | tookAad hi => simp [hi]
    | size final hi => simp [hi]
    | aborted hi => simp [hi]
    | dataOpen hi => simp [hi]
    | consumed code _ hi => rcases hi with ⟨rfl, rfl | rfl | rfl⟩ | ⟨rfl, rfl⟩ <;> simp
  · rintro rfl hf hd hok hopen
    have hauth := (update_decrypt_auth h hf hd hok).trans (State.authClosed_open hopen)
    exact ⟨hauth ▸ enginePad_stage _ _, hauth⟩
  · rintro rfl hf hd hok
    refine ⟨update_encrypt_auth h hf hd hok, fun hopen => ?_⟩
    have hpad := State.authClosed_open hopen
    exact ⟨hpad, hpad ▸ enginePad_stage _ _⟩

/-! ## The guard slots -/

/-- The state with both guard slots replaced. -/
def State.withSlots (s : State) (g g' : GuardSlot) : State := { s with guardChacha := g, guardGcm := g' }

@[simp] theorem State.withSlots_status (s : State) (g g' : GuardSlot) : (s.withSlots g g').status = s.status := rfl

theorem updateStream_withSlots (s : State) (g g' : GuardSlot) :
    updateStream (s.withSlots g g') = (updateStream s).withSlots g g' := by
  simp only [updateStream, apply_ite (State.withSlots · g g')]
  rfl

theorem updateEncrypt_withSlots (s : State) (g g' : GuardSlot) :
    updateEncrypt (s.withSlots g g') = (updateEncrypt s).withSlots g g' := by
  simp only [updateEncrypt, apply_ite (State.withSlots · g g')]
  rfl

theorem updateDecrypt_withSlots (s : State) (g g' : GuardSlot) :
    updateDecrypt (s.withSlots g g') = (updateDecrypt s).withSlots g g' := by
  simp only [updateDecrypt, apply_ite (State.withSlots · g g')]
  rfl

theorem updateBody_withSlots (s : State) (g g' : GuardSlot) :
    updateBody (s.withSlots g g') = (updateBody s).withSlots g g' := by
  rcases updateBody_cases s with ⟨hf, e⟩ | ⟨hf, hd, e⟩ | ⟨hf, hd, e⟩ <;> rw [e]
  · rw [← updateStream_withSlots]
    simp [updateBody, hf]
  · rw [← updateEncrypt_withSlots]
    simp [updateBody, hf, hd]
  · rw [← updateDecrypt_withSlots]
    simp [updateBody, hf, hd]

theorem finalizeStream_withSlots (s : State) (g g' : GuardSlot) :
    finalizeStream (s.withSlots g g') = (finalizeStream s).withSlots g g' := by
  simp only [finalizeStream, apply_ite (State.withSlots · g g')]
  rfl

theorem finalizeEncrypt_withSlots (s : State) (g g' : GuardSlot) :
    finalizeEncrypt (s.withSlots g g') = (finalizeEncrypt s).withSlots g g' := by
  simp only [finalizeEncrypt, apply_ite (State.withSlots · g g')]
  rfl

theorem finalizeDecryptChecked_withSlots (s : State) (g g' : GuardSlot) (ct cand : List Byte) :
    finalizeDecryptChecked (s.withSlots g g') ct cand = (finalizeDecryptChecked s ct cand).withSlots g g' := by
  simp only [finalizeDecryptChecked, apply_ite (fun u : State => u.consume.raise .authenticationFailed),
    apply_ite (State.withSlots · g g')]
  rfl

theorem finalizeDecrypt_withSlots (s : State) (g g' : GuardSlot) :
    finalizeDecrypt (s.withSlots g g') = (finalizeDecrypt s).withSlots g g' := by
  simp only [finalizeDecrypt, apply_ite (State.withSlots · g g'), ← finalizeDecryptChecked_withSlots]
  rfl

theorem finalizeBody_withSlots (s : State) (g g' : GuardSlot) :
    finalizeBody (s.withSlots g g') = (finalizeBody s).withSlots g g' := by
  rcases finalizeBody_cases s with ⟨hf, e⟩ | ⟨hf, hd, e⟩ | ⟨hf, hd, e⟩ <;> rw [e]
  · rw [← finalizeStream_withSlots]
    simp [finalizeBody, hf]
  · rw [← finalizeEncrypt_withSlots]
    simp [finalizeBody, hf, hd]
  · rw [← finalizeDecrypt_withSlots]
    simp [finalizeBody, hf, hd]

/-- A command other than INIT reads no guard slot and keeps both (R33). -/
theorem exec_withSlots {i : Instr} {s t : State} (g g' : GuardSlot) (hi : ∀ m f n, i ≠ .init m f n)
    (h : exec i s = .next t) : exec i (s.withSlots g g') = .next (t.withSlots g g') := by
  have hdata : dataErrors (s.withSlots g g') = dataErrors s := rfl
  have haad : aadErrors (s.withSlots g g') = aadErrors s := rfl
  cases i with
  | init m f n => exact absurd rfl (hi m f n)
  | updateAad =>
    rcases execUpdateAad_cases s with ⟨c, hc, e⟩ | ⟨hn, h0, e⟩ | ⟨hn, h0, e⟩ <;>
      simp only [exec, e] at h <;> cases h
    · simp only [exec, execUpdateAad, haad, hc]
      rfl
    · simp only [exec, execUpdateAad, haad, hn]
      exact if_pos h0
    · simp only [exec, execUpdateAad, haad, hn]
      exact if_neg h0
  | update =>
    rcases execUpdate_cases s with ⟨c, hc, e⟩ | ⟨hn, e⟩ <;> simp only [exec, e] at h <;> cases h
    · simp only [exec, execUpdate, hdata, hc]
      rfl
    · simp only [exec, execUpdate, hdata, hn, updateBody_withSlots]
  | finalize =>
    rcases execFinalize_cases s with ⟨c, hc, e⟩ | ⟨hn, e⟩ <;> simp only [exec, e] at h <;> cases h
    · simp only [exec, execFinalize, hdata, hc]
      rfl
    · simp only [exec, execFinalize, hdata, hn, finalizeBody_withSlots]
  | outputSize final =>
    rcases execOutputSize_cases final s with ⟨ha, e⟩ | ⟨ha, e⟩ <;> simp only [exec, e] at h <;> cases h <;>
      simp only [exec, execOutputSize, State.withSlots_status, ha] <;> rfl
  | abort =>
    cases h
    rfl

/-- Only INIT's commit writes a guard slot, and then for an ENCRYPT session the one of its family (R33, R233). -/
theorem exec_guards {i : Instr} {s t : State} (h : exec i s = .next t) :
    (t.guardChacha = s.guardChacha ∧ t.guardGcm = s.guardGcm) ∨
    ∃ f fam n, i = .init .encrypt f n ∧ familyOf f = some fam ∧
      t = (initCommit s fam .encrypt n).complete .ok 0#32 := by
  cases exec_outcome h with
  | init dir fam n m f hi hd hf _ ht =>
    rcases dirOf_eq_some hd with ⟨rfl, rfl⟩ | ⟨rfl, rfl⟩
    · exact .inr ⟨f, fam, n, hi, hf, ht⟩
    · exact .inl (ht ▸ ⟨rfl, rfl⟩)
  | fail _ _ ht => exact .inl (ht ▸ ⟨rfl, rfl⟩)
  | aadEmpty _ _ _ ht => exact .inl (ht ▸ ⟨rfl, rfl⟩)
  | aad _ _ _ ht => exact .inl (ht ▸ ⟨rfl, rfl⟩)
  | size _ _ _ ht => exact .inl (ht ▸ ⟨rfl, rfl⟩)
  | abort _ ht => exact .inl (ht ▸ ⟨rfl, rfl⟩)
  | update _ _ _ _ _ _ _ _ _ _ ht => exact .inl (ht ▸ ⟨rfl, rfl⟩)
  | consume _ _ u _ _ _ ht _ hu => exact .inl (ht ▸ ⟨hu.guardChacha, hu.guardGcm⟩)

/-- Settles O23: INIT's commit is the one writer of the slots, and every other command runs the same whatever they hold. -/
theorem guardSlotsBelongToInit : Obligations.GuardSlotsBelongToInit := by
  refine ⟨fun i s t h => ?_, fun i s t g g' hi h => exec_withSlots g g' hi h, fun s t rest h => ?_⟩
  · rcases exec_guards h with ⟨hc, hg⟩ | ⟨f, fam, n, rfl, hf, rfl⟩
    · exact ⟨fun hne => absurd hc hne, fun hne => absurd hg hne⟩
    · rcases familyOf_eq_some hf with ⟨rfl, rfl⟩ | ⟨rfl, rfl⟩ | ⟨rfl, rfl⟩
      · exact ⟨fun _ => ⟨rfl, n, .inl rfl⟩, fun hne => absurd rfl hne⟩
      · exact ⟨fun hne => absurd rfl hne, fun _ => ⟨rfl, n, rfl⟩⟩
      · exact ⟨fun _ => ⟨rfl, n, .inr rfl⟩, fun hne => absurd rfl hne⟩
  · rw [step_reset] at h
    cases h
    exact ⟨rfl, rfl⟩

end Sys2Proof.Machine
end

section
/-! PROOFS. The host's side of the memory (O11, O12, O13, O15, O47): when an access faults, which bytes an access of DMEM reads and
writes, what an access leaves unchanged, and which commands store nothing (R70 to R73, R80, R85, R362). -/

namespace Sys2Proof.Machine

/-! ## Little-endian words -/

/-- Byte `i` of `enc_le` (R8). -/
theorem encLe_getElem (v n i : Nat) (h : i < (encLe v n).length) : (encLe v n)[i] = BitVec.ofNat 8 (v / 256 ^ i) := by
  induction n generalizing v i with
  | zero => simp [encLe] at h
  | succ n ih =>
    cases i with
    | zero => simp [encLe]
    | succ i => simp [encLe, ih, Nat.div_div_eq_div_mul, pow_succ']

/-- Byte `i` of a word's encoding is bits 8i to 8i+7 of the word (R8). -/
theorem encLe_toNat_getElem (v : Word) (n i : Nat) (h : i < (encLe v.toNat n).length) :
    (encLe v.toNat n)[i] = v.extractLsb' (8 * i) 8 := by
  apply BitVec.eq_of_toNat_eq
  rw [encLe_getElem, BitVec.toNat_ofNat, BitVec.extractLsb'_toNat, Nat.shiftRight_eq_div_pow, pow_mul]
  rfl

/-- `le32` undoes the encoding of a word: the word of 4 bytes encodes to them (R8). -/
theorem encLe_le32 {b : List Byte} (h : b.length = 4) : encLe (le32 b).toNat 4 = b := by
  have hlt := leNat_lt b
  rw [h] at hlt
  rw [le32, BitVec.toNat_ofNat, Nat.mod_eq_of_lt hlt, ← h, encLe_leNat]

/-- The bytes of the word at DMEM[a .. a+3] (R72). -/
theorem State.readWord_byte (s : State) (a : Nat) {i : Nat} (hi : i < 4) :
    (s.readWord a).extractLsb' (8 * i) 8 = s.readByte (a + i) := by
  have henc : encLe (s.readWord a).toNat 4 = s.memRead a 4 := encLe_le32 (s.memRead_length a 4)
  rw [← encLe_toNat_getElem _ 4 i (by simpa using hi), ← s.memRead_getElem a 4 i (by simpa using hi)]
  simp only [henc]

/-- The bytes of DMEM[a .. a+3] after a word is written there (R72). -/
theorem State.readByte_writeWord (s : State) (a : Nat) (v : Word) {i : Nat} (hi : i < 4) :
    (s.writeWord a v).readByte (a + i) = v.extractLsb' (8 * i) 8 := by
  have hlen : i < (encLe v.toNat 4).length := by simpa using hi
  rw [State.writeWord, State.readByte_memWrite_in _ _ _ hlen, encLe_toNat_getElem]

/-- A store changes no byte but its own (R72). -/
theorem State.sameOutside_memWrite (s : State) (a : Nat) (b : List Byte) : s.sameOutside (s.memWrite a b) a b.length :=
  State.sameOutside_of_write rfl rfl le_rfl

/-- A word's store changes no byte but its four (R72). -/
theorem State.sameOutside_writeWord (s : State) (a : Nat) (v : Word) : s.sameOutside (s.writeWord a v) a 4 := by
  simpa [State.writeWord] using s.sameOutside_memWrite a (encLe v.toNat 4)

/-- A byte zero-extended to a word is the word's low 8 bits (R7). -/
theorem byte_setWidth_extract (b : Byte) : (b.setWidth 32).extractLsb' 0 8 = b := by
  simp [← BitVec.setWidth_eq_extractLsb']

/-! ## A step with an access first -/

/-- An access at an offset of the register block (R20). -/
theorem step_regAccess (s : State) (rest : List BusEvent) {off : Nat} (n : Nat) (op : BusOp) (h : off < 64) :
    step { s with bus := .access ⟨s.cfg.regBase + off, n, op⟩ :: rest } = regAccess { s with bus := rest } off n op := by
  simp [step, busEvent, busAccess, h]

/-- An access at an address of DMEM that is none of the register block (R70, R72). -/
theorem step_dmemAccess (s : State) (rest : List BusEvent) {a : Nat} (n : Nat) (op : BusOp)
    (h : ¬ (s.cfg.regBase ≤ s.cfg.dmemBase + a ∧ s.cfg.dmemBase + a < s.cfg.regBase + 64)) :
    step { s with bus := .access ⟨s.cfg.dmemBase + a, n, op⟩ :: rest } = dmemAccess { s with bus := rest } a n op := by
  simp [step, busEvent, busAccess, h]

/-- With allowed parameters no address of DMEM is one of the register block (R70). -/
theorem Config.dmem_apart {c : Config} (hc : c.wf) {a : Nat} (ha : a < c.dmemSize) :
    ¬ (c.regBase ≤ c.dmemBase + a ∧ c.dmemBase + a < c.regBase + 64) := by
  obtain ⟨-, -, -, -, -, -, hapart⟩ := hc
  omega

/-! ## Accesses of the register block -/

/-- Every command completes: none faults and none is refused (R320). -/
theorem exec_completes (i : Instr) (s : State) : ∃ t, exec i s = .next t := by
  cases i with
  | init m f n => obtain ⟨c, e⟩ | ⟨dir, fam, -, -, -, e⟩ := execInit_cases m f n s <;> exact ⟨_, e⟩
  | updateAad => obtain ⟨c, -, e⟩ | ⟨-, -, e⟩ | ⟨-, -, e⟩ := execUpdateAad_cases s <;> exact ⟨_, e⟩
  | update => obtain ⟨c, -, e⟩ | ⟨-, e⟩ := execUpdate_cases s <;> exact ⟨_, e⟩
  | finalize => obtain ⟨c, -, e⟩ | ⟨-, e⟩ := execFinalize_cases s <;> exact ⟨_, e⟩
  | outputSize final => obtain ⟨-, e⟩ | ⟨-, e⟩ := execOutputSize_cases final s <;> exact ⟨_, e⟩
  | abort => exact ⟨_, rfl⟩

/-- Every CMD write completes, whatever the word (R101, R320). -/
theorem issueCommand_completes (w : Word) (s : State) : ∃ t, issueCommand w s = .next t := by
  unfold issueCommand
  cases decode w with
  | ok i => exact exec_completes i s
  | error e => exact ⟨_, rfl⟩

/-- An aligned 32-bit access of the register block completes (R73). -/
theorem regAccess_completes (s : State) {off : Nat} (op : BusOp) (h4 : off % 4 = 0) :
    ∃ t, regAccess s off 4 op = .next t := by
  cases op with
  | read => exact ⟨s.answerRead (s.readReg off), by simp [regAccess, h4]⟩
  | write v =>
    by_cases h0 : off = 0
    · simpa [regAccess, h0] using issueCommand_completes v s
    · exact ⟨s.writeReg off v, by simp [regAccess, h4, h0]⟩

/-- Any other access of the register block is a bus error (R73). -/
theorem regAccess_fault (s : State) {off n : Nat} (op : BusOp) (h : n ≠ 4 ∨ off % 4 ≠ 0) :
    regAccess s off n op = .fault .regAccessForm := if_pos h

/-- Settles O12: an aligned 32-bit access completes, since every command does, and every other one faults. -/
theorem registerAccessForms : Obligations.RegisterAccessForms := by
  intro s rest off n op hoff
  rw [step_regAccess s rest n op hoff]
  refine ⟨fun ⟨f, hf⟩ => ?_, fun h => ⟨_, regAccess_fault _ op h⟩⟩
  by_contra hform
  obtain ⟨rfl, h4⟩ : n = 4 ∧ off % 4 = 0 := by omega
  obtain ⟨t, ht⟩ := regAccess_completes { s with bus := rest } op h4
  rw [ht] at hf
  cases hf

/-! ## Accesses of DMEM -/

/-- A byte access inside DMEM (R72). -/
theorem dmemAccess_byte (s : State) {a : Nat} (h : a < s.cfg.dmemSize) :
    dmemAccess s a 1 .read = .next (s.answerRead ((s.readByte a).setWidth 32)) ∧
    ∀ v, dmemAccess s a 1 (.write v) = .next (s.memWrite a [v.setWidth 8]) := by
  simp [dmemAccess, h]

/-- An aligned word access inside DMEM (R72). -/
theorem dmemAccess_word (s : State) {a : Nat} (h4 : a % 4 = 0) (h : a + 3 < s.cfg.dmemSize) :
    dmemAccess s a 4 .read = .next (s.answerRead (s.readWord a)) ∧
    ∀ v, dmemAccess s a 4 (.write v) = .next (s.writeWord a v) := by
  simp [dmemAccess, h4, h]

/-- The bus errors of DMEM: a misaligned word, an access past the end, any other width (R72). -/
theorem dmemAccess_fault (s : State) {a n : Nat} (op : BusOp)
    (h : n = 4 ∧ a % 4 ≠ 0 ∨ s.cfg.dmemSize ≤ a ∨ n = 4 ∧ s.cfg.dmemSize ≤ a + 3 ∨ (n ≠ 1 ∧ n ≠ 4)) :
    ∃ f, dmemAccess s a n op = .fault f := by
  cases hop : dmemAccess s a n op with
  | fault f => exact ⟨f, rfl⟩
  | next t => obtain ⟨rfl, hlt, -⟩ | ⟨rfl, h4, hlt, -⟩ := dmemAccess_next hop <;> omega
  | refused r =>
    unfold dmemAccess at hop
    cases op <;> split_ifs at hop

/-- Settles O11: with allowed parameters an address of DMEM is none of the register block, so each access is DMEM's. -/
theorem dmemHostAccess : Obligations.DmemHostAccess := by
  intro s rest a hc
  refine ⟨fun ha => ?_, fun h4 ha => ?_, fun n op hout hform => ?_⟩
  · obtain ⟨hread, hwrite⟩ := dmemAccess_byte { s with bus := rest } ha
    have hstep := fun op => step_dmemAccess s rest 1 op (Config.dmem_apart hc ha)
    refine ⟨⟨_, (hstep _).trans hread, ?_⟩, fun b => ⟨_, (hstep _).trans (hwrite _), rfl, ?_, ?_⟩⟩
    · exact byte_setWidth_extract (s.readByte a)
    · simpa using State.readByte_memWrite_in { s with bus := rest } a [(b.setWidth 32).setWidth 8] (i := 0) (by simp)
    · exact State.sameOutside_memWrite { s with bus := rest } a [(b.setWidth 32).setWidth 8]
  · obtain ⟨hread, hwrite⟩ := dmemAccess_word { s with bus := rest } h4 ha
    have hstep := fun op => step_dmemAccess s rest 4 op (Config.dmem_apart hc (a := a) (by omega))
    have hbyte := fun i (hi : i < 4) => State.readWord_byte { s with bus := rest } a hi
    refine ⟨⟨_, (hstep _).trans hread, hbyte 0 (by decide), hbyte 1 (by decide), hbyte 2 (by decide), hbyte 3 (by decide)⟩,
      fun v => ⟨_, (hstep _).trans (hwrite v), rfl, ?_⟩⟩
    have hbyte := fun i (hi : i < 4) => State.readByte_writeWord { s with bus := rest } a v hi
    exact ⟨hbyte 0 (by decide), hbyte 1 (by decide), hbyte 2 (by decide), hbyte 3 (by decide),
      State.sameOutside_writeWord { s with bus := rest } a v⟩
  · rw [step_dmemAccess s rest n op hout]
    exact dmemAccess_fault { s with bus := rest } op hform

/-! ## What an access leaves unchanged -/

/-- A write to the register block at an offset that is no ARG's has no effect (R20, R30). -/
theorem State.writeReg_of_not_arg (s : State) (v : Word) {off : Nat} (h : off ∉ [0x10, 0x14, 0x18, 0x1C, 0x20]) :
    s.writeReg off v = s := by
  simp only [List.mem_cons, List.not_mem_nil, or_false, not_or] at h
  simp [State.writeReg, Args.write, h]

/-- A write to the register block changes what no other offset reads (R80). -/
theorem readReg_writeReg_other (s : State) (v : Word) {off off' : Nat} (hne : off' ≠ off) :
    (s.writeReg off v).readReg off' = s.readReg off' := by
  by_cases harg : off ∈ [0x10, 0x14, 0x18, 0x1C, 0x20]
  · exact readReg_writeReg_of_ne s v harg hne
  · rw [s.writeReg_of_not_arg v harg]

/-- A read changes no state but what the host is answered (R80). -/
theorem busAccess_read_frame {s t : State} {a : Access} (h : busAccess s a = .next t) (hr : a.op = .read) :
    t = { s with readData := t.readData } := by
  obtain ⟨-, -, h⟩ | ⟨-, -, h⟩ := busAccess_next h
  · obtain ⟨-, -, ⟨-, rfl⟩ | ⟨w, hw, -⟩ | ⟨w, hw, -⟩⟩ := regAccess_next h
    · rfl
    · simp [hr] at hw
    · simp [hr] at hw
  · obtain ⟨-, -, ⟨-, rfl⟩ | ⟨w, hw, -⟩⟩ | ⟨-, -, -, ⟨-, rfl⟩ | ⟨w, hw, -⟩⟩ := dmemAccess_next h
    · rfl
    · simp [hr] at hw
    · rfl
    · simp [hr] at hw

/-- A write inside the register block but past CMD is a register write (R20, R80). -/
theorem busAccess_write_reg {s t : State} {a : Access} {v : Word} (h : busAccess s a = .next t) (hv : a.op = .write v)
    (hlo : s.cfg.regBase < a.addr) (hhi : a.addr < s.cfg.regBase + 64) : t = s.writeReg (a.addr - s.cfg.regBase) v := by
  obtain ⟨-, -, h⟩ | ⟨hout, -⟩ := busAccess_next h
  · obtain ⟨-, -, ⟨hr, -⟩ | ⟨w, -, h0, -⟩ | ⟨w, hw, -, ht⟩⟩ := regAccess_next h
    · simp [hr] at hv
    · omega
    · cases hv.symm.trans hw
      exact ht
  · exact absurd ⟨hlo.le, hhi⟩ hout

/-- A write outside the register block stores as many bytes as it moves at its address of DMEM (R72, R80). -/
theorem busAccess_write_dmem {s t : State} {a : Access} {v : Word} (h : busAccess s a = .next t) (hv : a.op = .write v)
    (hout : ¬ (s.cfg.regBase ≤ a.addr ∧ a.addr < s.cfg.regBase + 64)) :
    ∃ b : List Byte, b.length = a.bytes ∧ t = s.memWrite (a.addr - s.cfg.dmemBase) b := by
  obtain ⟨hlo, hhi, -⟩ | ⟨-, -, h⟩ := busAccess_next h
  · exact absurd ⟨hlo, hhi⟩ hout
  · obtain ⟨hn, -, ⟨hr, -⟩ | ⟨w, -, ht⟩⟩ | ⟨hn, -, -, ⟨hr, -⟩ | ⟨w, -, ht⟩⟩ := dmemAccess_next h
    · simp [hr] at hv
    · exact ⟨[w.setWidth 8], hn.symm, ht⟩
    · simp [hr] at hv
    · exact ⟨_, by rw [hn, encLe_length], ht⟩

/-- Settles O13: by where the access lands and whether it reads or writes. -/
theorem accessesChangeOnlyTheirLocation : Obligations.AccessesChangeOnlyTheirLocation := by
  refine fun s t a h => ⟨busAccess_read_frame h, fun v hv hlo hhi => ?_, fun v hv hout => ?_⟩
  · cases busAccess_write_reg h hv hlo hhi
    exact ⟨rfl, fun off hne => readReg_writeReg_other s v hne⟩
  · obtain ⟨b, hb, rfl⟩ := busAccess_write_dmem h hv hout
    exact ⟨rfl, hb ▸ s.sameOutside_memWrite _ b⟩

/-- Settles O15: a foreign access is refused by `busEvent`. -/
theorem interleavedMasterIsRefused : Obligations.InterleavedMasterIsRefused :=
  fun _ _ _ => rfl

/-! ## Commands that store nothing -/

/-- A command other than FINALIZE, and other than an UPDATE that encrypts or streams, stores nothing (R231, R240, R246, R250,
R272). An UPDATE of a decrypting CP or GCM session only buffers, so the string it writes is empty. -/
theorem exec_keeps_dmem {i : Instr} {s t : State} (h : exec i s = .next t) (hfin : i ≠ .finalize)
    (hupd : i = .update → s.status.family ≠ .stream ∧ s.status.dir = .decrypt) : t.dmem = s.dmem := by
  cases exec_outcome h with
  | fail code _ ht => exact ht ▸ rfl
  | init dir fam n _ _ _ _ _ _ ht => exact ht ▸ initCommit_dmem s fam dir n
  | aadEmpty _ _ _ ht => exact ht ▸ rfl
  | aad _ _ _ ht => exact ht ▸ rfl
  | size _ _ _ ht => exact ht ▸ rfl
  | abort _ ht => exact ht ▸ rfl
  | update hi _ _ _ _ b _ _ _ hdec ht =>
    obtain ⟨hf, hd⟩ := hupd hi
    obtain ⟨rfl, -⟩ := hdec hf hd
    exact ht ▸ rfl
  | consume hi _ u code b r ht hc hu _ _ hdec =>
    obtain ⟨hf, hd⟩ := hupd (hi.resolve_left hfin)
    have hcode : code = .counterExhausted := by simpa [hfin] using hc
    obtain rfl := hdec hf hd hcode
    exact ht ▸ hu.dmem

/-- Settles O47: the same memory and the same reset draw, so every byte reads as before. -/
theorem commandsThatStoreNothing : Obligations.CommandsThatStoreNothing := by
  intro i s t h hi x
  obtain ⟨-, -, hepoch, -⟩ := exec_sameHost h
  refine State.readByte_congr (exec_keeps_dmem h ?_ ?_) hepoch x
  · rintro rfl
    simp at hi
  · rintro rfl
    simpa using hi

end Sys2Proof.Machine
end

section
/-! PROOFS. The decoder and the encoder (O1, O2, O3): when a word decodes to a command, in terms of the command's own mask and
fields, and that this fixes every bit of the word (R90 to R97, R103). -/

namespace Sys2Proof

/-! ## The fields of a word -/

theorem opcField_toNat (w : Word) : (opcField w).toNat = w.toNat % 256 := by
  simp [opcField, BitVec.extractLsb'_toNat]

theorem opcField_getLsbD (w : Word) {b : Nat} (hb : b < 8) : (opcField w).getLsbD b = w.getLsbD b := by
  simp [opcField, hb]

theorem opmodeField_toNat (w : Word) : (opmodeField w).toNat = w.toNat / 2 ^ 8 % 4 := by
  simp [opmodeField, BitVec.extractLsb'_toNat, Nat.shiftRight_eq_div_pow]

theorem familyField_toNat (w : Word) : (familyField w).toNat = w.toNat / 2 ^ 10 % 4 := by
  simp [familyField, BitVec.extractLsb'_toNat, Nat.shiftRight_eq_div_pow]

theorem taglenField_toNat (w : Word) : (taglenField w).toNat = w.toNat / 2 ^ 16 % 32 := by
  simp [taglenField, BitVec.extractLsb'_toNat, Nat.shiftRight_eq_div_pow]

/-- The OPMODE decoded from a field is the one with its number (R92). -/
theorem decodeOpmode_eq_iff (v : BitVec 2) (m : Opmode) : decodeOpmode v = m ↔ m.code = v.toNat := by
  revert v
  cases m <;> decide

/-- The FAMILY decoded from a field is the one with its number (R93). -/
theorem decodeFamily_eq_iff (v : BitVec 2) (f : FamilyField) : decodeFamily v = f ↔ f.code = v.toNat := by
  revert v
  cases f <;> decide

theorem Opmode.code_lt (m : Opmode) : m.code < 4 := by cases m <;> decide

theorem FamilyField.code_lt (f : FamilyField) : f.code < 4 := by cases f <;> decide

/-- Where a mask bit is set, a word and its masked form have the same bit. -/
theorem getLsbD_and_of_mask {mask : Word} {b : Nat} (hb : mask.getLsbD b = true) (w : Word) :
    (w &&& mask).getLsbD b = w.getLsbD b := by
  simp [hb]

/-- What a mask that covers the opcode byte asks of a word: the opcode in that byte, and 0 in every other bit of the mask
(R96, R97). -/
theorem and_mask_eq_iff {mask : Word} (hmask : opcField mask = 0xFF#8) (w : Word) (opc : Byte) :
    w &&& mask = opc.setWidth 32 ↔
      opcField w = opc ∧ ∀ b, 8 ≤ b → mask.getLsbD b = true → w.getLsbD b = false := by
  have hlow : ∀ b < 8, mask.getLsbD b = true := by
    intro b hb
    rw [← opcField_getLsbD mask hb, hmask, show 0xFF#8 = BitVec.allOnes 8 from rfl, BitVec.getLsbD_allOnes]
    exact decide_eq_true hb
  constructor
  · intro h
    refine ⟨BitVec.eq_of_getLsbD_eq fun b hb => ?_, fun b hb hm => ?_⟩
    · rw [opcField_getLsbD w hb, ← getLsbD_and_of_mask (hlow b hb) w, h, BitVec.getLsbD_setWidth]
      simp [show b < 32 by omega]
    · rw [← getLsbD_and_of_mask hm w, h, BitVec.getLsbD_setWidth, BitVec.getLsbD_of_ge opc b hb, Bool.and_false]
  · rintro ⟨rfl, hzero⟩
    refine BitVec.eq_of_getLsbD_eq fun b hb => ?_
    by_cases h8 : b < 8
    · simp [opcField_getLsbD w h8, hlow b h8, hb]
    · have hopc : (opcField w).getLsbD b = false := BitVec.getLsbD_of_ge _ b (by omega)
      cases hm : mask.getLsbD b with
      | false => simp [hm, hopc]
      | true => simp [hm, hopc, hzero b (by omega) hm]

/-! ## When a word decodes to a command -/

/-- The word's fields, where the command has any, are the command's (R92 to R95). -/
def Instr.Reads (w : Word) : Instr → Prop
  | .init m f n => decodeOpmode (opmodeField w) = m ∧ decodeFamily (familyField w) = f ∧ (taglenField w).toNat = n
  | .outputSize final => finalField w = final
  | .updateAad | .update | .finalize | .abort => True

/-- Every mask of the table covers the opcode byte (R96). -/
theorem opRows_mask_covers_opc : ∀ row ∈ opRows, opcField row.mask = 0xFF#8 := by decide

/-- A word decodes to a command exactly if some row of the table accepts it and reads that command: the row's opcode stands in
its mask, so no row before it is taken (R97). -/
theorem decode_eq_ok_iff_row (w : Word) (i : Instr) :
    decode w = .ok i ↔ ∃ row ∈ opRows, w &&& row.mask = row.opc.setWidth 32 ∧ row.read w = i := by
  constructor
  · intro h
    unfold decode at h
    split at h
    · cases h
    next row hrow =>
      split at h
      next hmask =>
        cases h
        exact ⟨row, List.mem_of_find?_eq_some hrow, hmask, rfl⟩
      · cases h
  · rintro ⟨row, hrow, hmask, rfl⟩
    obtain ⟨hopc, -⟩ := (and_mask_eq_iff (opRows_mask_covers_opc row hrow) w row.opc).mp hmask
    have hfind : opRows.find? (fun r => r.opc == opcField w) = some row := by
      rw [hopc]
      simp only [opRows, List.mem_cons, List.not_mem_nil, or_false] at hrow
      rcases hrow with rfl | rfl | rfl | rfl | rfl | rfl <;> rfl
    simp [decode, hfind, hmask]

/-- A word decodes to a command exactly if it passes the command's mask and has its fields (R96, R97): the five other rows of the
table read other commands. -/
theorem decode_eq_ok_iff (w : Word) (i : Instr) :
    decode w = .ok i ↔ w &&& i.mask = i.opc.setWidth 32 ∧ i.Reads w := by
  rw [decode_eq_ok_iff_row]
  cases i <;> simp [opRows, Instr.mask, Instr.opc, Instr.Reads]

/-! ## Decode after encode -/

/-- The word of a well-formed command passes the command's mask (R96). -/
theorem encode_and_mask {i : Instr} (h : i.wellFormed = true) : encode i &&& i.mask = i.opc.setWidth 32 := by
  cases i with
  | init m f n => exact Laws.EncodesUnderMask.init m f n h
  | updateAad => exact Laws.EncodesUnderMask.updateAad h
  | update => exact Laws.EncodesUnderMask.update h
  | finalize => exact Laws.EncodesUnderMask.finalize h
  | outputSize final => exact Laws.EncodesUnderMask.outputSize final h
  | abort => exact Laws.EncodesUnderMask.abort h

/-- An INIT word as a number: no field reaches into another, and none out of the word (R90). -/
theorem encode_init_toNat (m : Opmode) (f : FamilyField) {n : Nat} (hn : n < 32) :
    (encode (.init m f n)).toNat = 0x01 + m.code * 2 ^ 8 + f.code * 2 ^ 10 + n * 2 ^ 16 := by
  have hm := m.code_lt
  have hf := f.code_lt
  rw [encode, BitVec.toNat_ofNat, Nat.mod_eq_of_lt]
  omega

/-- The word of a well-formed command holds the command's fields (R92 to R95). -/
theorem encode_reads {i : Instr} (h : i.wellFormed = true) : i.Reads (encode i) := by
  cases i with
  | init m f n =>
    have hn : n < 32 := by simpa [Instr.wellFormed] using h
    have hm := m.code_lt
    have hf := f.code_lt
    simp only [Instr.Reads, decodeOpmode_eq_iff, decodeFamily_eq_iff, opmodeField_toNat, familyField_toNat,
      taglenField_toNat, encode_init_toNat m f hn]
    omega
  | outputSize final => cases final <;> rfl
  | updateAad | update | finalize | abort => trivial

/-- Settles O1: the word of a well-formed command passes its mask and holds its fields. -/
theorem decodeOfEncodeIsTheCommand : Obligations.DecodeOfEncodeIsTheCommand := fun i h =>
  (decode_eq_ok_iff (encode i) i).mpr ⟨encode_and_mask h, encode_reads h⟩

/-! ## Encode after decode -/

/-- Only TAGLEN can fail to fit, and a word's TAGLEN has 5 bits (R94). -/
theorem Instr.Reads.wellFormed {w : Word} {i : Instr} (h : i.Reads w) : i.wellFormed = true := by
  cases i with
  | init m f n =>
    obtain ⟨-, -, rfl⟩ := h
    simpa [Instr.wellFormed] using (taglenField w).isLt
  | updateAad | update | finalize | outputSize | abort => rfl

/-- Words with an equal field have equal bits in it. -/
theorem getLsbD_eq_of_field_eq {u w : Word} {p n b : Nat} (h : u.extractLsb' p n = w.extractLsb' p n) (hlo : p ≤ b)
    (hhi : b < p + n) : u.getLsbD b = w.getLsbD b := by
  have hbit := congrArg (fun v => v.getLsbD (b - p)) h
  simpa [show b - p < n by omega, Nat.add_sub_cancel' hlo] using hbit

/-- Words with equal masked bits and equal bits outside the mask are equal. -/
theorem eq_of_and_mask_eq {u w mask : Word} (h : u &&& mask = w &&& mask)
    (hout : ∀ b < 32, mask.getLsbD b = false → u.getLsbD b = w.getLsbD b) : u = w := by
  refine BitVec.eq_of_getLsbD_eq fun b hb => ?_
  cases hm : mask.getLsbD b with
  | false => exact hout b hb hm
  | true => rw [← getLsbD_and_of_mask hm u, h, getLsbD_and_of_mask hm w]

/-- Words with equal bits in the mask of a command without fields are equal. -/
theorem eq_of_and_fullMask_eq {u w : Word} (h : u &&& 0xFFFFFFFF#32 = w &&& 0xFFFFFFFF#32) : u = w := by
  rwa [show 0xFFFFFFFF#32 = BitVec.allOnes 32 from rfl, BitVec.and_allOnes, BitVec.and_allOnes] at h

@[simp] theorem Instr.init_mask (m : Opmode) (f : FamilyField) (n : Nat) : (Instr.init m f n).mask = 0xFFE0F0FF#32 := rfl

@[simp] theorem Instr.outputSize_mask (final : Bool) : (Instr.outputSize final).mask = 0xFEFFFFFF#32 := rfl

/-- The bits that INIT's mask leaves out are OPMODE, FAMILY and TAGLEN (R90, R96). -/
theorem init_mask_bits (m : Opmode) (f : FamilyField) (n : Nat) : ∀ b < 32, (Instr.init m f n).mask.getLsbD b = false →
    (8 ≤ b ∧ b < 8 + 2) ∨ (10 ≤ b ∧ b < 10 + 2) ∨ (16 ≤ b ∧ b < 16 + 5) := by
  rw [Instr.init_mask]
  decide

/-- The bit that OUTPUT_SIZE's mask leaves out is FINAL (R90, R96). -/
theorem outputSize_mask_bits (final : Bool) : ∀ b < 32, (Instr.outputSize final).mask.getLsbD b = false → b = 24 := by
  rw [Instr.outputSize_mask]
  decide

/-- Two words with the same bits in a command's mask and the command's fields agree in every bit: the fields are exactly the bits
that the mask leaves out (R96). -/
theorem Instr.Reads.unique {u w : Word} {i : Instr} (hu : i.Reads u) (hw : i.Reads w) (hmask : u &&& i.mask = w &&& i.mask) :
    u = w := by
  cases i with
  | init m f n =>
    obtain ⟨hum, huf, hun⟩ := hu
    obtain ⟨hwm, hwf, hwn⟩ := hw
    rw [decodeOpmode_eq_iff] at hum hwm
    rw [decodeFamily_eq_iff] at huf hwf
    have hopmode : opmodeField u = opmodeField w := BitVec.eq_of_toNat_eq (hum.symm.trans hwm)
    have hfamily : familyField u = familyField w := BitVec.eq_of_toNat_eq (huf.symm.trans hwf)
    have htaglen : taglenField u = taglenField w := BitVec.eq_of_toNat_eq (hun.trans hwn.symm)
    refine eq_of_and_mask_eq hmask fun b hb hm => ?_
    rcases init_mask_bits m f n b hb hm with ⟨hlo, hhi⟩ | ⟨hlo, hhi⟩ | ⟨hlo, hhi⟩
    · exact getLsbD_eq_of_field_eq hopmode hlo hhi
    · exact getLsbD_eq_of_field_eq hfamily hlo hhi
    · exact getLsbD_eq_of_field_eq htaglen hlo hhi
  | outputSize final =>
    refine eq_of_and_mask_eq hmask fun b hb hm => ?_
    obtain rfl := outputSize_mask_bits final b hb hm
    exact Eq.trans hu hw.symm
  | updateAad | update | finalize | abort => exact eq_of_and_fullMask_eq hmask

/-- Settles O2: a word that decodes to a command is well formed, and the command's own word, which decodes to it too (O1), has the
same mask bits and the same fields. -/
theorem encodeOfDecodeIsTheWord : Obligations.EncodeOfDecodeIsTheWord := by
  intro w i h
  obtain ⟨hmask, hreads⟩ := (decode_eq_ok_iff w i).mp h
  have hwf := hreads.wellFormed
  exact ⟨hwf, (encode_reads hwf).unique hreads ((encode_and_mask hwf).trans hmask.symm)⟩

/-! ## The opcode table by bit numbers -/

theorem opcField_eq_iff (w : Word) (opc : Byte) : opcField w = opc ↔ w.toNat % 256 = opc.toNat := by
  rw [← BitVec.toNat_inj, opcField_toNat]

/-- Every command's mask covers the opcode byte (R96). -/
theorem Instr.mask_covers_opc (i : Instr) : opcField i.mask = 0xFF#8 := by
  have hmask : i.mask = 0xFFE0F0FF#32 ∨ i.mask = 0xFEFFFFFF#32 ∨ i.mask = 0xFFFFFFFF#32 := by
    cases i <;> simp [Instr.mask]
  rcases hmask with h | h | h <;> rw [h] <;> decide

/-- A word decodes to a command exactly if its low byte is the command's opcode, its other bits in the mask are 0, and it has the
command's fields. `Zero` describes those other bits by their numbers. -/
theorem decode_eq_ok_iff_bits (w : Word) (i : Instr) {Zero : Nat → Prop}
    (hZero : ∀ b < 32, Zero b ↔ 8 ≤ b ∧ i.mask.getLsbD b = true) :
    decode w = .ok i ↔ w.toNat % 256 = i.opc.toNat ∧ i.Reads w ∧ ∀ b, Zero b → w.getLsbD b = false := by
  have hbits : (∀ b, 8 ≤ b → i.mask.getLsbD b = true → w.getLsbD b = false) ↔ ∀ b, Zero b → w.getLsbD b = false := by
    refine forall_congr' fun b => ?_
    by_cases hb : b < 32
    · rw [hZero b hb, and_imp]
    · simp [BitVec.getLsbD_of_ge w b (by omega)]
  rw [decode_eq_ok_iff, and_mask_eq_iff i.mask_covers_opc, opcField_eq_iff, hbits, and_assoc, and_comm (a := i.Reads w)]

/-- The commands without fields: all 24 bits above the opcode are 0 (R96). -/
theorem decode_eq_ok_iff_noFields (w : Word) {i : Instr} (hmask : i.mask = 0xFFFFFFFF#32) (hreads : i.Reads w) :
    decode w = .ok i ↔ w.toNat % 256 = i.opc.toNat ∧ ∀ b, 8 ≤ b ∧ b ≤ 31 → w.getLsbD b = false := by
  rw [decode_eq_ok_iff_bits w i (Zero := fun b => 8 ≤ b ∧ b ≤ 31) (by rw [hmask]; decide)]
  simp [hreads]

/-- Settles O3: each command's mask and fields by their bit numbers. -/
theorem decodeReadsTheOpcodeTable : Obligations.DecodeReadsTheOpcodeTable := by
  intro w
  refine ⟨fun m f n => ?_, decode_eq_ok_iff_noFields w rfl trivial, decode_eq_ok_iff_noFields w rfl trivial,
    decode_eq_ok_iff_noFields w rfl trivial, fun final => ?_, decode_eq_ok_iff_noFields w rfl trivial⟩
  · rw [decode_eq_ok_iff_bits w _ (Zero := fun b => 12 ≤ b ∧ b ≤ 15 ∨ 21 ≤ b ∧ b ≤ 31) (by rw [Instr.init_mask]; decide)]
    simp only [Instr.Reads, decodeOpmode_eq_iff, decodeFamily_eq_iff, opmodeField_toNat, familyField_toNat, taglenField_toNat,
      and_assoc, eq_comm (b := n)]
    rfl
  · rw [decode_eq_ok_iff_bits w _ (Zero := fun b => 8 ≤ b ∧ b ≤ 23 ∨ 25 ≤ b ∧ b ≤ 31) (by rw [Instr.outputSize_mask]; decide)]
    rw [Instr.Reads, finalField, eq_comm (b := final)]
    rfl

end Sys2Proof
end

section
/-! PROOFS. A command word written to CMD (O4, O6, O18): words that decode, words that do not, and the accesses that DO expands to
(R101, R105, R106). -/

namespace Sys2Proof.Machine

/-- A CMD write of a word that decodes to ILLEGAL fails with ILLEGAL_COMMAND (R101). -/
theorem issueCommand_of_illegal {w : Word} {e : IllegalWord} (h : decode w = .error e) (s : State) :
    issueCommand w s = .next (s.failed .illegalCommand) := by
  simp [issueCommand, h, State.raise, State.complete, State.failed]

/-- INIT with WRAP or UNWRAP fails before its other checks (R231, R324). -/
theorem exec_init_of_no_dir {m : Opmode} (hm : dirOf m = none) (f : FamilyField) (n : Nat) (s : State) :
    exec (.init m f n) s = .next (s.failed .invalidParameter) := by
  simp [exec, execInit, hm, State.raise, State.complete, State.failed]

/-- Settles O4: the decoder evaluated on each word; of the marked ones the first is an INIT with WRAP, and the other two have a
reserved bit set. -/
theorem workedEncodingsDecode : Obligations.WorkedEncodingsDecode := by
  refine ⟨by decide, by decide, by decide, by decide, by decide, by decide, by decide, by decide, by decide, by decide,
    by decide, by decide, fun s => ⟨?_, ?_, ?_⟩⟩
  · rw [issueCommand_of_decode (i := .init .wrap .gcm 0) (by decide), exec_init_of_no_dir rfl]
  · exact issueCommand_of_illegal (e := .reservedBits 0x01#8) (by decide) s
  · exact issueCommand_of_illegal (e := .reservedBits 0x04#8) (by decide) s

/-- Settles O6: the step is the CMD write of an illegal word on the machine without that access. -/
theorem illegalWordCompletesIllegalCommand : Obligations.IllegalWordCompletesIllegalCommand := by
  intro s w e rest h
  rw [step_cmdWrite, issueCommand_of_illegal h]
  rfl

/-! ## DO -/

/-- A run of a step that answers a next state goes on from there. -/
theorem stepsFrom_succ_of_next {s t : State} (h : step s = .next t) (n : Nat) : stepsFrom (n + 1) s = stepsFrom n t := by
  simp [stepsFrom, h]

/-- A run of one step is that step, whatever it answers. -/
theorem stepsFrom_one (s : State) : stepsFrom 1 s = step s := by
  unfold stepsFrom
  cases step s <;> rfl

/-- The ARG registers after the words are written at consecutive offsets from `off` on. -/
def Args.writeFrom (a : Args) : Nat → List Word → Args
  | _, [] => a
  | off, v :: vs => (a.write off v).writeFrom (off + 4) vs

/-- Up to five words written from ARG0 on replace the first ARGs and leave the others (R29, R105). -/
theorem Args.writeFrom_arg0 (a : Args) {ops : List Word} (h : ops.length ≤ 5) :
    a.writeFrom 0x10 ops =
      { a0 := ops.getD 0 a.a0, a1 := ops.getD 1 a.a1, a2 := ops.getD 2 a.a2, a3 := ops.getD 3 a.a3, a4 := ops.getD 4 a.a4 } := by
  match ops, h with
  | [], _ => rfl
  | [_], _ => rfl
  | [_, _], _ => rfl
  | [_, _, _], _ => rfl
  | [_, _, _, _], _ => rfl
  | [_, _, _, _, _], _ => rfl

/-- One step for each ARG write of DO writes the operands, and the run goes on with the accesses after them. The offsets stay
inside the register block and never meet CMD. -/
theorem stepsFrom_argWrites (n : Nat) (rest : List BusEvent) (ops : List Word) : ∀ (off : Nat) (s : State),
    off ≠ 0 → off % 4 = 0 → off + 4 * ops.length ≤ 64 →
    stepsFrom (ops.length + n) { s with bus := argWrites s.cfg off ops ++ rest } =
      stepsFrom n { s with args := s.args.writeFrom off ops, bus := rest } := by
  induction ops with
  | nil =>
    intro off s _ _ _
    simp [argWrites, Args.writeFrom]
  | cons v vs ih =>
    intro off s h0 h4 h64
    rw [List.length_cons] at h64
    have hstep := step_regWrite s (argWrites s.cfg (off + 4) vs ++ rest) v (by omega) h4 h0
    rw [List.length_cons, Nat.add_right_comm, argWrites, List.cons_append, stepsFrom_succ_of_next hstep]
    exact ih (off + 4) (s.writeReg off v) (by omega) (by omega) (by omega)

/-- Settles O18: the ARG writes one by one, then the CMD write, whose word decodes to the command (O1). -/
theorem doSetsArgsAndRunsTheCommand : Obligations.DoSetsArgsAndRunsTheCommand := by
  intro s i ops hbus hwf hlen
  have hprog : s.withProgram [.doCmd i ops] =
      { s with bus := argWrites s.cfg 0x10 ops ++ [.access (regWrite s.cfg 0x00 (encode i))] } := by
    simp [State.withProgram, programEvents, HostStmt.events, hbus, List.take_of_length_le hlen]
  have hcmd := step_cmdWrite { s with args := s.args.writeFrom 0x10 ops } [] (encode i)
  rw [hprog, stepsFrom_argWrites 1 _ ops 0x10 s (by decide) (by decide) (by omega), stepsFrom_one, hcmd,
    issueCommand_of_decode (decodeOfEncodeIsTheCommand i hwf), Args.writeFrom_arg0 s.args hlen, ← hbus]

end Sys2Proof.Machine
end

section
/-! PROOFS. The S-box (O50): the table read back through the inverse of `A` gives the inverse in GF(2^8) (R117, R118). -/

namespace Sys2Proof.Machine

/-- The map that undoes `A` of R118: each bit of the byte before `A` is the xor of three bits of the byte after it, and of the
same bit of 0x05. -/
def sboxAffineInv (c : Byte) : Byte := c.rotateLeft 1 ^^^ c.rotateLeft 3 ^^^ c.rotateLeft 6 ^^^ 0x05#8

theorem sboxAffine_sboxAffineInv (c : Byte) : sboxAffine (sboxAffineInv c) = c := by
  revert c
  decide +kernel

/-- The one fact about the table's entries, checked for each byte: one product per entry, where the power `gf8Inv` takes 13. -/
theorem gmul_sboxAffineInv_sbox : ∀ x : Byte, x ≠ 0x00#8 → gmul x (sboxAffineInv (sbox x)) = 0x01#8 := by
  decide +kernel

/-- Settles O50: the inverse of x is the table's entry taken back through `A`. -/
theorem sboxIsTheAffineMapOfTheInverse : Obligations.SboxIsTheAffineMapOfTheInverse :=
  ⟨by decide, fun x hx =>
    ⟨sboxAffineInv (sbox x), gmul_sboxAffineInv_sbox x hx, (sboxAffine_sboxAffineInv (sbox x)).symm⟩⟩

end Sys2Proof.Machine
end

section
/-! PROOFS. The keystream (O51 to O54): KsXor in chunks, the limit of its blocks, the keystream as a function of the place, and the
counters of a session (R141 to R152). -/

namespace Sys2Proof.Machine

/-! ## Chunks -/

/-- KsXor on a string in two parts, if the first is not exhausted: the second goes on from the keystream state the first left
(R152). -/
theorem ksXor_append {blk : Word → List Byte} {k : Keystream} {xs : List Byte} (ys : List Byte)
    (h : (ksXor blk k xs).exhausted = false) :
    ksXor blk k (xs ++ ys) =
      ⟨(ksXor blk k xs).out ++ (ksXor blk (ksXor blk k xs).ks ys).out, (ksXor blk (ksXor blk k xs).ks ys).ks,
        (ksXor blk (ksXor blk k xs).ks ys).exhausted⟩ := by
  induction xs generalizing k with
  | nil => rfl
  | cons x xs ih =>
    cases hr : refill blk k with
    | none => simp [ksXor_cons_none x xs hr] at h
    | some k1 =>
      rw [ksXor_cons_some x xs hr] at h
      rw [List.cons_append, ksXor_cons_some x (xs ++ ys) hr, ksXor_cons_some x xs hr, ih h]
      rfl

/-- One more chunk after the calls that made `acc`: what R152 does with each of its chunks. -/
def XorResult.andThen (blk : Word → List Byte) (acc : XorResult) (d : List Byte) : XorResult :=
  ⟨acc.out ++ (ksXor blk acc.ks d).out, (ksXor blk acc.ks d).ks, acc.exhausted || (ksXor blk acc.ks d).exhausted⟩

/-- Chunks in turn, none of them exhausted, are one chunk: their concatenation (R152). -/
theorem XorResult.foldl_andThen {blk : Word → List Byte} {acc : XorResult} {ds : List (List Byte)}
    (h : (ds.foldl (XorResult.andThen blk) acc).exhausted = false) :
    acc.exhausted = false ∧ ds.foldl (XorResult.andThen blk) acc = acc.andThen blk ds.flatten := by
  induction ds generalizing acc with
  | nil => exact ⟨h, by simp [XorResult.andThen]⟩
  | cons d ds ih =>
    obtain ⟨hfirst, hrest⟩ := ih (acc := acc.andThen blk d) h
    obtain ⟨hacc, hd⟩ : acc.exhausted = false ∧ (ksXor blk acc.ks d).exhausted = false := by
      simpa [XorResult.andThen] using hfirst
    refine ⟨hacc, ?_⟩
    rw [List.foldl_cons, hrest, List.flatten_cons]
    simp [XorResult.andThen, ksXor_append ds.flatten hd, hd]

/-- Settles O51: the chunks in turn, from no output at all. -/
theorem keystreamIsTheSameInChunks : Obligations.KeystreamIsTheSameInChunks := by
  intro blk k ds r hr
  obtain ⟨-, h⟩ := XorResult.foldl_andThen (acc := ⟨[], k, false⟩) hr
  exact h.symm

/-! ## The limit -/

/-- How many bytes the generator may still give, for blocks of `B` bytes: those left of its last block and those of the blocks
still allowed (R147). -/
def Keystream.left (B : Nat) (k : Keystream) : Nat := (k.buf.length - k.pos) + (k.maxBlocks - k.used) * B

/-- A generator that can give no byte has none left (R147). -/
theorem Keystream.left_of_refill_none {blk : Word → List Byte} {k : Keystream} (B : Nat) (h : refill blk k = none) :
    k.left B = 0 := by
  obtain ⟨hp, hu⟩ := refill_none.mp h
  simp [Keystream.left, hp, hu]

/-- Making a block keeps the generator within its limit and its bytes left as they are, and there is a byte to give (R143). -/
theorem refill_left {blk : Word → List Byte} {B : Nat} (hB : 0 < B) (hb : ∀ c, (blk c).length = B) {k k1 : Keystream}
    (hu : k.used ≤ k.maxBlocks) (hp : k.pos ≤ k.buf.length) (h : refill blk k = some k1) :
    k1.used ≤ k1.maxBlocks ∧ k1.pos < k1.buf.length ∧ k1.left B = k.left B := by
  rcases refill_some h with ⟨hne, rfl⟩ | ⟨he, hlt, rfl⟩
  · exact ⟨hu, by omega, rfl⟩
  · refine ⟨by simp only; omega, by simpa [hb] using hB, ?_⟩
    have hone : k.maxBlocks - k.used = k.maxBlocks - (k.used + 1) + 1 := by omega
    simp only [Keystream.left, hb, he]
    rw [hone, Nat.succ_mul]
    omega

/-- Taking a byte of the block leaves one byte less (R144). -/
theorem Keystream.left_take {B : Nat} {k : Keystream} (h : k.pos < k.buf.length) :
    k.left B = Keystream.left B { k with pos := k.pos + 1 } + 1 := by
  simp only [Keystream.left]
  omega

/-- KsXor is exhausted exactly by data longer than the bytes left, and gives no more than those (R147). -/
theorem ksXor_limit {blk : Word → List Byte} {B : Nat} (hB : 0 < B) (hb : ∀ c, (blk c).length = B) {k : Keystream}
    (d : List Byte) (hu : k.used ≤ k.maxBlocks) (hp : k.pos ≤ k.buf.length) :
    ((ksXor blk k d).exhausted = true ↔ k.left B < d.length) ∧ (ksXor blk k d).out.length = min d.length (k.left B) := by
  induction d generalizing k with
  | nil => simp
  | cons x xs ih =>
    cases hr : refill blk k with
    | none => simp [ksXor_cons_none x xs hr, Keystream.left_of_refill_none B hr]
    | some k1 =>
      obtain ⟨hu1, hp1, hleft⟩ := refill_left hB hb hu hp hr
      obtain ⟨hex, hout⟩ := ih (k := { k1 with pos := k1.pos + 1 }) hu1 hp1
      rw [ksXor_cons_some x xs hr, ← hleft, Keystream.left_take hp1]
      simp only [hex, List.length_cons, hout]
      omega

/-- Settles O52: the limit, with the bytes left written out. -/
theorem exhaustionComesExactlyAtTheLimit : Obligations.ExhaustionComesExactlyAtTheLimit :=
  fun _ _ _ d hB hb hu hp => ksXor_limit hB hb d hu hp

/-! ## The keystream by position -/

/-- Byte `i` of the keystream of blocks of `B` bytes from counter `c0` on (R141 to R144). -/
def ksByte (blk : Word → List Byte) (B : Nat) (c0 : Word) (i : Nat) : Byte :=
  (blk (c0 + BitVec.ofNat 32 (i / B))).getD (i % B) 0#8

/-- A byte string xored with the keystream from place `o` on. -/
def xorFrom (blk : Word → List Byte) (B : Nat) (c0 : Word) (o : Nat) (d : List Byte) : List Byte :=
  (List.range d.length).map (fun i => d.getD i 0#8 ^^^ ksByte blk B c0 (o + i))

theorem xorFrom_cons (blk : Word → List Byte) (B : Nat) (c0 : Word) (o : Nat) (x : Byte) (xs : List Byte) :
    xorFrom blk B c0 o (x :: xs) = (x ^^^ ksByte blk B c0 o) :: xorFrom blk B c0 (o + 1) xs := by
  simp [xorFrom, List.range_succ_eq_map, Function.comp_def, Nat.add_assoc, Nat.add_comm 1]

/-- The place of the generator in its keystream: all bytes of the blocks made but those left of the last one (R143). -/
def Keystream.offset (B : Nat) (k : Keystream) : Nat := k.used * B + k.pos - k.buf.length

/-- The block held is one of those made. -/
theorem Keystream.Good.buf_length_le {blk : Word → List Byte} {B : Nat} (hb : ∀ c, (blk c).length = B) {c0 : Word}
    {k : Keystream} (h : k.Good blk c0) : k.buf.length ≤ k.used * B := by
  rcases Nat.eq_zero_or_pos k.used with hu | hu
  · simp [h.bufFirst hu]
  · rw [h.bufLast hu, hb]
    exact Nat.le_mul_of_pos_left B hu

/-- The bytes given and the bytes left are all the bytes allowed (R148). -/
theorem Keystream.Good.offset_add_left {blk : Word → List Byte} {B : Nat} (hb : ∀ c, (blk c).length = B) {c0 : Word}
    {k : Keystream} (h : k.Good blk c0) : k.offset B + k.left B = k.maxBlocks * B := by
  have hpos := h.pos
  have hbuf := h.buf_length_le hb
  have hused := Nat.mul_le_mul_right B h.used
  rw [Keystream.offset, Keystream.left, Nat.sub_mul]
  omega

/-- The next byte of the block held is the keystream byte of the generator's place. -/
theorem Keystream.Good.getD_pos {blk : Word → List Byte} {B : Nat} (hb : ∀ c, (blk c).length = B) {c0 : Word}
    {k : Keystream} (h : k.Good blk c0) (hp : k.pos < k.buf.length) :
    k.buf.getD k.pos 0#8 = ksByte blk B c0 (k.offset B) := by
  obtain ⟨u, hu⟩ : ∃ u, k.used = u + 1 := by
    refine Nat.exists_eq_succ_of_ne_zero fun h0 => ?_
    simp [h.bufFirst h0] at hp
  have hbuf : k.buf = blk (c0 + BitVec.ofNat 32 u) := by
    rw [h.bufLast (by omega), h.ctr, hu, ← word_add_succ, word_sub_one_add_one]
  have hlen : k.buf.length = B := by rw [hbuf, hb]
  have hoff : k.offset B = B * u + k.pos := by
    rw [Keystream.offset, hu, hlen, Nat.succ_mul, Nat.mul_comm]
    omega
  rw [hlen] at hp
  rw [ksByte, hoff, Nat.mul_add_div (by omega), Nat.mul_add_mod, Nat.div_eq_of_lt hp, Nat.mod_eq_of_lt hp, hbuf,
    Nat.add_zero]

/-- Making a block keeps the generator good: what KsXor of one byte leaves, but for the byte taken. -/
theorem refill_good {blk : Word → List Byte} (hb : ∀ c, 0 < (blk c).length) {c0 : Word} {k k1 : Keystream}
    (h : k.Good blk c0) (hr : refill blk k = some k1) : k1.Good blk c0 := by
  have hg := ksXor_good hb [0#8] h
  rw [ksXor_cons_some _ _ hr] at hg
  exact ⟨hg.used, (Nat.le_succ _).trans hg.pos, hg.bufFirst, hg.bufLast, hg.ctr⟩

/-- Making a block keeps the generator in its place (R143). -/
theorem refill_offset {blk : Word → List Byte} {B : Nat} (hb : ∀ c, (blk c).length = B) {k k1 : Keystream}
    (hr : refill blk k = some k1) : k1.offset B = k.offset B := by
  rcases refill_some hr with ⟨-, rfl⟩ | ⟨he, -, rfl⟩
  · rfl
  · simp only [Keystream.offset, hb, he, Nat.succ_mul]
    omega

/-- KsXor's output is the data, up to the limit, xored with the keystream from the generator's place on (R144). -/
theorem ksXor_out_eq_xorFrom {blk : Word → List Byte} {B : Nat} (hB : 0 < B) (hb : ∀ c, (blk c).length = B) {c0 : Word}
    {k : Keystream} (d : List Byte) (h : k.Good blk c0) :
    (ksXor blk k d).out = xorFrom blk B c0 (k.offset B) (d.take (k.left B)) := by
  induction d generalizing k with
  | nil => simp [xorFrom]
  | cons x xs ih =>
    cases hr : refill blk k with
    | none =>
      rw [ksXor_cons_none x xs hr, Keystream.left_of_refill_none B hr]
      rfl
    | some k1 =>
      obtain ⟨-, hp1, hleft⟩ := refill_left hB hb h.used h.pos hr
      have hg1 := refill_good (fun c => by rw [hb]; exact hB) h hr
      have htaken : Keystream.Good blk c0 { k1 with pos := k1.pos + 1 } :=
        ⟨hg1.used, hp1, hg1.bufFirst, hg1.bufLast, hg1.ctr⟩
      have hoff : Keystream.offset B { k1 with pos := k1.pos + 1 } = k1.offset B + 1 := by
        have hbuf := hg1.buf_length_le hb
        simp only [Keystream.offset]
        omega
      rw [ksXor_cons_some x xs hr, ← refill_offset hb hr, ← hleft, Keystream.left_take hp1, List.take_succ_cons,
        xorFrom_cons, hg1.getD_pos hb hp1, ih htaken, hoff]

/-- The bytes a session may still use, counted from the block it holds. -/
theorem State.SessionInv.ksLeft_eq {s : State} (h : s.SessionInv) : s.ksLeft = s.ks.left (blockBytes s.status.family) := by
  have hsum := h.ks_good.offset_add_left h.ksBlock_length
  rw [State.ksLeft, ← hsum]
  exact Nat.add_sub_cancel_left _ _

/-- A session's keystream is the generator's, from its initial counter and its place on. -/
theorem State.SessionInv.crypt_eq {s : State} (h : s.SessionInv) (d : List Byte) :
    s.crypt d = xorFrom s.ksBlock (blockBytes s.status.family) s.ksStart (s.ks.offset (blockBytes s.status.family)) d := by
  rw [h.blockAt_eq]
  rfl

/-- Settles O53: the session's generator is a good one, with the block transform and the initial counter of the session. -/
theorem keystreamByteIsFixedByItsPlace : Obligations.KeystreamByteIsFixedByItsPlace := by
  intro s d hinv hact
  have h := hinv.session hact
  rw [h.crypt_eq, h.ksLeft_eq]
  exact ksXor_out_eq_xorFrom (blockBytes_pos _) h.ksBlock_length d h.ks_good

/-! ## The counters of a session -/

/-- Two places less than 2^32 blocks after a counter value have different counter values (R146). -/
theorem word_add_ofNat_ne (c : Word) {i j : Nat} (hij : i < j) (hj : j < 2 ^ 32) :
    c + BitVec.ofNat 32 i ≠ c + BitVec.ofNat 32 j := by
  intro h
  have hnat := congrArg BitVec.toNat (add_left_cancel h)
  rw [BitVec.toNat_ofNat, BitVec.toNat_ofNat, Nat.mod_eq_of_lt (hij.trans hj), Nat.mod_eq_of_lt hj] at hnat
  omega

/-- The limit of the hardware is the number of counter values, and no configuration has a larger one (R6). -/
theorem two_pow_exhaustShift_le {c : Config} (h : c.wf) : 2 ^ c.exhaustShift ≤ 2 ^ 32 := by
  obtain ⟨-, -, -, -, -, hshift, -⟩ := h
  exact Nat.pow_le_pow_right (by decide) hshift

/-- No session may use more blocks than that (R145). -/
theorem maxBlocksOf_le (c : Config) (fam : Family) : maxBlocksOf c fam ≤ 2 ^ c.exhaustShift := by
  cases fam <;> simp [maxBlocksOf]

/-- Block `i` of a GCM session is `i + 1` past the counter of J0 (R145, R150). -/
theorem State.SessionInv.gcm_counter {s : State} (h : s.SessionInv) (hf : s.status.family = .gcm) (i : Nat) :
    s.ksStart + BitVec.ofNat 32 i = BitVec.ofNat 32 (beNat (s.ks.j0.drop 12)) + BitVec.ofNat 32 (i + 1) := by
  have hkeys := h.keys
  simp only [State.keysDerived, hf] at hkeys
  obtain ⟨-, -, -, -, -, -, -, hctr⟩ := hkeys
  have hslice : slice s.ks.j0 12 16 = s.ks.j0.drop 12 := List.take_of_length_le (by simp [h.j0_length])
  rw [State.ksStart, hctr, hslice, add_sub_cancel_right, ← word_add_succ _ i, add_right_comm]

/-- No block of a GCM session has the counter of J0 (R150). -/
theorem State.SessionInv.gcm_counter_ne_j0 {s : State} (h : s.SessionInv) (hc : s.cfg.wf) (hf : s.status.family = .gcm)
    {i : Nat} (hi : i < s.ks.maxBlocks) :
    s.ksStart + BitVec.ofNat 32 i ≠ BitVec.ofNat 32 (beNat (s.ks.j0.drop 12)) := by
  have hmax : s.ks.maxBlocks = 2 ^ s.cfg.exhaustShift - 2 := by rw [h.maxBlocks, hf, maxBlocksOf]
  have hpow := two_pow_exhaustShift_le hc
  rw [h.gcm_counter hf]
  simpa using (word_add_ofNat_ne (BitVec.ofNat 32 (beNat (s.ks.j0.drop 12))) (Nat.succ_pos i) (by omega)).symm

/-- Settles O54: the blocks are at most as many as the counter values, and in GCM start one past J0's. -/
theorem countersNeverRepeat : Obligations.CountersNeverRepeat := by
  intro s i j hinv hact hij hj
  have h := hinv.session hact
  have hmax : s.ks.maxBlocks ≤ 2 ^ 32 := by
    rw [h.maxBlocks]
    exact (maxBlocksOf_le _ _).trans (two_pow_exhaustShift_le hinv.cfg)
  exact ⟨word_add_ofNat_ne _ hij (hj.trans_le hmax), fun hf =>
    ⟨h.gcm_counter_ne_j0 hinv.cfg hf (hij.trans hj), h.gcm_counter_ne_j0 hinv.cfg hf hj⟩⟩

end Sys2Proof.Machine
end

section
/-! PROOFS. The authenticator (O55): whatever the chunks, the engine absorbs the 16-byte blocks of one padded string (R190). -/

namespace Sys2Proof.Machine

/-! ## The 16-byte blocks of a string -/

/-- The whole 16-byte blocks of a string, in order (R190). -/
def blocks16 (x : List Byte) : List (List Byte) :=
  (List.range (x.length / 16)).map (fun i => (x.drop (16 * i)).take 16)

theorem blocks16_append {b : List Byte} (hb : b.length = 16) (x : List Byte) : blocks16 (b ++ x) = b :: blocks16 x := by
  have hlen : (b ++ x).length / 16 = x.length / 16 + 1 := by
    rw [List.length_append]
    omega
  have hdrop (i : Nat) : (b ++ x).drop (16 * (i + 1)) = x.drop (16 * i) := by
    rw [List.drop_append, List.drop_of_length_le (by omega), hb, List.nil_append, Nat.mul_succ, Nat.add_sub_cancel]
  simp only [blocks16, hlen, List.range_succ_eq_map, List.map_cons, List.map_map, Function.comp_def, Nat.succ_eq_add_one,
    hdrop]
  simp [← hb]

/-! ## The engine by blocks -/

/-- The byte that fills the staging buffer makes it one absorbed block (R174, R181). -/
theorem stageByte_of_full (fam : Family) {a : Auth} {x : Byte} (h : (a.stage ++ [x]).length = 16) :
    stageByte fam a x = { absorb fam a (a.stage ++ [x]) with stage := [] } := if_pos h

/-- Any other byte only waits in it (R174, R181). -/
theorem stageByte_of_not_full (fam : Family) {a : Auth} {x : Byte} (h : (a.stage ++ [x]).length ≠ 16) :
    stageByte fam a x = { a with stage := a.stage ++ [x] } := if_neg h

/-- Bytes that do not fill the staging buffer only wait in it (R174, R181). -/
theorem engineUpdate_of_short (fam : Family) {a : Auth} {b : List Byte} (h : a.stage.length + b.length < 16) :
    engineUpdate fam a b = { a with stage := a.stage ++ b } := by
  induction b generalizing a with
  | nil => simp [engineUpdate]
  | cons x xs ih =>
    rw [List.length_cons] at h
    have hbyte := stageByte_of_not_full fam (a := a) (x := x) (by rw [List.length_append, List.length_singleton]; omega)
    calc engineUpdate fam a (x :: xs) = engineUpdate fam { a with stage := a.stage ++ [x] } xs := by
          rw [← hbyte]; rfl
      _ = { a with stage := a.stage ++ x :: xs } := by
          rw [ih (by rw [List.length_append, List.length_singleton]; omega), List.append_assoc, List.singleton_append]

/-- Bytes that fill the staging buffer exactly make it one absorbed block (R174, R181). -/
theorem engineUpdate_of_fill (fam : Family) {a : Auth} {b : List Byte} (hb : b ≠ []) (h : a.stage.length + b.length = 16) :
    engineUpdate fam a b = { absorb fam a (a.stage ++ b) with stage := [] } := by
  obtain rfl | ⟨c, x, rfl⟩ := b.eq_nil_or_concat
  · exact absurd rfl hb
  · simp only [List.concat_eq_append, List.length_append, List.length_singleton] at h ⊢
    have hfull : (a.stage ++ c ++ [x]).length = 16 := by simp only [List.length_append, List.length_singleton]; omega
    rw [engineUpdate_append, engineUpdate_of_short fam (b := c) (by omega), ← List.append_assoc]
    refine (stageByte_of_full fam hfull).trans ?_
    cases fam <;> rfl

/-- From an empty staging buffer, a block is absorbed as it is (R174, R181). -/
theorem engineUpdate_block (fam : Family) {a : Auth} (ha : a.stage = []) {b : List Byte} (hb : b.length = 16) :
    engineUpdate fam a b = absorb fam a b := by
  obtain ⟨-, -, hstage, -⟩ := absorb_frame fam a b
  rw [engineUpdate_of_fill fam (List.ne_nil_of_length_pos (by omega)) (by rw [ha, hb]; rfl), ha, List.nil_append, ← ha,
    ← hstage]

/-- From an empty staging buffer, a string of whole blocks is absorbed block by block (R174, R181). -/
theorem engineUpdate_eq_foldl (fam : Family) {a : Auth} (ha : a.stage = []) {n : Nat} {x : List Byte}
    (hx : x.length = 16 * n) : engineUpdate fam a x = (blocks16 x).foldl (absorb fam) a := by
  induction n generalizing a x with
  | zero =>
    obtain rfl := List.eq_nil_of_length_eq_zero hx
    rfl
  | succ n ih =>
    have hb : (x.take 16).length = 16 := by rw [List.length_take]; omega
    obtain ⟨-, -, hstage, -⟩ := absorb_frame fam a (x.take 16)
    rw [← List.take_append_drop 16 x, engineUpdate_append, engineUpdate_block fam ha hb, blocks16_append hb,
      List.foldl_cons, ih (hstage.trans ha) (by rw [List.length_drop]; omega)]

/-- Padding is feeding zeros up to a multiple of 16 (R174, R181, R190). -/
theorem enginePad_eq_engineUpdate (fam : Family) {a : Auth} {n : Nat} (h : a.stage.length = n % 16) :
    enginePad fam a = engineUpdate fam a (zeros (pad16 n)) := by
  unfold enginePad
  split
  · have hpad : pad16 n = 16 - a.stage.length := by rw [pad16]; omega
    rw [hpad, engineUpdate_of_fill fam (List.ne_nil_of_length_pos (by rw [zeros_length]; omega))
      (by rw [zeros_length]; omega)]
  · have hpad : pad16 n = 0 := by rw [pad16]; omega
    rw [hpad]
    rfl

/-! ## The lengths -/

/-- The authenticator with other values of aad_len and ct_len. -/
def Auth.withLens (a : Auth) (m n : Nat) : Auth := { a with aadLen := m, ctLen := n }

@[simp] theorem Auth.withLens_aadLen (a : Auth) (m n : Nat) : (a.withLens m n).aadLen = m := rfl
@[simp] theorem Auth.withLens_ctLen (a : Auth) (m n : Nat) : (a.withLens m n).ctLen = n := rfl
@[simp] theorem Auth.withLens_stage (a : Auth) (m n : Nat) : (a.withLens m n).stage = a.stage := rfl

theorem stageByte_withLens (fam : Family) (a : Auth) (m n : Nat) (x : Byte) :
    stageByte fam (a.withLens m n) x = (stageByte fam a x).withLens m n := by
  by_cases h : (a.stage ++ [x]).length = 16
  · rw [stageByte_of_full fam h, stageByte_of_full fam (a := a.withLens m n) h]
    cases fam <;> rfl
  · rw [stageByte_of_not_full fam h, stageByte_of_not_full fam (a := a.withLens m n) h]
    rfl

/-- The engine looks at neither length. -/
theorem engineUpdate_withLens (fam : Family) (a : Auth) (m n : Nat) (b : List Byte) :
    engineUpdate fam (a.withLens m n) b = (engineUpdate fam a b).withLens m n := by
  induction b generalizing a with
  | nil => rfl
  | cons x xs ih =>
    simp only [engineUpdate, List.foldl_cons, stageByte_withLens] at ih ⊢
    exact ih _

/-- AAD in chunks is fed as one string, and aad_len counts its bytes (R185). -/
theorem foldl_authUpdateAad (fam : Family) (a : Auth) (bs : List (List Byte)) :
    bs.foldl (authUpdateAad fam) a = (engineUpdate fam a bs.flatten).withLens (a.aadLen + bs.flatten.length) a.ctLen := by
  induction bs generalizing a with
  | nil => rfl
  | cons b bs ih =>
    have hk := engineUpdate_same fam a b
    have hone : authUpdateAad fam a b = (engineUpdate fam a b).withLens (a.aadLen + b.length) a.ctLen := by
      rw [← hk.aadLen, ← hk.ctLen]
      rfl
    rw [List.foldl_cons, ih, hone, engineUpdate_withLens, ← engineUpdate_append]
    simp only [List.flatten_cons, List.length_append, Auth.withLens_aadLen, Auth.withLens_ctLen, Nat.add_assoc]
    rfl

/-- Ciphertext in chunks is fed as one string, and ct_len counts its bytes (R187). -/
theorem foldl_authUpdateData (fam : Family) (a : Auth) (cs : List (List Byte)) :
    cs.foldl (authUpdateData fam) a = (engineUpdate fam a cs.flatten).withLens a.aadLen (a.ctLen + cs.flatten.length) := by
  induction cs generalizing a with
  | nil => rfl
  | cons c cs ih =>
    have hk := engineUpdate_same fam a c
    have hone : authUpdateData fam a c = (engineUpdate fam a c).withLens a.aadLen (a.ctLen + c.length) := by
      rw [← hk.aadLen, ← hk.ctLen]
      rfl
    rw [List.foldl_cons, ih, hone, engineUpdate_withLens, ← engineUpdate_append]
    simp only [List.flatten_cons, List.length_append, Auth.withLens_aadLen, Auth.withLens_ctLen, Nat.add_assoc]
    rfl

/-! ## The padded string -/

/-- A string and zeros up to a multiple of 16 (R190). -/
def padTo16 (x : List Byte) : List Byte := x ++ zeros (pad16 x.length)

theorem padTo16_length (x : List Byte) : (padTo16 x).length % 16 = 0 := by
  simp [padTo16, (pad16_spec x.length).1]

/-- Feeding a string and padding is feeding the padded string. -/
theorem enginePad_engineUpdate (fam : Family) {a : Auth} (ha : a.stage = []) (x : List Byte) (m n : Nat) :
    enginePad fam ((engineUpdate fam a x).withLens m n) = (engineUpdate fam a (padTo16 x)).withLens m n := by
  have hstage : ((engineUpdate fam a x).withLens m n).stage.length = x.length % 16 := by
    rw [Auth.withLens_stage, engineUpdate_stage fam a x (by simp [ha]), ha, List.length_nil, Nat.zero_add]
  rw [enginePad_eq_engineUpdate fam hstage, engineUpdate_withLens, ← engineUpdate_append, padTo16]

/-- The padded string leaves the staging buffer empty. -/
theorem engineUpdate_padTo16_stage (fam : Family) {a : Auth} (ha : a.stage = []) (x : List Byte) :
    (engineUpdate fam a (padTo16 x)).stage = [] := by
  have h := enginePad_stage fam ((engineUpdate fam a x).withLens 0 0)
  rwa [enginePad_engineUpdate fam ha] at h

/-- The authenticator fed with the AAD chunks, closed, and fed with the ciphertext chunks (R185 to R187). -/
def authFed (fam : Family) (a : Auth) (aads cts : List (List Byte)) : Auth :=
  cts.foldl (authUpdateData fam) (authCloseAad fam (aads.foldl (authUpdateAad fam) a))

/-- Whatever the chunks, what is fed and padded is the one string of R190 before its length block. -/
theorem enginePad_authFed (fam : Family) {a : Auth} (ha : a.stage = []) (aads cts : List (List Byte)) :
    enginePad fam (authFed fam a aads cts) =
      (engineUpdate fam a (padTo16 aads.flatten ++ padTo16 cts.flatten)).withLens
        (a.aadLen + aads.flatten.length) (a.ctLen + cts.flatten.length) := by
  rw [authFed, foldl_authUpdateData, authCloseAad, foldl_authUpdateAad, enginePad_engineUpdate fam ha,
    engineUpdate_withLens, engineUpdate_append, ← enginePad_engineUpdate fam (engineUpdate_padTo16_stage fam ha _)]
  rfl

/-- The engine after the length block `l` has absorbed the blocks of the whole string of R190. -/
theorem engineUpdate_enginePad_authFed (fam : Family) {a : Auth} (ha : a.stage = []) (aads cts : List (List Byte))
    {l : List Byte} (hl : l.length = 16) :
    engineUpdate fam (enginePad fam (authFed fam a aads cts)) l =
      ((blocks16 (padTo16 aads.flatten ++ padTo16 cts.flatten ++ l)).foldl (absorb fam) a).withLens
        (a.aadLen + aads.flatten.length) (a.ctLen + cts.flatten.length) := by
  have hlen : (padTo16 aads.flatten ++ padTo16 cts.flatten ++ l).length =
      16 * ((padTo16 aads.flatten).length / 16 + (padTo16 cts.flatten).length / 16 + 1) := by
    have hA := padTo16_length aads.flatten
    have hC := padTo16_length cts.flatten
    simp only [List.length_append, hl]
    omega
  rw [enginePad_authFed fam ha, engineUpdate_withLens, ← engineUpdate_append, engineUpdate_eq_foldl fam ha hlen]

/-! ## The tags -/

/-- Absorbing blocks in GCM moves y alone (R173). -/
theorem foldl_absorb_gcm (bs : List (List Byte)) (a : Auth) :
    bs.foldl (absorb .gcm) a = { a with y := bs.foldl (ghAbsorb a.h) a.y } := by
  induction bs generalizing a with
  | nil => rfl
  | cons b bs ih => exact ih (absorb .gcm a b)

/-- Absorbing blocks in CP moves acc alone (R180). -/
theorem foldl_absorb_cp (bs : List (List Byte)) (a : Auth) :
    bs.foldl (absorb .cp) a = { a with acc := bs.foldl (polyAbsorb a.r) a.acc } := by
  induction bs generalizing a with
  | nil => rfl
  | cons b bs ih => exact ih (absorb .cp a b)

/-- GcmTag of the authenticator fed with chunks (R177, R190). -/
theorem gcmTag_authFed (n : Nat) {a : Auth} (ha : a.stage = []) (aads cts : List (List Byte)) :
    gcmTag n (authFed .gcm a aads cts) =
      (xorBytes (encBe ((blocks16 (padTo16 aads.flatten ++ padTo16 cts.flatten ++
        (encBe (8 * (a.aadLen + aads.flatten.length)) 8 ++ encBe (8 * (a.ctLen + cts.flatten.length)) 8))).foldl
          (ghAbsorb a.h) a.y).toNat 16) a.ej0).take n := by
  have hlens := enginePad_authFed .gcm ha aads cts
  rw [gcmTag, ← engineUpdate_block .gcm (enginePad_stage _ _) (by simp), engineUpdate_enginePad_authFed .gcm ha _ _ (by simp),
    foldl_absorb_gcm, hlens]
  rfl

/-- With nothing staged, PolyFinal only adds s (R181). -/
theorem polyFinal_of_stage_nil {a : Auth} (h : a.stage = []) : polyFinal a = encLe ((a.acc + a.s.toNat) % 2 ^ 128) 16 := by
  simp [polyFinal, h]

/-- CpTag of the authenticator fed with chunks (R184, R190). -/
theorem cpTag_authFed {a : Auth} (ha : a.stage = []) (aads cts : List (List Byte)) :
    cpTag (authFed .cp a aads cts) =
      encLe (((blocks16 (padTo16 aads.flatten ++ padTo16 cts.flatten ++
        (encLe (a.aadLen + aads.flatten.length) 8 ++ encLe (a.ctLen + cts.flatten.length) 8))).foldl
          (polyAbsorb a.r) a.acc + a.s.toNat) % 2 ^ 128) 16 := by
  have hlens := enginePad_authFed .cp ha aads cts
  rw [cpTag, engineUpdate_enginePad_authFed .cp ha _ _ (by simp), foldl_absorb_cp, polyFinal_of_stage_nil, hlens]
  · rfl
  · exact ha

/-- Settles O55: feeding chunks and padding is feeding the padded strings (`enginePad_authFed`), and a string of whole blocks is
absorbed block by block (`engineUpdate_eq_foldl`). -/
theorem tagIsThatOfOneString : Obligations.TagIsThatOfOneString := by
  intro fam n a aads cts haad hct ha A C closed fed padded blocks
  have hpadded : padded = padTo16 A ++ padTo16 C := List.append_assoc _ _ _
  constructor
  · rintro rfl
    have h := gcmTag_authFed n ha aads cts
    rw [haad, hct, Nat.zero_add, Nat.zero_add, ← hpadded, ← List.append_assoc] at h
    exact h
  · rintro rfl
    have h := cpTag_authFed ha aads cts
    rw [haad, hct, Nat.zero_add, Nat.zero_add, ← hpadded, ← List.append_assoc] at h
    exact h

end Sys2Proof.Machine
end

section
/-! PROOFS. Encrypting in two commands (O59): what an UPDATE and a FINALIZE that complete OK write in an encrypting session, and
that the session an UPDATE leaves goes on with the keystream and the authenticator where it stopped (R218, R271, R274). -/

namespace Sys2Proof.Machine

/-! ## Two machines in the same session -/

theorem State.SameSession.sessionInv {s t : State} (e : s.SameSession t) (h : s.SessionInv) : t.SessionInv :=
  h.congr e.cfg e.phase e.family e.dir e.reinit e.aadClosed e.session e.guardChacha e.guardGcm e.ks e.auth e.pbuf

theorem State.SameSession.xorData_eq {s t : State} (e : s.SameSession t) (d : List Byte) : t.xorData d = s.xorData d :=
  State.xorData_congr e.family e.session e.ks d

theorem State.SameSession.authWith_eq {s t : State} (e : s.SameSession t) (c : List Byte) : t.authWith c = s.authWith c :=
  State.authWith_congr e.family (by rw [State.authClosed, e.aadClosed, e.auth, e.family]; rfl) c

/-! ## Commands that complete OK -/

/-- An UPDATE that completes OK has passed the prologue, whose failures have other codes (R270). -/
theorem exec_update_ok {s t : State} (he : exec .update s = .next t) (hok : t.status.err = .ok) :
    s.dataLegal ∧ t = updateBody s := by
  rcases execUpdate_cases s with ⟨c, hc, e⟩ | ⟨hn, e⟩ <;> simp only [exec, e] at he <;> cases he
  · rcases dataErrors_code hc with rfl | rfl <;> cases hok
  · exact ⟨(State.dataLegal_iff s).mpr hn, rfl⟩

/-- The same of a FINALIZE (R270). -/
theorem exec_finalize_ok {s t : State} (he : exec .finalize s = .next t) (hok : t.status.err = .ok) :
    s.dataLegal ∧ t = finalizeBody s := by
  rcases execFinalize_cases s with ⟨c, hc, e⟩ | ⟨hn, e⟩ <;> simp only [exec, e] at he <;> cases he
  · rcases dataErrors_code hc with rfl | rfl <;> cases hok
  · exact ⟨(State.dataLegal_iff s).mpr hn, rfl⟩

/-- What an UPDATE that completes OK in an encrypting CP or GCM session does (R271): it encrypts `p`, a first part of the pending
and source bytes, writes and absorbs what it made, and leaves the rest `q` pending. -/
structure State.EncryptsPart (s t : State) (p q : List Byte) : Prop where
  split : s.pending = p ++ q
  notExhausted : (s.xorData p).exhausted = false
  output : s.output t = (s.xorData p).out
  active : t.status.active = true
  family : t.status.family = s.status.family
  dir : t.status.dir = s.status.dir
  aadClosed : t.status.aadClosed = true
  session : t.session = s.session
  ks : t.ks = (s.xorData p).ks
  auth : t.auth = s.authWith (s.xorData p).out
  pbuf : t.pbuf = q

theorem exec_update_encryptsPart {s t : State} (hf : s.status.family ≠ .stream) (hd : s.status.dir = .encrypt)
    (he : exec .update s = .next t) (hok : t.status.err = .ok) : ∃ p q, s.EncryptsPart t p q := by
  obtain ⟨-, rfl⟩ := exec_update_ok he hok
  rcases updateBody_cases s with ⟨hs, -⟩ | ⟨-, -, e⟩ | ⟨-, hs, -⟩
  · exact absurd hs hf
  · rw [e] at hok ⊢
    have hlen : (s.pending.take (wholeBlocks s.pending.length s.session.block)).length =
        wholeBlocks s.pending.length s.session.block :=
      List.length_take_of_le (wholeBlocks_le _ _)
    rcases updateEncrypt_cases s with ⟨-, e⟩ | ⟨-, -, e⟩ | ⟨hfit, hx, e⟩ <;> rw [e] at hok ⊢
    · cases hok
    · cases hok
    · refine ⟨_, _, (List.take_append_drop _ _).symm, hx, ?_, rfl, rfl, rfl, rfl, rfl, rfl, State.authWith_eq hf _, rfl⟩
      refine State.memRead_of_write rfl rfl ?_
      rw [State.complete_result, toNat_ofNat_of_le hfit, State.xorData_out_eq _ _ hx]
      exact hlen
  · rw [hd] at hs
    cases hs

/-- What a FINALIZE that completes OK in an encrypting CP or GCM session writes: the ciphertext of all pending and source bytes,
and the tag (R274). -/
theorem exec_finalize_encrypt_output {s t : State} (h : s.SessionInv) (hf : s.status.family ≠ .stream)
    (hd : s.status.dir = .encrypt) (he : exec .finalize s = .next t) (hok : t.status.err = .ok) :
    s.output t = (s.xorData s.pending).out ++
      authTag s.status.family s.session.tagLen (s.authWith (s.xorData s.pending).out) := by
  obtain ⟨-, rfl⟩ := exec_finalize_ok he hok
  rcases finalizeBody_cases s with ⟨hs, -⟩ | ⟨-, -, e⟩ | ⟨-, hs, -⟩
  · exact absurd hs hf
  · rw [e] at hok ⊢
    rcases finalizeEncrypt_cases hf with ⟨-, e⟩ | ⟨-, -, e⟩ | ⟨hfit, hx, e⟩ <;> rw [e] at hok ⊢
    · cases hok
    · cases hok
    · refine State.memRead_of_write rfl rfl ?_
      rw [State.complete_result, toNat_ofNat_of_le hfit, List.length_append, State.xorData_out_eq _ _ hx,
        h.authTag_length hf (State.authWith_ej0 s _)]
  · rw [hd] at hs
    cases hs

/-! ## The session after the UPDATE -/

/-- The keystream goes on where the UPDATE left it (R152). -/
theorem State.EncryptsPart.xorData_append {s t : State} {p q : List Byte} (h : s.EncryptsPart t p q) (d : List Byte) :
    (s.xorData (p ++ d)).out = (s.xorData p).out ++ (t.xorData d).out := by
  have hj0 : t.ks.j0 = s.ks.j0 := by rw [h.ks]; exact (ksXor_frame _ _ _).2
  have hblk : t.ksBlock = s.ksBlock := by simp only [State.ksBlock, h.family, h.session, hj0]
  rw [State.xorData, ksXor_append d h.notExhausted, State.xorData, State.xorData, hblk, h.ks]
  rfl

/-- The authenticator goes on where the UPDATE left it (R186, R187). -/
theorem State.EncryptsPart.authWith_append {s t : State} {p q : List Byte} (h : s.EncryptsPart t p q) (c : List Byte) :
    t.authWith c = s.authWith ((s.xorData p).out ++ c) := by
  have hclosed : t.authClosed = s.authWith (s.xorData p).out := by rw [State.authClosed, h.aadClosed, h.auth]; rfl
  simp only [State.authWith, hclosed, h.family, h.auth, engineUpdate_with_ctLen, engineUpdate_append, List.length_append,
    Nat.add_assoc]

/-- Settles O59: one FINALIZE and the two commands encrypt the same string and authenticate the same ciphertext, since a session
goes on after UPDATE where it stopped. -/
theorem splittingTheDataChangesNoByte : Obligations.SplittingTheDataChangesNoByte := by
  intro s s' t u u' v hinv hf hd het hokt htu heu hokv hss heu' hoku' hsrc
  have hS : s.SessionInv := hinv.session (exec_update_ok het hokt).1.active
  obtain ⟨p, q, hpart⟩ := exec_update_encryptsPart hf hd het hokt
  have hU : u.SessionInv := htu.sessionInv ((hinv.exec_update het).session hpart.active)
  have hfam : u.status.family = s.status.family := htu.family.trans hpart.family
  have hpending : s'.pending = p ++ u.pending :=
    calc s'.pending = s.pending ++ u.memRead u.args.a0.toNat u.args.a1.toNat := by
          rw [State.pending, hsrc, hss.pbuf, ← List.append_assoc, State.pending]
      _ = p ++ u.pending := by rw [hpart.split, List.append_assoc, State.pending, htu.pbuf, hpart.pbuf]
  have hout : (s'.xorData s'.pending).out = (s.xorData p).out ++ (u.xorData u.pending).out := by
    rw [hss.xorData_eq, hpending, hpart.xorData_append, htu.xorData_eq]
  have hauth : s'.authWith (s'.xorData s'.pending).out = u.authWith (u.xorData u.pending).out := by
    rw [hss.authWith_eq, hout, ← hpart.authWith_append, htu.authWith_eq]
  rw [exec_finalize_encrypt_output (hss.sessionInv hS) (hss.family ▸ hf) (hss.dir.trans hd) heu' hoku',
    exec_finalize_encrypt_output hU (hfam ▸ hf) (htu.dir.trans (hpart.dir.trans hd)) heu hokv, hauth, hout, hpart.output,
    hss.family, hfam, hss.session, htu.session, hpart.session, List.append_assoc]

end Sys2Proof.Machine
end

section
/-! PROOFS. INIT (O30 to O32): its ordered checks, the session that its commit loads, and the nonce-reuse guard at work (R231 to
R236). -/

namespace Sys2Proof.Machine

/-! ## The checks in their order -/

/-- INIT with FAMILY 3 fails whatever its OPMODE: WRAP and UNWRAP have the same code (R231). -/
theorem exec_init_of_no_family (m : Opmode) {f : FamilyField} (hf : familyOf f = none) (n : Nat) (s : State) :
    exec (.init m f n) s = .next (s.failed .invalidParameter) := by
  cases hm : dirOf m with
  | none => exact exec_init_of_no_dir hm f n s
  | some dir =>
    simp only [exec, execInit, hm, hf]
    rfl

section

variable {m : Opmode} {f : FamilyField} {dir : Dir} {fam : Family} {n : Nat} {s : State}

/-- INIT fails with the code of the first failing check (R231, R232). -/
theorem exec_init_of_error (hm : dirOf m = some dir) (hf : familyOf f = some fam) {code : ErrCode}
    (he : initErrors s fam dir n = some code) : exec (.init m f n) s = .next (s.failed code) := by
  simp only [exec, execInit, hm, hf, he]
  rfl

/-- INIT commits when no check fails (R233). -/
theorem exec_init_of_valid (hm : dirOf m = some dir) (hf : familyOf f = some fam) (he : initErrors s fam dir n = none) :
    exec (.init m f n) s = .next ((initCommit s fam dir n).complete .ok 0#32) := by
  simp only [exec, execInit, hm, hf, he]

/-- No check of INIT has the code OK. -/
theorem initErrors_ne_ok : initErrors s fam dir n ≠ some .ok := by
  intro h
  simpa using firstError_mem h

/-- INIT's code is that of the first failing check, or OK (R231, R232). -/
theorem exec_init_code (hm : dirOf m = some dir) (hf : familyOf f = some fam) :
    ((initErrors s fam dir n).getD .ok ≠ .ok →
      exec (.init m f n) s = .next (s.failed ((initErrors s fam dir n).getD .ok))) ∧
    ((initErrors s fam dir n).getD .ok = .ok →
      ∃ t, exec (.init m f n) s = .next t ∧ t.status.err = .ok ∧ t.result = 0#32) := by
  cases he : initErrors s fam dir n with
  | none => exact ⟨fun h => absurd rfl h, fun _ => ⟨_, exec_init_of_valid hm hf he, rfl, rfl⟩⟩
  | some code =>
    refine ⟨fun _ => exec_init_of_error hm hf he, fun h => ?_⟩
    obtain rfl : code = .ok := h
    exact absurd he initErrors_ne_ok

end

/-- An ordered list of checks as a chain of tests. -/
theorem firstError_getD_cons (b : Bool) (c d : ErrCode) (l : List (Bool × ErrCode)) :
    (firstError ((b, c) :: l)).getD d = if b = true then c else (firstError l).getD d := by
  cases b <;> rfl

/-- The chain of tests that `initErrors` is, in the terms of R231 and R232. -/
theorem initErrors_getD (s : State) (fam : Family) (dir : Dir) (n : Nat) :
    (initErrors s fam dir n).getD .ok =
      if ¬ keyLenOk fam s.args.a1.toNat = true then .invalidKey
      else if ¬ nonceLenOk s.cfg fam s.args.a3.toNat = true then .invalidParameter
      else if ¬ taglenOk fam n = true then .invalidParameter
      else if s.cfg.dmemSize < s.args.a0.toNat + s.args.a1.toNat ∨ s.cfg.dmemSize < s.args.a2.toNat + s.args.a3.toNat then
        .addressError
      else if dir = .encrypt ∧ s.guard fam =
        some (s.memRead s.args.a0.toNat s.args.a1.toNat, s.memRead s.args.a2.toNat s.args.a3.toNat) then .invalidKey
      else .ok := by
  simp [initErrors, firstError_getD_cons, State.legal, State.rangeBytes]

theorem dirOf_eq_none {m : Opmode} (h : dirOf m = none) : m = .wrap ∨ m = .unwrap := by
  cases m <;> simp [dirOf] at h ⊢

theorem familyOf_eq_none {f : FamilyField} (h : familyOf f = none) : f = .fam3 := by
  cases f <;> simp [familyOf] at h ⊢

/-- The key lengths (R231). -/
theorem keyLenOk_iff {fam : Family} {k : Nat} :
    keyLenOk fam k = true ↔ if fam = .gcm then k = 16 ∨ k = 24 ∨ k = 32 else k = 32 := by
  cases fam <;> simp [keyLenOk, or_assoc]

/-- The nonce lengths (R231). -/
theorem nonceLenOk_iff {c : Config} {fam : Family} {k : Nat} :
    nonceLenOk c fam k = true ↔ if fam = .gcm then 1 ≤ k ∧ k ≤ c.nonceMax else k = 12 := by
  cases fam <;> simp [nonceLenOk]

/-- The TAGLEN values (R94, R231). -/
theorem taglenOk_iff {fam : Family} {n : Nat} :
    taglenOk fam n = true ↔ n = 0 ∨ fam = .cp ∧ n = 16 ∨ fam = .gcm ∧ 12 ≤ n ∧ n ≤ 16 := by
  cases fam <;> simp [taglenOk]
  omega

/-- Settles O30: WRAP, UNWRAP and FAMILY 3 fail first; for each family the remaining tests are those of `initErrors`. -/
theorem initReportsTheFirstFailingCheck : Obligations.InitReportsTheFirstFailingCheck := by
  intro m f n s klen nlen pair slot code
  cases hm : dirOf m with
  | none =>
    have hcode : code = .invalidParameter := if_pos (dirOf_eq_none hm)
    rw [hcode]
    exact ⟨fun _ => exec_init_of_no_dir hm f n s, nofun⟩
  | some dir =>
    cases hf : familyOf f with
    | none =>
      have hcode : code = .invalidParameter := by simp [code, familyOf_eq_none hf]
      rw [hcode]
      exact ⟨fun _ => exec_init_of_no_family m hf n s, nofun⟩
    | some fam =>
      have hcode : code = (initErrors s fam dir n).getD .ok := by
        rw [initErrors_getD]
        rcases dirOf_eq_some hm with ⟨rfl, rfl⟩ | ⟨rfl, rfl⟩ <;>
          rcases familyOf_eq_some hf with ⟨rfl, rfl⟩ | ⟨rfl, rfl⟩ | ⟨rfl, rfl⟩ <;>
          simp [-Bool.not_eq_true, code, klen, nlen, pair, slot, keyLenOk_iff, nonceLenOk_iff, taglenOk_iff, State.guard]
      rw [hcode]
      exact exec_init_code hm hf

/-! ## The session that INIT loads -/

/-- Everything a successful INIT leaves (R233). -/
theorem initCommit_complete (s : State) (fam : Family) (dir : Dir) (n : Nat) :
    (initCommit s fam dir n).complete .ok 0#32 =
      let key := s.memRead s.args.a0.toNat s.args.a1.toNat
      let nonce := s.memRead s.args.a2.toNat s.args.a3.toNat
      { s with
        status := { err := .ok, phase := .init, family := fam, dir := dir, reinitRequired := false, aadClosed := false }
        result := 0#32
        session := initSession fam key nonce n
        guardChacha := if dir = .encrypt ∧ fam ≠ .gcm then some (key, nonce) else s.guardChacha
        guardGcm := if dir = .encrypt ∧ fam = .gcm then some (key, nonce) else s.guardGcm
        ks := initKeystream s.cfg fam key nonce s.args.a4
        auth := initAuth fam key nonce
        pbuf := [] } := by
  cases dir <;> cases fam <;> rfl

theorem j0Of_length (h : Quad) (iv : List Byte) : (j0Of h iv).length = 16 := by
  unfold j0Of
  split
  · simp [*]
  · simp [ghashOneShot]

theorem slice_zero (x : List Byte) (j : Nat) : slice x 0 j = x.take j := rfl

/-- A slice to the end of the string drops its start. -/
theorem slice_to_end {x : List Byte} {i j : Nat} (h : x.length ≤ j) : slice x i j = x.drop i :=
  List.take_of_length_le (by rw [List.length_drop]; omega)

/-- The checks of INIT pass, in the terms of R231 and R232. -/
theorem initErrors_eq_none_of {s : State} {fam : Family} {dir : Dir} {n : Nat}
    (hkey : keyLenOk fam s.args.a1.toNat = true) (hnonce : nonceLenOk s.cfg fam s.args.a3.toNat = true)
    (htag : taglenOk fam n = true) (hsrc : s.args.a0.toNat + s.args.a1.toNat ≤ s.cfg.dmemSize)
    (hiv : s.args.a2.toNat + s.args.a3.toNat ≤ s.cfg.dmemSize)
    (hguard : dir = .encrypt → s.guard fam ≠
      some (s.memRead s.args.a0.toNat s.args.a1.toNat, s.memRead s.args.a2.toNat s.args.a3.toNat)) :
    initErrors s fam dir n = none :=
  initErrors_eq_none.mpr ⟨hkey, hnonce, htag, (s.legal_iff _ _).mpr hsrc, (s.legal_iff _ _).mpr hiv, hguard⟩

/-- The one-time key of R178 is the first half of block 0, and its halves are r and s of R179. -/
theorem initAuth_cp (key nonce : List Byte) :
    let otk := (chacha20Block key 0#32 nonce).take 32
    initAuth .cp key nonce =
      { Auth.zero with
        r := BitVec.ofNat 128 (leNat (otk.take 16)) &&& 0x0ffffffc0ffffffc0ffffffc0fffffff#128
        s := BitVec.ofNat 128 (leNat (otk.drop 16)) } := by
  intro otk
  have hotk : oneTimeKey key nonce = otk := slice_zero _ _
  have hs : slice otk 16 32 = otk.drop 16 := slice_to_end (by simp [otk])
  simp only [initAuth, polyR, polyS, polyClamp, hotk, hs, slice_zero]

/-- J0's last four bytes are the counter field (R149, R150). -/
theorem initKeystream_gcm (c : Config) (key nonce : List Byte) (a4 : Word) :
    let j0 := j0Of (ghashSubkey key) nonce
    initKeystream c .gcm key nonce a4 =
      { Keystream.zero with
        j0 := j0, ctr := BitVec.ofNat 32 (beNat (j0.drop 12)) + 1#32, maxBlocks := 2 ^ c.exhaustShift - 2 } := by
  intro j0
  have hctr : slice j0 12 16 = j0.drop 12 := slice_to_end (j0Of_length _ _).le
  rw [← hctr]
  rfl

/-- OPMODE and DIR name ENCRYPT together (R92). -/
theorem eq_encrypt_iff_of_dirOf {m : Opmode} {dir : Dir} (h : dirOf m = some dir) : m = .encrypt ↔ dir = .encrypt := by
  cases m <;> cases h <;> simp

/-- Settles O31: the checks pass, and the state is that of INIT's commit with the family's session written out. -/
theorem initLoadsTheSession : Obligations.InitLoadsTheSession := by
  intro m dir n s key nonce hdir hsrc hiv
  have hm : dirOf m = some dir := by rcases hdir with ⟨rfl, rfl⟩ | ⟨rfl, rfl⟩ <;> rfl
  have henc := eq_encrypt_iff_of_dirOf hm
  refine ⟨?_, ?_, ?_⟩
  · intro hk hn ht hg otk
    have hvalid : initErrors s .cp dir n = none := initErrors_eq_none_of (by simp [keyLenOk_iff, hk])
      (by simp [nonceLenOk_iff, hn]) (by simpa [taglenOk_iff] using ht) hsrc hiv (hg ∘ henc.mpr)
    rw [exec_init_of_valid hm rfl hvalid, initCommit_complete]
    simp [initAuth_cp, initSession, tagLenOf, bufferBlockOf, initKeystream, maxBlocksOf, henc, key, nonce, otk]
  · intro hk h1 hmax ht hg h j0
    have hvalid : initErrors s .gcm dir n = none := initErrors_eq_none_of (by simpa [keyLenOk_iff] using hk)
      (by simp [nonceLenOk_iff, h1, hmax]) (by simpa [taglenOk_iff] using ht) hsrc hiv (hg ∘ henc.mpr)
    have hsubkey : ghashSubkey key = h := rfl
    have hj0 : j0Of h nonce = j0 := by simp [j0Of, j0, nonce, pad16]
    rw [exec_init_of_valid hm rfl hvalid, initCommit_complete]
    simp only [initKeystream_gcm, initAuth]
    rw [hsubkey, hj0]
    simp [initSession, tagLenOf, bufferBlockOf, henc, key, nonce]
  · intro hk hn ht hg
    have hvalid : initErrors s .stream dir n = none := initErrors_eq_none_of (by simp [keyLenOk_iff, hk])
      (by simp [nonceLenOk_iff, hn]) (by simp [taglenOk_iff, ht]) hsrc hiv (hg ∘ henc.mpr)
    rw [exec_init_of_valid hm rfl hvalid, initCommit_complete]
    simp [initSession, tagLenOf, bufferBlockOf, initKeystream, initAuth, maxBlocksOf, henc, key, nonce]

/-! ## The nonce-reuse guard -/

/-- An INIT that completes OK has passed its checks and committed (R231 to R233). -/
theorem exec_init_ok {m : Opmode} {f : FamilyField} {n : Nat} {s t : State} (h : exec (.init m f n) s = .next t)
    (hok : t.status.err = .ok) :
    ∃ dir fam, dirOf m = some dir ∧ familyOf f = some fam ∧ initErrors s fam dir n = none ∧
      t = (initCommit s fam dir n).complete .ok 0#32 := by
  cases exec_outcome h with
  | init dir fam _ _ _ hi hd hf he ht =>
    cases hi
    exact ⟨dir, fam, hd, hf, he, ht⟩
  | fail code hc ht =>
    rw [ht] at hok
    exact absurd hok hc.1
  | aadEmpty hi => cases hi
  | aad hi => cases hi
  | size _ hi => cases hi
  | abort hi => cases hi
  | update hi => cases hi
  | consume hi => simp at hi

/-- Two states in which INIT finds the same operands: the parameters, the ARG registers and DMEM agree. -/
structure State.SameOperands (s u : State) : Prop where
  cfg : u.cfg = s.cfg
  args : u.args = s.args
  dmem : u.dmem = s.dmem
  epoch : u.epoch = s.epoch

theorem State.SameOperands.legal {s u : State} (h : s.SameOperands u) (a n : Word) : u.legal a n = s.legal a n := by
  simp [State.legal, h.cfg]

theorem State.SameOperands.rangeBytes {s u : State} (h : s.SameOperands u) (a n : Word) :
    u.rangeBytes a n = s.rangeBytes a n :=
  State.memRead_congr h.dmem h.epoch _ _

/-- A command that stores nothing leaves INIT the same operands (R29, R71). -/
theorem State.SameOperands.of_exec {i : Instr} {s t : State} (h : exec i s = .next t) (hfin : i ≠ .finalize)
    (hupd : i ≠ .update) : s.SameOperands t := by
  obtain ⟨hcfg, hargs, hepoch, -, -⟩ := exec_sameHost h
  exact ⟨hcfg, hargs, exec_keeps_dmem h hfin (fun hi => absurd hi hupd), hepoch⟩

theorem State.SameOperands.trans {s t u : State} (h : s.SameOperands t) (h' : t.SameOperands u) : s.SameOperands u :=
  ⟨h'.cfg.trans h.cfg, h'.args.trans h.args, h'.dmem.trans h.dmem, h'.epoch.trans h.epoch⟩

/-- A DECRYPT INIT does not look at the guard, so it passes wherever an INIT of its operands passed (R232). -/
theorem State.SameOperands.initErrors_decrypt {s u : State} (h : s.SameOperands u) {fam : Family} {dir : Dir} {n : Nat}
    (he : initErrors s fam dir n = none) : initErrors u fam .decrypt n = none := by
  obtain ⟨hkey, hnonce, htag, hsrc, hiv, -⟩ := initErrors_eq_none.mp he
  simp only [initErrors_eq_none, h.cfg, h.args, h.legal]
  exact ⟨hkey, hnonce, htag, hsrc, hiv, nofun⟩

/-- An ENCRYPT INIT fails with INVALID_KEY where its slot holds the key and nonce of an INIT of its operands that passed
(R232). -/
theorem State.SameOperands.initErrors_encrypt {s u : State} (h : s.SameOperands u) {fam : Family} {dir : Dir} {n : Nat}
    (he : initErrors s fam dir n = none)
    (hg : u.guard fam = some (s.rangeBytes s.args.a0 s.args.a1, s.rangeBytes s.args.a2 s.args.a3)) :
    initErrors u fam .encrypt n = some .invalidKey := by
  obtain ⟨hkey, hnonce, htag, hsrc, hiv, -⟩ := initErrors_eq_none.mp he
  simp [initErrors, firstError_cons, h.cfg, h.args, h.legal, h.rangeBytes, hkey, hnonce, htag, hsrc, hiv, hg]

/-- CP and STREAM share the key length, the nonce length and the guard slot, so where one passes so does the other with its
default TAGLEN (R231, R232). -/
theorem initErrors_stream_iff_cp {s : State} {dir : Dir} :
    initErrors s .stream dir 0 = none ↔ initErrors s .cp dir 0 = none := Iff.rfl

theorem initErrors_zero_taglen {s : State} {fam : Family} {dir : Dir} {n : Nat} (he : initErrors s fam dir n = none) :
    initErrors s fam dir 0 = none := by
  obtain ⟨hkey, hnonce, -, hrest⟩ := initErrors_eq_none.mp he
  exact initErrors_eq_none.mpr ⟨hkey, hnonce, taglenOk_iff.mpr (.inl rfl), hrest⟩

/-- A committed ENCRYPT INIT has its key and nonce in the slot of its family (R233). -/
theorem initCommit_guard (s : State) (fam : Family) (n : Nat) :
    (initCommit s fam .encrypt n).guard fam =
      some (s.rangeBytes s.args.a0 s.args.a1, s.rangeBytes s.args.a2 s.args.a3) := by
  cases fam <;> rfl

/-- Settles O32: INIT and ABORT leave the operands as they are and the slot at the key and nonce of the INIT. -/
theorem repeatedEncryptInitIsRejected : Obligations.RepeatedEncryptInitIsRejected := by
  intro f n s t h hok
  obtain ⟨dir, fam, hd, hf, he, ht⟩ := exec_init_ok h hok
  obtain rfl : Dir.encrypt = dir := Option.some.inj hd
  have hop : s.SameOperands t := .of_exec h nofun nofun
  have hg : t.guard fam = some (s.rangeBytes s.args.a0 s.args.a1, s.rangeBytes s.args.a2 s.args.a3) :=
    ht ▸ initCommit_guard s fam n
  have hab : exec .abort t = .next ((t.zeroise.withStatus t.status.aborted).complete .ok 0#32) := rfl
  refine ⟨exec_init_of_error rfl hf (hop.initErrors_encrypt he hg), ⟨_, hab, ?_⟩,
    ⟨_, exec_init_of_valid rfl hf (hop.initErrors_decrypt he), rfl⟩, ?_, ?_⟩
  · exact exec_init_of_error rfl hf ((hop.trans (.of_exec hab nofun nofun)).initErrors_encrypt he hg)
  · rintro rfl
    cases hf
    exact exec_init_of_error rfl rfl (hop.initErrors_encrypt (initErrors_stream_iff_cp.mpr (initErrors_zero_taglen he)) hg)
  · rintro rfl
    cases hf
    exact exec_init_of_error rfl rfl (hop.initErrors_encrypt (initErrors_stream_iff_cp.mp (initErrors_zero_taglen he)) hg)

end Sys2Proof.Machine
end

section
/-! PROOFS. UPDATE_AAD, OUTPUT_SIZE and ABORT (O33 to O36): their whole effect (R240 to R251), and that OUTPUT_SIZE foretells
RESULT of UPDATE and FINALIZE (R280). -/

namespace Sys2Proof.Machine

/-! ## UPDATE_AAD -/

theorem exec_updateAad_of_error {s : State} {code : ErrCode} (h : aadErrors s = some code) :
    exec .updateAad s = .next (s.failed code) := by
  simp only [exec, execUpdateAad, h]
  rfl

/-- UPDATE_AAD with no failing check (R240, R243). -/
theorem exec_updateAad_of_valid {s : State} (h : aadErrors s = none) :
    exec .updateAad s = .next (if s.args.a1.toNat = 0 then s.complete .ok 0#32
      else ((s.absorbAad s.srcBytes).withStatus s.status.tookAad).complete .ok 0#32) := by
  simp only [exec, execUpdateAad, h]
  split <;> rfl

/-- The engine does not count AAD bytes, so aad_len grows by the string's length (R185). -/
theorem authUpdateAad_eq (fam : Family) (a : Auth) (b : List Byte) :
    authUpdateAad fam a b = { engineUpdate fam a b with aadLen := a.aadLen + b.length } := by
  simp only [authUpdateAad, (engineUpdate_same fam a b).aadLen]

/-- AADMAX of a family that has AAD (R241). -/
theorem aadMax_eq {fam : Family} (h : fam ≠ .stream) : aadMax fam = if fam = .gcm then 2 ^ 61 - 1 else 2 ^ 64 - 1 := by
  cases fam
  · rfl
  · rfl
  · exact absurd rfl h

/-- Settles O33: each clause is one outcome of the ordered checks of `aadErrors`, or what is done when none fails. -/
theorem updateAadAbsorbsTheAad : Obligations.UpdateAadAbsorbsTheAad := by
  intro s n limit
  refine ⟨fun hp => ?_, fun hf => ?_, fun hp hf => ?_⟩
  · have hacc : s.status.acceptsAad = false := Bool.eq_false_iff.mpr (mt (Status.acceptsAad_iff _).mp hp)
    exact exec_updateAad_of_error (by simp [aadErrors, firstError_cons, hacc])
  · exact exec_updateAad_of_error (by simp [aadErrors, firstError_cons, hf])
  have hacc := (Status.acceptsAad_iff _).mpr hp
  have hlimit : limit = aadMax s.status.family := (aadMax_eq hf).symm
  refine ⟨fun hr => ?_, fun hr hl => ?_, fun hr hl h0 => ?_, fun hr hl h0 => ?_⟩
  · exact exec_updateAad_of_error (by simpa [aadErrors, firstError_cons, hacc, hf, State.legal] using hr)
  · rw [hlimit] at hl
    exact exec_updateAad_of_error (by simp [aadErrors, firstError_cons, hacc, hf, (s.legal_iff _ _).mpr hr, hl, n])
  · rw [exec_updateAad_of_valid (aadErrors_eq_none.mpr ⟨hacc, hf, (s.legal_iff _ _).mpr hr, hlimit ▸ hl⟩), if_pos h0]
    rfl
  · rw [exec_updateAad_of_valid (aadErrors_eq_none.mpr ⟨hacc, hf, (s.legal_iff _ _).mpr hr, hlimit ▸ hl⟩),
      if_neg h0.ne', State.absorbAad, authUpdateAad_eq, State.srcBytes_length]
    rfl

/-! ## OUTPUT_SIZE -/

/-- OUTPUT_SIZE in an active session (R245). -/
theorem exec_outputSize_of_active {s : State} (final : Bool) (h : s.status.active = true) :
    exec (.outputSize final) s =
      .next (s.complete .ok (BitVec.ofNat 32 (min (outputSize s final s.args.a1.toNat) (2 ^ 32 - 1)))) := by
  simp [exec, execOutputSize, h]

/-- The rule of R245 as one chain of tests. -/
theorem outputSize_eq (s : State) (final : Bool) (n : Nat) :
    outputSize s final n =
      if s.status.family = .stream then n
      else if s.status.dir = .encrypt then
        if final = false then (s.pbuf.length + n) / s.session.block * s.session.block
        else s.pbuf.length + n + s.session.tagLen
      else if final = false then 0
      else s.pbuf.length + n - s.session.tagLen := by
  unfold outputSize wholeBlocks
  cases s.status.family <;> cases s.status.dir <;> cases final <;> rfl

/-- Settles O34: by whether the session is active, with the size as `outputSize_eq` says. -/
theorem outputSizeComputesTheSize : Obligations.OutputSizeComputesTheSize := by
  intro s final n r
  refine ⟨fun hp => ?_, fun hp => ?_⟩
  · have hr : r = outputSize s final n := by simp only [r, outputSize_eq, Nat.max_zero]
    rw [hr]
    exact exec_outputSize_of_active final ((Status.active_iff _).mpr hp)
  · have hact := (Status.active_eq_false_iff _).mpr hp
    simp only [exec, execOutputSize, hact]
    rfl

/-- A size that RESULT holds is the one that OUTPUT_SIZE gives (R245). -/
theorem exec_outputSize_result {s u : State} {final : Bool} (hact : s.status.active = true) {r : Word}
    (hr : r.toNat = outputSize s final s.args.a1.toNat) (h : exec (.outputSize final) s = .next u) : u.result = r := by
  rw [exec_outputSize_of_active final hact, ← hr, Nat.min_eq_left (Nat.le_sub_one_of_lt r.isLt)] at h
  cases h
  simp

/-- RESULT of an UPDATE that completes OK is the size of R245 (R271 to R273). -/
theorem updateBody_result {s : State} (hok : (updateBody s).status.err = .ok) :
    (updateBody s).result.toNat = outputSize s false s.args.a1.toNat := by
  rcases updateBody_cases s with ⟨hf, e⟩ | ⟨hf, hd, e⟩ | ⟨hf, hd, e⟩ <;> rw [e] at hok ⊢
  · rcases updateStream_cases s with ⟨-, e⟩ | ⟨-, -, e⟩ | ⟨hfit, -, e⟩ <;> rw [e] at hok ⊢
    · cases hok
    · cases hok
    · simp [outputSize_eq, hf]
  · rcases updateEncrypt_cases s with ⟨-, e⟩ | ⟨-, -, e⟩ | ⟨hfit, -, e⟩ <;> rw [e] at hok ⊢
    · cases hok
    · cases hok
    · rw [State.complete_result, toNat_ofNat_of_le hfit]
      simp [outputSize_eq, hf, hd]
  · rcases updateDecrypt_cases s with ⟨-, e⟩ | ⟨-, e⟩ <;> rw [e] at hok ⊢
    · cases hok
    · simp [outputSize_eq, hf, hd]

/-- RESULT of a FINALIZE that completes OK is the size of R245 (R274 to R276). -/
theorem finalizeBody_result {s : State} (hok : (finalizeBody s).status.err = .ok) :
    (finalizeBody s).result.toNat = outputSize s true s.args.a1.toNat := by
  rcases finalizeBody_cases s with ⟨hf, e⟩ | ⟨hf, hd, e⟩ | ⟨hf, hd, e⟩ <;> rw [e] at hok ⊢
  · rcases finalizeStream_cases s with ⟨-, e⟩ | ⟨-, e⟩ <;> rw [e] at hok ⊢
    · cases hok
    · cases hx : (s.xorData s.srcBytes).exhausted with
      | true => simp [hx] at hok
      | false => simp [outputSize_eq, hf, s.xorData_out_eq _ hx]
  · rcases finalizeEncrypt_cases hf with ⟨-, e⟩ | ⟨-, -, e⟩ | ⟨hfit, -, e⟩ <;> rw [e] at hok ⊢
    · cases hok
    · cases hok
    · rw [State.complete_result, toNat_ofNat_of_le hfit]
      simp [outputSize_eq, hf, hd]
  · rcases finalizeDecrypt_cases hf with ⟨-, e⟩ | ⟨-, -, e⟩ | ⟨-, -, -, e⟩ | ⟨-, -, -, -, e⟩ | ⟨hfit, -, -, -, e⟩
    all_goals rw [e] at hok ⊢
    · cases hok
    · cases hok
    · cases hok
    · cases hok
    · rw [State.complete_result, toNat_ofNat_of_le hfit]
      simp [outputSize_eq, hf, hd]

/-- Settles O35: UPDATE and FINALIZE that complete OK have run their bodies in an active session. -/
theorem outputSizePredictsResult : Obligations.OutputSizePredictsResult := by
  intro s t u
  refine ⟨fun h hok hu => ?_, fun h hok hu => ?_⟩
  · obtain ⟨hL, rfl⟩ := exec_update_ok h hok
    exact exec_outputSize_result hL.active (updateBody_result hok) hu
  · obtain ⟨hL, rfl⟩ := exec_finalize_ok h hok
    exact exec_outputSize_result hL.active (finalizeBody_result hok) hu

/-! ## ABORT -/

/-- Settles O36: Zeroise and the STATUS of R250 are the fields written out. -/
theorem abortEndsTheSession : Obligations.AbortEndsTheSession := fun _ => rfl

end Sys2Proof.Machine
end

section
/-! PROOFS. The checks of UPDATE and FINALIZE and what passing them means (O28, O29, O37, O39, O46): the first failing
check is the whole effect, a session is consumed once, and a decrypting session shows no plaintext before its tag is checked
(R270 to R284). -/

namespace Sys2Proof.Machine

/-! ## The checks in their order -/

/-- The prologue as one chain of tests (R270). -/
theorem dataErrors_getD (s : State) :
    (dataErrors s).getD .ok =
      if s.status.phase = .idle ∨ s.status.phase = .finalized then .illegalState
      else if s.cfg.dmemSize < s.args.a0.toNat + s.args.a1.toNat ∨ s.cfg.dmemSize < s.args.a2.toNat + s.args.a3.toNat then
        .addressError
      else .ok := by
  simp [dataErrors, firstError_getD_cons, State.legal, Status.active_eq_false_iff]

theorem dataErrors_ne_ok (s : State) : dataErrors s ≠ some .ok := fun h => by simpa using dataErrors_code h

/-- The prologue passes exactly when its chain of tests comes to OK. -/
theorem dataErrors_getD_eq_ok {s : State} : (dataErrors s).getD .ok = .ok ↔ dataErrors s = none := by
  cases h : dataErrors s with
  | none => simp
  | some c =>
    have hc : c ≠ .ok := fun e => dataErrors_ne_ok s (e ▸ h)
    simp [hc]

/-- A check that fails is the whole effect (R323). -/
theorem State.raise_eq_failed (s : State) (code : ErrCode) : s.raise code = s.failed code := rfl

/-- UPDATE and FINALIZE with a failing prologue (R270, R323). -/
theorem exec_data_of_error {s : State} (h : (dataErrors s).getD .ok ≠ .ok) :
    exec .update s = .next (s.failed ((dataErrors s).getD .ok)) ∧
    exec .finalize s = .next (s.failed ((dataErrors s).getD .ok)) := by
  cases hc : dataErrors s with
  | none => simp [hc] at h
  | some c =>
    simp [exec, execUpdate, execFinalize, hc, State.raise_eq_failed]

/-- The check of UPDATE after the prologue: capacity, or PBUF_CAP (R271 to R273). -/
def State.updateCheck (s : State) : ErrCode :=
  if s.status.family = .stream then if s.args.a3.toNat < s.args.a1.toNat then .bufferTooSmall else .ok
  else if s.status.dir = .encrypt then
    if s.args.a3.toNat < (s.pbuf.length + s.args.a1.toNat) / s.session.block * s.session.block then .bufferTooSmall else .ok
  else if s.cfg.pbufCap < s.pbuf.length + s.args.a1.toNat then .capacityExceeded
  else .ok

/-- The check of FINALIZE after the prologue: capacity (R274 to R276). -/
def State.finalizeCheck (s : State) : ErrCode :=
  if s.status.family = .stream then if s.args.a3.toNat < s.args.a1.toNat then .bufferTooSmall else .ok
  else if s.status.dir = .encrypt then
    if s.args.a3.toNat < s.pbuf.length + s.args.a1.toNat + s.session.tagLen then .bufferTooSmall else .ok
  else if s.args.a3.toNat < s.pbuf.length + s.args.a1.toNat - s.session.tagLen then .bufferTooSmall
  else .ok

theorem updateBody_of_stream {s : State} (hf : s.status.family = .stream) : updateBody s = updateStream s := if_pos hf

theorem updateBody_of_encrypt {s : State} (hf : s.status.family ≠ .stream) (hd : s.status.dir = .encrypt) :
    updateBody s = updateEncrypt s := by
  simp [updateBody, hf, hd]

theorem updateBody_of_decrypt {s : State} (hf : s.status.family ≠ .stream) (hd : s.status.dir = .decrypt) :
    updateBody s = updateDecrypt s := by
  simp [updateBody, hf, hd]

theorem finalizeBody_of_stream {s : State} (hf : s.status.family = .stream) : finalizeBody s = finalizeStream s := if_pos hf

theorem finalizeBody_of_encrypt {s : State} (hf : s.status.family ≠ .stream) (hd : s.status.dir = .encrypt) :
    finalizeBody s = finalizeEncrypt s := by
  simp [finalizeBody, hf, hd]

theorem finalizeBody_of_decrypt {s : State} (hf : s.status.family ≠ .stream) (hd : s.status.dir = .decrypt) :
    finalizeBody s = finalizeDecrypt s := by
  simp [finalizeBody, hf, hd]

/-- After the prologue UPDATE fails its check, or past it ends OK or exhausted (R271 to R273). -/
theorem updateBody_check (s : State) :
    (s.updateCheck ≠ .ok ∧ updateBody s = s.failed s.updateCheck) ∨
    (s.updateCheck = .ok ∧ ((updateBody s).status.err = .ok ∨ (updateBody s).status.err = .counterExhausted)) := by
  unfold State.updateCheck
  rcases updateBody_cases s with ⟨hf, e⟩ | ⟨hf, hd, e⟩ | ⟨hf, hd, e⟩ <;> rw [e]
  · rcases updateStream_cases s with ⟨h, e⟩ | ⟨h, -, e⟩ | ⟨h, -, e⟩ <;> rw [e]
    · simp [hf, h, State.raise_eq_failed]
    · simp [hf, h]
    · simp [hf, h]
  · rcases updateEncrypt_cases s with ⟨h, e⟩ | ⟨h, -, e⟩ | ⟨h, -, e⟩ <;> rw [e] <;> rw [State.pending_length] at h
    · simp [hf, hd, h, State.raise_eq_failed]
    · simp [hf, hd, h]
    · simp [hf, hd, h]
  · rcases updateDecrypt_cases s with ⟨h, e⟩ | ⟨h, e⟩ <;> rw [e] <;> rw [State.pending_length] at h
    · simp [hf, hd, h, State.raise_eq_failed]
    · simp [hf, hd, h]

/-- After the prologue FINALIZE fails its check, or past it ends OK, exhausted or with a wrong tag (R274 to R276). -/
theorem finalizeBody_check (s : State) :
    (s.finalizeCheck ≠ .ok ∧ finalizeBody s = s.failed s.finalizeCheck) ∨
    (s.finalizeCheck = .ok ∧ ((finalizeBody s).status.err = .ok ∨ (finalizeBody s).status.err = .counterExhausted ∨
      (finalizeBody s).status.err = .authenticationFailed)) := by
  unfold State.finalizeCheck
  rcases finalizeBody_cases s with ⟨hf, e⟩ | ⟨hf, hd, e⟩ | ⟨hf, hd, e⟩ <;> rw [e]
  · rcases finalizeStream_cases s with ⟨h, e⟩ | ⟨h, e⟩ <;> rw [e]
    · simp [hf, h, State.raise_eq_failed]
    · cases hx : (s.xorData s.srcBytes).exhausted <;> simp [hf, h]
  · rcases finalizeEncrypt_cases hf with ⟨h, e⟩ | ⟨h, -, e⟩ | ⟨h, -, e⟩ <;> rw [e] <;> rw [State.pending_length] at h
    · simp [hf, hd, h, State.raise_eq_failed]
    · simp [hf, hd, h]
    · simp [hf, hd, h]
  · rcases finalizeDecrypt_cases hf with ⟨h, e⟩ | ⟨h, -, e⟩ | ⟨h, -, -, e⟩ | ⟨h, -, -, -, e⟩ | ⟨h, -, -, -, e⟩ <;>
      rw [e] <;> rw [State.pending_length] at h
    · exact .inl (by simp [hf, hd, h, State.raise_eq_failed])
    all_goals simp [hf, hd, not_lt.mpr h]

/-- Settles O37: the prologue's chain, then the one check of each body. -/
theorem dataCommandsReportTheFirstFailingCheck : Obligations.DataCommandsReportTheFirstFailingCheck := by
  intro s n cap prologue updateCode finalizeCode
  have hpro : prologue = (dataErrors s).getD .ok := (dataErrors_getD s).symm
  have hupd : updateCode = if prologue ≠ .ok then prologue else s.updateCheck := rfl
  have hfin : finalizeCode = if prologue ≠ .ok then prologue else s.finalizeCheck := rfl
  rw [hupd, hfin]
  by_cases h : prologue = .ok
  · have hL := (State.dataLegal_iff s).mpr (dataErrors_getD_eq_ok.mp (hpro.symm.trans h))
    simp only [h, ne_eq, not_true_eq_false, if_false, hL.update, hL.finalize, Host.Outcome.next.injEq, exists_eq_left']
    have hU := updateBody_check s
    have hF := finalizeBody_check s
    tauto
  · rw [if_pos h, if_pos h]
    rw [hpro] at h ⊢
    obtain ⟨heu, hef⟩ := exec_data_of_error h
    exact ⟨fun _ => heu, fun hc => absurd hc h, fun _ => hef, fun hc => absurd hc h⟩

/-! ## Active sessions only -/

/-- The prologue raises ILLEGAL_STATE exactly without an active session (R284). -/
theorem dataErrors_illegalState {s : State} :
    dataErrors s = some .illegalState ↔ s.status.phase = .idle ∨ s.status.phase = .finalized := by
  rw [← Status.active_eq_false_iff]
  cases h : s.status.active <;> simp [dataErrors, firstError_cons, h]

theorem updateCheck_ne_illegalState (s : State) : s.updateCheck ≠ .illegalState := by
  unfold State.updateCheck
  split_ifs <;> simp

theorem finalizeCheck_ne_illegalState (s : State) : s.finalizeCheck ≠ .illegalState := by
  unfold State.finalizeCheck
  split_ifs <;> simp

/-- Settles O28: the prologue alone raises ILLEGAL_STATE, and OUTPUT_SIZE makes the same test. -/
theorem dataCommandsNeedAnActiveSession : Obligations.DataCommandsNeedAnActiveSession := by
  intro i s t hi h
  rcases hi with rfl | rfl | ⟨final, rfl⟩
  · rcases execUpdate_cases s with ⟨c, hc, e⟩ | ⟨hn, e⟩ <;> simp only [exec, e] at h <;> cases h <;>
      rw [← dataErrors_illegalState]
    · simp [hc]
    · rcases updateBody_check s with ⟨-, e⟩ | ⟨-, e | e⟩
      · simp [hn, e, State.failed, updateCheck_ne_illegalState]
      · simp [hn, e]
      · simp [hn, e]
  · rcases execFinalize_cases s with ⟨c, hc, e⟩ | ⟨hn, e⟩ <;> simp only [exec, e] at h <;> cases h <;>
      rw [← dataErrors_illegalState]
    · simp [hc]
    · rcases finalizeBody_check s with ⟨-, e⟩ | ⟨-, e | e | e⟩
      · simp [hn, e, State.failed, finalizeCheck_ne_illegalState]
      · simp [hn, e]
      · simp [hn, e]
      · simp [hn, e]
  · rcases execOutputSize_cases final s with ⟨ha, e⟩ | ⟨ha, e⟩ <;> simp only [exec, e] at h <;> cases h <;>
      rw [← Status.active_eq_false_iff] <;> simp [ha]

/-! ## Consume -/

/-- What ends a session leaves it consumed (R277). -/
theorem State.Ending.consumedFrom {s u : State} {b : List Byte} (hu : s.Ending u b) (code : ErrCode) (r : Word) :
    s.ConsumedFrom (u.consume.complete code r) :=
  State.consumedFrom_of (by rw [hu.status]; rfl) (by rw [hu.status]; rfl) (by rw [hu.status]; rfl) hu.guardChacha
    hu.guardGcm code r

/-- A FINALIZE past its checks, or an UPDATE that meets exhaustion, consumes the session (R277). -/
theorem exec_consumes {s t : State}
    (h : exec .finalize s = .next t ∧
        (t.status.err = .ok ∨ t.status.err = .authenticationFailed ∨ t.status.err = .counterExhausted) ∨
      exec .update s = .next t ∧ t.status.err = .counterExhausted) : s.ConsumedFrom t := by
  obtain ⟨i, he, hi, herr⟩ : ∃ i, exec i s = .next t ∧ (i = .finalize ∨ i = .update ∧ t.status.err = .counterExhausted) ∧
      (t.status.err = .ok ∨ t.status.err = .authenticationFailed ∨ t.status.err = .counterExhausted) := by
    rcases h with ⟨he, herr⟩ | ⟨he, herr⟩
    · exact ⟨_, he, .inl rfl, herr⟩
    · exact ⟨_, he, .inr ⟨rfl, herr⟩, .inr (.inr herr)⟩
  cases exec_outcome he with
  | consume _ _ u code b r ht _ hu => exact ht ▸ hu.consumedFrom code r
  | fail code hc ht =>
    have hcode : t.status.err = code := by rw [ht]; rfl
    rw [hcode] at herr
    tauto
  | update hi' _ _ _ _ _ _ _ _ _ ht => simp [hi', ht] at hi
  | init _ _ _ _ _ hi' => simp [hi'] at hi
  | aadEmpty hi' => simp [hi'] at hi
  | aad hi' => simp [hi'] at hi
  | size _ hi' => simp [hi'] at hi
  | abort hi' => simp [hi'] at hi

/-- Settles O29: the session is consumed, and STATE FINALIZED turns the four commands away. -/
theorem finalizeConsumesTheSession : Obligations.FinalizeConsumesTheSession := by
  intro s t h
  have hcons := exec_consumes h
  exact ⟨hcons, exec_of_finalized hcons.phase nofun nofun, exec_of_finalized hcons.phase nofun nofun,
    exec_of_finalized hcons.phase nofun nofun, fun _ => exec_of_finalized hcons.phase nofun nofun⟩

/-! ## Decrypting sessions -/

/-- Settles O39: UPDATE_DEC, with CloseAad written out. -/
theorem updateDecryptOnlyBuffers : Obligations.UpdateDecryptOnlyBuffers := by
  intro s hL hf hd
  have hauth := State.closedAuth_eq hf
  rw [hL.update, updateBody_of_decrypt hf hd, ← State.pending_length]
  rcases updateDecrypt_cases s with ⟨h, e⟩ | ⟨h, e⟩ <;> rw [e]
  · exact ⟨fun _ => rfl, fun h' => absurd h (not_lt.mpr h')⟩
  · refine ⟨fun h' => absurd h' (not_lt.mpr h), fun _ => ?_⟩
    rw [State.closeAad, hauth]
    rfl

/-- After zeros were written a byte is 0 or reads as before. -/
theorem State.readByte_memWrite_zeros (s : State) (a n x : Nat) :
    (s.memWrite a (zeros n)).readByte x = 0#8 ∨ (s.memWrite a (zeros n)).readByte x = s.readByte x := by
  by_cases hx : x < a ∨ a + n ≤ x
  · exact .inr (State.readByte_memWrite_out s a _ (by rwa [zeros_length]))
  · obtain ⟨i, rfl⟩ := Nat.exists_eq_add_of_le (by omega : a ≤ x)
    refine .inl ?_
    rw [State.readByte_memWrite_in s a _ (by rw [zeros_length]; omega)]
    exact List.getElem_replicate _

/-- Settles O46: only FINALIZE writes a byte, and what it writes is the plaintext of a matching tag, or zeros. -/
theorem noPlaintextBeforeTheTagIsChecked : Obligations.NoPlaintextBeforeTheTagIsChecked := by
  intro i s t x hf hd he hx
  obtain ⟨-, -, hepoch, -⟩ := exec_sameHost he
  obtain rfl : i = .finalize := by
    by_contra hi
    exact hx (State.readByte_congr (exec_keeps_dmem he hi fun _ => ⟨hf, hd⟩) hepoch x)
  refine ⟨rfl, ?_⟩
  cases execFinalize_outcome he with
  | fail code _ ht => exact absurd (State.readByte_congr (by rw [ht]; rfl) hepoch x) hx
  | consume _ _ u code b r ht hc hu _ hauth hdec htag =>
    have hdmem : t.dmem = Memory.storeBytes s.dmem s.args.a2.toNat b := by rw [ht]; exact hu.dmem
    have hempty : b ≠ [] := by
      rintro rfl
      exact hx (State.readByte_congr hdmem hepoch x)
    have herr : t.status.err = code := by rw [ht]; rfl
    rw [herr]
    rcases hc with ⟨rfl, -⟩ | ⟨rfl, -⟩ | rfl
    · exact .inl ⟨rfl, htag hf hd rfl⟩
    · obtain ⟨-, -, -, hb⟩ := hauth rfl
      obtain rfl := hb.resolve_left hempty
      rw [State.readByte_congr (s := s.memWrite s.args.a2.toNat (zeros (s.pending.length - s.session.tagLen))) hdmem hepoch]
        at hx ⊢
      exact .inr ⟨rfl, (State.readByte_memWrite_zeros s _ _ x).resolve_right hx⟩
    · exact absurd (hdec hf hd rfl) hempty
  | update hi => cases hi
  | init _ _ _ _ _ hi => cases hi
  | aadEmpty hi => cases hi
  | aad hi => cases hi
  | size _ hi => cases hi
  | abort hi => cases hi

end Sys2Proof.Machine
end

section
/-! PROOFS. What UPDATE and FINALIZE write (O38, O40 to O45, O48, O49, O58): the keystream's bytes up to the limit, the
tag, the session that goes on or is consumed, and that none of it depends on where the destination lies (R271 to R283). -/

namespace Sys2Proof.Machine

/-! ## KsXor in a good session -/

/-- KsXor of a good session gives the keystream's bytes up to the limit (R144, R147). -/
theorem State.SessionInv.xorData_out {s : State} (h : s.SessionInv) (d : List Byte) :
    (s.xorData d).out = s.crypt (d.take s.ksLeft) := by
  rw [h.crypt_eq, h.ksLeft_eq]
  exact ksXor_out_eq_xorFrom (blockBytes_pos _) h.ksBlock_length d h.ks_good

/-- KsXor of a good session is exhausted exactly by more bytes than it may still use (R147). -/
theorem State.SessionInv.xorData_exhausted {s : State} (h : s.SessionInv) (d : List Byte) :
    (s.xorData d).exhausted = true ↔ s.ksLeft < d.length := by
  rw [h.ksLeft_eq]
  exact (ksXor_limit (blockBytes_pos _) h.ksBlock_length d h.used h.pos).1

/-- Data within the limit is xored whole. -/
theorem State.SessionInv.xorData_within {s : State} (h : s.SessionInv) {d : List Byte} (hd : d.length ≤ s.ksLeft) :
    (s.xorData d).exhausted = false ∧ (s.xorData d).out = s.crypt d := by
  rw [h.xorData_out, List.take_of_length_le hd, Bool.eq_false_iff, ne_eq, h.xorData_exhausted]
  exact ⟨by omega, rfl⟩

/-- Data beyond the limit is xored up to it. -/
theorem State.SessionInv.xorData_beyond {s : State} (h : s.SessionInv) {d : List Byte} (hd : s.ksLeft < d.length) :
    (s.xorData d).exhausted = true ∧ (s.xorData d).out.length = s.ksLeft := by
  rw [h.xorData_out, h.xorData_exhausted, State.crypt_length, List.length_take]
  omega

/-- What is not exhausted was within the limit. -/
theorem State.SessionInv.le_ksLeft {s : State} (h : s.SessionInv) {d : List Byte} (hx : (s.xorData d).exhausted = false) :
    d.length ≤ s.ksLeft :=
  not_lt.mp fun hlt => Bool.eq_false_iff.mp hx ((h.xorData_exhausted d).mpr hlt)

/-- KsXor moves a session on in its keystream by the bytes it made (R143, R144). -/
theorem State.SessionInv.xorData_moves {s t : State} (h : s.SessionInv) (d : List Byte) (hk : t.ks = (s.xorData d).ks)
    (hf : t.status.family = s.status.family) :
    t.ksStart = s.ksStart ∧ t.ksOffset = s.ksOffset + (s.xorData d).out.length ∧ t.ks.maxBlocks = s.ks.maxBlocks ∧
    t.ks.j0 = s.ks.j0 := by
  have hgood := h.xorData_good h.ks_good d
  obtain ⟨hsum, -, -⟩ := h.xorData_account d
  have hbuf := h.ks_good.buf_length_le h.ksBlock_length
  refine ⟨?_, ?_, ?_⟩
  · rw [State.ksStart, hk, hgood.ctr, add_sub_cancel_right]
  · rw [State.ksOffset, State.ksOffset, hk, hf]
    omega
  · rw [hk]
    exact ksXor_frame _ _ _

/-- A STREAM session has nothing pending but this call's source (R214). -/
theorem State.SessionInv.stream_pending {s : State} (h : s.SessionInv) (hf : s.status.family = .stream) :
    s.pending = s.srcBytes := by
  have hb := h.buffer
  simp only [State.bufferRule, hf] at hb
  rw [State.pending_eq, hb, List.nil_append]

/-! ## Ending a session -/

/-- The end of a session that wrote the `n` bytes `c` at ARG2 and counts them in RESULT (R28, R277). -/
theorem State.Ending.complete {s u : State} {b c : List Byte} {n : Nat} (hu : s.Ending u b) (hb : b = c)
    (hn : b.length = n) (code : ErrCode) :
    (u.consume.complete code (BitVec.ofNat 32 n)).status.err = code ∧
    (u.consume.complete code (BitVec.ofNat 32 n)).result = BitVec.ofNat 32 n ∧
    (u.consume.complete code (BitVec.ofNat 32 n)).memRead s.args.a2.toNat n = c ∧
    s.sameOutside (u.consume.complete code (BitVec.ofNat 32 n)) s.args.a2.toNat n ∧
    s.ConsumedFrom (u.consume.complete code (BitVec.ofNat 32 n)) ∧
    s.sameHost (u.consume.complete code (BitVec.ofNat 32 n)) := by
  obtain ⟨-, -, hepoch, -⟩ := hu.sameHost
  subst hb
  exact ⟨rfl, rfl, State.memRead_of_write hu.dmem hepoch hn, State.sameOutside_of_write hu.dmem hepoch hn.le,
    hu.consumedFrom code _, hu.sameHost⟩

/-! ## STREAM -/

/-- Settles O40: UPDATE_STREAM with KsXor's bytes named by their places. -/
theorem updateStreamXorsEveryByte : Obligations.UpdateStreamXorsEveryByte := by
  intro s hinv hL hf n src
  have hS := hinv.session hL.active
  have hlen : s.srcBytes.length = n := s.srcBytes_length
  rw [hL.update, updateBody_of_stream hf]
  rcases updateStream_cases s with ⟨h, e⟩ | ⟨h, hx, e⟩ | ⟨h, hx, e⟩ <;> rw [e]
  · exact ⟨fun _ => rfl, fun h' => absurd h (not_lt.mpr h'), fun h' => absurd h (not_lt.mpr h')⟩
  · rw [hS.xorData_exhausted, hlen] at hx
    refine ⟨fun h' => absurd h' (not_lt.mpr h), fun _ hk => absurd hx (not_lt.mpr hk), fun _ _ => ⟨_, rfl, ?_⟩⟩
    obtain ⟨-, hn⟩ := hS.xorData_beyond (hlen.symm ▸ hx)
    rw [hn]
    refine State.Ending.complete ?_ (hS.xorData_out src) hn _
    exact ⟨rfl, rfl, rfl, ⟨rfl, rfl, rfl, rfl, rfl⟩, rfl⟩
  · have hle : n ≤ s.ksLeft := hlen ▸ hS.le_ksLeft hx
    refine ⟨fun h' => absurd h' (not_lt.mpr h), fun _ _ => ⟨_, rfl, rfl, rfl, ?_⟩, fun _ hk => absurd hk (not_lt.mpr hle)⟩
    obtain ⟨-, hout⟩ := hS.xorData_within (hlen.symm ▸ hle)
    have hn : (s.xorData s.srcBytes).out.length = n := (s.xorData_out_eq _ hx).trans hlen
    have hmoves := hS.xorData_moves (t := (((s.closeAad.withKs (s.xorData s.srcBytes).ks).memWrite s.args.a2.toNat
      (s.xorData s.srcBytes).out).complete .ok (BitVec.ofNat 32 s.args.a1.toNat))) s.srcBytes rfl rfl
    rw [hn] at hmoves
    refine ⟨.trans ?_ hout, ?_, rfl, State.closedAuth_stream hf, rfl, rfl, rfl, ⟨rfl, rfl, rfl, rfl, rfl⟩, hmoves⟩
    · exact State.memRead_of_write rfl rfl hn
    · exact State.sameOutside_of_write rfl rfl hn.le

/-- Settles O44: FINALIZE_STREAM with KsXor's bytes named by their places. -/
theorem finalizeStreamXorsAndConsumes : Obligations.FinalizeStreamXorsAndConsumes := by
  intro s hinv hL hf n k
  have hS := hinv.session hL.active
  have hlen : s.srcBytes.length = n := s.srcBytes_length
  have htake : s.srcBytes.take s.ksLeft = s.srcBytes.take k := List.take_eq_take_iff.mpr (by omega)
  have hout := hS.xorData_out s.srcBytes
  have hex : (s.xorData s.srcBytes).exhausted = true ↔ ¬ n ≤ s.ksLeft := by rw [hS.xorData_exhausted, hlen, not_le]
  rw [htake] at hout
  have hn : (s.xorData s.srcBytes).out.length = k := by
    rw [hout, State.crypt_length, List.length_take, hlen]
    omega
  rw [hL.finalize, finalizeBody_of_stream hf]
  rcases finalizeStream_cases s with ⟨h, e⟩ | ⟨h, e⟩ <;> rw [e]
  · exact ⟨fun _ => rfl, fun h' => absurd h (not_lt.mpr h')⟩
  · refine ⟨fun h' => absurd h' (not_lt.mpr h), fun _ => ⟨_, rfl, ?_⟩⟩
    simp only [hex, ite_not, hn]
    refine State.Ending.complete ?_ hout hn _
    exact ⟨rfl, rfl, rfl, ⟨rfl, rfl, rfl, rfl, rfl⟩, rfl⟩

/-! ## Encrypting -/

/-- Settles O38: UPDATE_ENC within the limit, where KsXor gives all of the whole blocks. -/
theorem updateEncryptsWholeBlocks : Obligations.UpdateEncryptsWholeBlocks := by
  intro s hinv hL hf hd k c hcap hk
  have hS := hinv.session hL.active
  have hlen : (s.pending.take k).length = k := List.length_take_of_le (wholeBlocks_le _ _)
  obtain ⟨hx, hout⟩ := hS.xorData_within (hlen.le.trans hk)
  have hn : (s.xorData (s.pending.take k)).out.length = k := (s.xorData_out_eq _ hx).trans hlen
  rw [hL.update, updateBody_of_encrypt hf hd]
  rcases updateEncrypt_cases s with ⟨h, -⟩ | ⟨-, hx', -⟩ | ⟨-, -, e⟩
  · exact absurd h (not_lt.mpr hcap)
  · exact absurd hx' (Bool.eq_false_iff.mp hx)
  · refine ⟨_, rfl, ?_⟩
    have hmoves := hS.xorData_moves (t := updateEncrypt s) (s.pending.take k) (by rw [e]; rfl) (by rw [e]; rfl)
    rw [e] at hmoves ⊢
    rw [hn] at hmoves
    refine ⟨rfl, rfl, .trans ?_ hout, ?_, rfl, ?_, rfl, rfl, rfl, ⟨rfl, rfl, rfl, rfl, rfl⟩, hmoves⟩
    · exact State.memRead_of_write rfl rfl hn
    · exact State.sameOutside_of_write rfl rfl hn.le
    · exact (State.authWith_eq hf _).trans (congrArg s.authWith hout)

/-- Settles O41: FINALIZE_ENC within the limit. -/
theorem finalizeEncryptsAndAppendsTheTag : Obligations.FinalizeEncryptsAndAppendsTheTag := by
  intro s hinv hL hf hd m c hcap hm
  have hS := hinv.session hL.active
  obtain ⟨hx, hout⟩ := hS.xorData_within hm
  rw [hL.finalize, finalizeBody_of_encrypt hf hd]
  rcases finalizeEncrypt_cases hf with ⟨h, -⟩ | ⟨-, hx', -⟩ | ⟨-, -, e⟩
  · exact absurd h (not_lt.mpr hcap)
  · exact absurd hx' (Bool.eq_false_iff.mp hx)
  · rw [e, hout]
    refine ⟨_, rfl, State.Ending.complete ?_ rfl ?_ _⟩
    · exact ⟨rfl, rfl, rfl, ⟨rfl, rfl, rfl, rfl, rfl⟩, rfl⟩
    · rw [List.length_append, State.crypt_length, hS.authTag_length hf (State.authWith_ej0 s _)]

/-- Settles O45: KsXor stops at the limit, which is a block boundary of an encrypting session. -/
theorem encryptExhaustionWritesTheBlocksLeft : Obligations.EncryptExhaustionWritesTheBlocksLeft := by
  intro s hinv hL hf hd left outcome
  have hS := hinv.session hL.active
  obtain ⟨-, -, (hleft : s.ksLeft = left)⟩ := hS.enc_offset hf hd
  refine ⟨fun hcap hlt => ?_, fun hcap hlt => ?_⟩
  · have hwhole := wholeBlocks_le s.pending.length s.session.block
    have hcases := updateEncrypt_cases s
    rw [wholeBlocks] at hwhole
    generalize s.pending.length / s.session.block * s.session.block = k at hcap hlt hwhole hcases
    have hlen : (s.pending.take k).length = k := List.length_take_of_le hwhole
    obtain ⟨hx, hn⟩ := hS.xorData_beyond (d := s.pending.take k) (by rw [hleft, hlen]; exact hlt)
    have hout := hS.xorData_out (s.pending.take k)
    rw [List.take_take, hleft, Nat.min_eq_left hlt.le] at hout
    rw [hL.update, updateBody_of_encrypt hf hd]
    rcases hcases with ⟨h, -⟩ | ⟨-, -, e⟩ | ⟨-, hx', -⟩
    · exact absurd h (not_lt.mpr hcap)
    · rw [e, hn, hleft]
      refine ⟨_, rfl, State.Ending.complete ?_ hout (hn.trans hleft) _⟩
      exact ⟨rfl, rfl, rfl, ⟨rfl, rfl, rfl, rfl, rfl⟩, rfl⟩
    · exact absurd hx (Bool.eq_false_iff.mp hx')
  · obtain ⟨hx, hn⟩ := hS.xorData_beyond (hleft.symm ▸ hlt)
    have hout := hS.xorData_out s.pending
    rw [hleft] at hn hout
    rw [hL.finalize, finalizeBody_of_encrypt hf hd]
    rcases finalizeEncrypt_cases hf with ⟨h, -⟩ | ⟨-, -, e⟩ | ⟨-, hx', -⟩
    · exact absurd h (not_lt.mpr hcap)
    · rw [e, hn]
      refine ⟨_, rfl, State.Ending.complete ?_ hout hn _⟩
      exact ⟨rfl, rfl, rfl, ⟨rfl, rfl, rfl, rfl, rfl⟩, rfl⟩
    · exact absurd hx (Bool.eq_false_iff.mp hx')

/-! ## Decrypting -/

/-- A decrypting session has the blocks for `n` bytes exactly when it may still use as many (R216, R275). -/
theorem State.SessionInv.dec_blocks {s : State} (h : s.SessionInv) (hf : s.status.family ≠ .stream)
    (hd : s.status.dir = .decrypt) (n : Nat) :
    s.ks.maxBlocks < s.ks.used + (n + blockBytes s.status.family - 1) / blockBytes s.status.family ↔ s.ksLeft < n := by
  obtain ⟨-, hused, hleft, -⟩ := h.dec_offset hf hd
  have hB := blockBytes_pos s.status.family
  rw [hused, hleft, Nat.zero_add, ← Nat.succ_le_iff, Nat.le_div_iff_mul_le hB, Nat.succ_mul]
  omega

/-- Settles O42: FINALIZE_DEC with the blocks it needs and the tag it expects. -/
theorem finalizeDecryptsWhenTheTagMatches : Obligations.FinalizeDecryptsWhenTheTagMatches := by
  intro s hinv hL hf hd len ct htag hcap hk hgood
  have hS := hinv.session hL.active
  have hlen : ct.length = len := List.length_take_of_le (Nat.sub_le _ _)
  obtain ⟨hx, hout⟩ := hS.xorData_within (hlen.le.trans hk)
  rw [hL.finalize, finalizeBody_of_decrypt hf hd]
  rcases finalizeDecrypt_cases hf with ⟨h, -⟩ | ⟨-, h, -⟩ | ⟨-, -, h, -⟩ | ⟨-, -, -, h, -⟩ | ⟨-, -, -, -, e⟩
  · exact absurd h (not_lt.mpr hcap)
  · exact absurd h (not_lt.mpr htag)
  · exact absurd ((hS.dec_blocks hf hd _).mp h) (not_lt.mpr hk)
  · exact absurd hgood h
  · rw [e]
    refine ⟨_, rfl, State.Ending.complete ?_ hout ((State.xorData_out_eq _ _ hx).trans hlen) _⟩
    exact ⟨rfl, rfl, rfl, ⟨rfl, rfl, rfl, rfl, rfl⟩, rfl⟩

/-- The end of a session that wrote nothing (R277). -/
theorem State.Ending.silent {s u : State} (hu : s.Ending u []) (code : ErrCode) (r : Word) :
    s.ConsumedFrom (u.consume.complete code r) ∧ s.sameHost (u.consume.complete code r) ∧
    ∀ x, (u.consume.complete code r).readByte x = s.readByte x := by
  obtain ⟨-, -, hepoch, -⟩ := hu.sameHost
  exact ⟨hu.consumedFrom code r, hu.sameHost, State.readByte_congr hu.dmem hepoch⟩

/-- The test of R275 step 5 is whether two ranges share a byte, be they empty or not. -/
theorem nonempty_overlaps_iff {a n d l : Nat} :
    (0 < n ∧ 0 < l ∧ overlaps a n d l = true) ↔ ∃ x, a ≤ x ∧ x < a + n ∧ d ≤ x ∧ x < d + l := by
  constructor
  · rintro ⟨hn, hl, h⟩
    exact (overlaps_iff hn hl).mp h
  · rintro ⟨x, h1, h2, h3, h4⟩
    exact ⟨by omega, by omega, (overlaps_iff (by omega) (by omega)).mpr ⟨x, h1, h2, h3, h4⟩⟩

/-- Settles O43: the three ways FINALIZE_DEC fails; only a wrong tag can write, and then zeros. -/
theorem finalizeDecryptRejects : Obligations.FinalizeDecryptRejects := by
  intro s hinv hL hf hd n len ct aliased hcap
  have hS := hinv.session hL.active
  have hblocks := hS.dec_blocks hf hd len
  rw [hL.finalize, finalizeBody_of_decrypt hf hd]
  rcases finalizeDecrypt_cases hf with ⟨h, -⟩ | ⟨-, h, e⟩ | ⟨-, h, h3, e⟩ | ⟨-, h, h3, h4, e⟩ | ⟨-, h, h3, h4, -⟩
  · exact absurd h (not_lt.mpr hcap)
  · refine ⟨fun _ => ⟨_, rfl, ?_⟩, fun h' => absurd h (not_lt.mpr h'), fun h' => absurd h (not_lt.mpr h')⟩
    rw [e]
    refine ⟨rfl, rfl, State.Ending.silent ?_ _ _⟩
    exact ⟨rfl, rfl, rfl, ⟨rfl, rfl, rfl, rfl, rfl⟩, rfl⟩
  · refine ⟨fun h' => absurd h' (not_lt.mpr h), fun _ _ => ⟨_, rfl, ?_⟩,
      fun _ hk => absurd (hblocks.mp h3) (not_lt.mpr hk)⟩
    rw [e]
    refine ⟨rfl, rfl, State.Ending.silent ?_ _ _⟩
    exact ⟨rfl, rfl, rfl, ⟨rfl, rfl, rfl, rfl, rfl⟩, rfl⟩
  · refine ⟨fun h' => absurd h' (not_lt.mpr h), fun _ hk => absurd (hblocks.mpr hk) (not_lt.mpr h3),
      fun _ _ _ => ⟨_, rfl, ?_⟩⟩
    rw [e]
    by_cases hal : aliased
    · rw [if_pos (nonempty_overlaps_iff.mpr hal)]
      have hend : s.Ending (((s.closeAad.withPbuf []).absorbData ct).memWrite s.args.a2.toNat (zeros len)) (zeros len) :=
        ⟨rfl, rfl, rfl, ⟨rfl, rfl, rfl, rfl, rfl⟩, rfl⟩
      refine ⟨rfl, rfl, hend.consumedFrom _ _, hend.sameHost, fun _ => ⟨?_, ?_⟩, fun hn => absurd hal hn⟩
      · exact State.memRead_of_write rfl rfl (zeros_length len)
      · exact State.sameOutside_of_write rfl rfl (zeros_length len).le
    · rw [if_neg (mt nonempty_overlaps_iff.mp hal)]
      have hend : s.Ending ((s.closeAad.withPbuf []).absorbData ct) [] :=
        ⟨rfl, rfl, rfl, ⟨rfl, rfl, rfl, rfl, rfl⟩, rfl⟩
      obtain ⟨hcons, hhost, hmem⟩ := hend.silent .authenticationFailed 0#32
      exact ⟨rfl, rfl, hcons, hhost, fun ha => absurd ha hal, fun _ => hmem⟩
  · exact ⟨fun h' => absurd h' (not_lt.mpr h), fun _ hk => absurd (hblocks.mpr hk) (not_lt.mpr h3), fun _ _ hbad =>
      absurd h4 hbad⟩

/-! ## Round trip -/

/-- Byte `i` of an encrypted string (R144). -/
theorem State.crypt_getElem (s : State) (d : List Byte) {i : Nat} (h : i < (s.crypt d).length) :
    (s.crypt d)[i] = d[i]'(by simpa using h) ^^^ s.keystreamAt (s.ksOffset + i) := by
  simp only [State.crypt, List.getElem_map, List.getElem_range]
  rw [List.getD_eq_getElem]

/-- Xoring twice with the same keystream gives the data back (R283). -/
theorem State.crypt_crypt (s : State) (d : List Byte) : s.crypt (s.crypt d) = d := by
  apply List.ext_getElem (by simp)
  intro i h1 h2
  rw [State.crypt_getElem, State.crypt_getElem, BitVec.xor_assoc, BitVec.xor_self, BitVec.xor_zero]

/-- A session's keystream comes from its family, session record and keystream state alone (R140 to R144). -/
theorem State.crypt_congr {s d : State} (hf : d.status.family = s.status.family) (hs : d.session = s.session)
    (hk : d.ks = s.ks) (x : List Byte) : d.crypt x = s.crypt x := by
  simp only [State.crypt, State.keystreamAt, State.blockAt, State.ksStart, State.ksOffset, hf, hs, hk]

/-- The same of how many bytes it may still use. -/
theorem State.ksLeft_congr {s d : State} (hf : d.status.family = s.status.family) (hk : d.ks = s.ks) :
    d.ksLeft = s.ksLeft := by
  simp only [State.ksLeft, State.ksOffset, hf, hk]

/-- A FINALIZE that completes OK in an encrypting CP or GCM session had keystream for all its bytes (R274). -/
theorem exec_finalize_encrypt_within {s t : State} (h : s.SessionInv) (hf : s.status.family ≠ .stream)
    (hd : s.status.dir = .encrypt) (he : exec .finalize s = .next t) (hok : t.status.err = .ok) :
    s.pending.length ≤ s.ksLeft := by
  obtain ⟨-, rfl⟩ := exec_finalize_ok he hok
  rw [finalizeBody_of_encrypt hf hd] at hok
  rcases finalizeEncrypt_cases hf with ⟨-, e⟩ | ⟨-, -, e⟩ | ⟨-, hx, -⟩
  · rw [e] at hok
    cases hok
  · rw [e] at hok
    cases hok
  · exact h.le_ksLeft hx

/-- Settles O58: the decrypting session finds the tag it expects and xors the ciphertext with the same keystream. -/
theorem decryptionUndoesEncryption : Obligations.DecryptionUndoesEncryption := by
  intro s d t hs hd hsact hdact hf hsd hdd hfam hses hks hauth he hok hpend hL hcap
  have hS := hs.session hsact
  have hfd : d.status.family ≠ .stream := hfam ▸ hf
  have hleft := exec_finalize_encrypt_within hS hf hsd he hok
  rw [exec_finalize_encrypt_output hS hf hsd he hok, (hS.xorData_within hleft).2] at hpend
  have htag := hS.authTag_length hf (State.authWith_ej0 s (s.crypt s.pending))
  generalize hc : s.crypt s.pending = c at hpend htag
  have hplain : s.crypt c = s.pending := by rw [← hc, State.crypt_crypt]
  have hclen : c.length = s.pending.length := by rw [← hc, State.crypt_length]
  have hlen : d.pending.length - d.session.tagLen = c.length := by rw [hpend, List.length_append, htag, hses]; omega
  obtain ⟨u, heu, hoku, hres, hread, -⟩ := finalizeDecryptsWhenTheTagMatches d hd hL hfd hdd
    (by rw [hpend, List.length_append, htag, hses]; omega) (by rw [hlen, hclen]; exact hcap)
    (by rw [hlen, hclen, State.ksLeft_congr hfam hks]; exact hleft)
    (by rw [hlen, hpend, List.take_left, List.drop_left, State.authWith_congr hfam hauth, hfam, hses])
  rw [hlen] at hres hread
  rw [hpend, List.take_left, State.crypt_congr hfam hses hks, hplain] at hread
  refine ⟨u, heu, hoku, hclen ▸ hres, ?_⟩
  rw [State.output, hres, toNat_ofNat_of_le (hclen.symm ▸ hcap)]
  exact hread

/-! ## The bytes stored -/

/-- What UPDATE and FINALIZE can store of a session: all its pending and source bytes xored with the keystream, then the tag
(R271 to R276). -/
def State.produced (s : State) : List Byte :=
  s.crypt s.pending ++ authTag s.status.family s.session.tagLen (s.authWith (s.crypt s.pending))

/-- The command that ran at `s` and left `t` stored the first RESULT bytes of what it can store, at ARG2 (R28). -/
def State.StoredResult (s t : State) : Prop :=
  ∃ b, b <+: s.produced ∧ b.length = t.result.toNat ∧ t.dmem = Memory.storeBytes s.dmem s.args.a2.toNat b

theorem State.crypt_prefix (s : State) {d e : List Byte} (h : d <+: e) : s.crypt d <+: s.crypt e := by
  rw [List.prefix_iff_eq_take]
  apply List.ext_getElem (by simpa using h.length_le)
  intro i h1 h2
  rw [List.getElem_take, State.crypt_getElem, State.crypt_getElem, h.getElem]

/-- KsXor of a first part of the pending and source bytes makes a first part of what can be stored. -/
theorem State.SessionInv.xorData_prefix {s : State} (h : s.SessionInv) {d : List Byte} (hd : d <+: s.pending) :
    (s.xorData d).out <+: s.produced := by
  rw [h.xorData_out]
  exact (s.crypt_prefix ((List.take_prefix _ _).trans hd)).trans (List.prefix_append _ _)

theorem State.StoredResult.of_silent {s t : State} (hr : t.result = 0#32) (hd : t.dmem = s.dmem) : s.StoredResult t :=
  ⟨[], List.nil_prefix, by rw [hr]; rfl, hd⟩

/-- A store within the destination's capacity whose length is RESULT. -/
theorem State.StoredResult.of_write {s t : State} {b : List Byte} {n : Nat} (hb : b <+: s.produced) (hn : b.length = n)
    (hfit : n ≤ s.args.a3.toNat) (hr : t.result = BitVec.ofNat 32 n)
    (hd : t.dmem = Memory.storeBytes s.dmem s.args.a2.toNat b) : s.StoredResult t :=
  ⟨b, hb, by rw [hr, toNat_ofNat_of_le hfit, hn], hd⟩

theorem updateBody_storedResult {s : State} (h : s.SessionInv) : s.StoredResult (updateBody s) := by
  rcases updateBody_cases s with ⟨hf, e⟩ | ⟨hf, hd, e⟩ | ⟨hf, hd, e⟩ <;> rw [e]
  · have hpre := h.xorData_prefix (h.stream_pending hf ▸ List.prefix_refl _ : s.srcBytes <+: s.pending)
    have hle := s.xorData_out_le s.srcBytes
    rw [State.srcBytes_length] at hle
    rcases updateStream_cases s with ⟨-, e⟩ | ⟨hfit, -, e⟩ | ⟨hfit, hx, e⟩ <;> rw [e]
    · exact .of_silent rfl rfl
    · exact .of_write hpre rfl (hle.trans hfit) rfl rfl
    · exact .of_write hpre ((s.xorData_out_eq _ hx).trans s.srcBytes_length) hfit rfl rfl
  · have hpre := h.xorData_prefix (List.take_prefix (wholeBlocks s.pending.length s.session.block) s.pending)
    have hlen : (s.pending.take (wholeBlocks s.pending.length s.session.block)).length =
        wholeBlocks s.pending.length s.session.block := List.length_take_of_le (wholeBlocks_le _ _)
    have hle := s.xorData_out_le (s.pending.take (wholeBlocks s.pending.length s.session.block))
    rw [hlen] at hle
    rcases updateEncrypt_cases s with ⟨-, e⟩ | ⟨hfit, -, e⟩ | ⟨hfit, hx, e⟩ <;> rw [e]
    · exact .of_silent rfl rfl
    · exact .of_write hpre rfl (hle.trans hfit) rfl rfl
    · exact .of_write hpre ((s.xorData_out_eq _ hx).trans hlen) hfit rfl rfl
  · rcases updateDecrypt_cases s with ⟨-, e⟩ | ⟨-, e⟩ <;> rw [e] <;> exact .of_silent rfl rfl

theorem finalizeBody_storedResult {s : State} (h : s.SessionInv)
    (herr : (finalizeBody s).status.err ≠ .authenticationFailed) : s.StoredResult (finalizeBody s) := by
  rcases finalizeBody_cases s with ⟨hf, e⟩ | ⟨hf, hd, e⟩ | ⟨hf, hd, e⟩ <;> rw [e] at herr ⊢
  · have hpre := h.xorData_prefix (h.stream_pending hf ▸ List.prefix_refl _ : s.srcBytes <+: s.pending)
    have hle := s.xorData_out_le s.srcBytes
    rw [State.srcBytes_length] at hle
    rcases finalizeStream_cases s with ⟨-, e⟩ | ⟨hfit, e⟩ <;> rw [e]
    · exact .of_silent rfl rfl
    · exact .of_write hpre rfl (hle.trans hfit) rfl rfl
  · have hle := s.xorData_out_le s.pending
    rcases finalizeEncrypt_cases hf with ⟨-, e⟩ | ⟨hfit, -, e⟩ | ⟨hfit, hx, e⟩ <;> rw [e]
    · exact .of_silent rfl rfl
    · exact .of_write (h.xorData_prefix (List.prefix_refl _)) rfl (by omega) rfl rfl
    · have hout : (s.xorData s.pending).out = s.crypt s.pending :=
        (h.xorData_within (h.le_ksLeft hx)).2
      rw [hout]
      refine .of_write (b := s.produced) (List.prefix_refl _) ?_ hfit rfl rfl
      rw [State.produced, List.length_append, State.crypt_length, h.authTag_length hf (State.authWith_ej0 s _)]
  · have hlen : (s.pending.take (s.pending.length - s.session.tagLen)).length = s.pending.length - s.session.tagLen :=
      List.length_take_of_le (Nat.sub_le _ _)
    rcases finalizeDecrypt_cases hf with ⟨-, e⟩ | ⟨-, -, e⟩ | ⟨-, -, -, e⟩ | ⟨-, -, -, -, e⟩ | ⟨hfit, -, h3, -, e⟩ <;>
      rw [e] at herr ⊢
    · exact .of_silent rfl rfl
    · exact absurd rfl herr
    · exact .of_silent rfl rfl
    · exact absurd rfl herr
    · obtain ⟨hx, -⟩ := h.xorData_within (d := s.pending.take (s.pending.length - s.session.tagLen)) (by
        rw [hlen]
        exact not_lt.mp (mt (h.dec_blocks hf hd _).mpr (not_lt.mpr h3)))
      exact .of_write (h.xorData_prefix (List.take_prefix _ _)) ((s.xorData_out_eq _ hx).trans hlen) hfit rfl rfl

/-- UPDATE and FINALIZE, unless the tag was wrong, store what RESULT counts (R28, R270 to R276). -/
theorem exec_data_storedResult {i : Instr} {s t : State} (hinv : s.Inv) (hi : i = .update ∨ i = .finalize)
    (he : exec i s = .next t) (herr : t.status.err ≠ .authenticationFailed) : s.StoredResult t := by
  rcases hi with rfl | rfl
  · rcases execUpdate_cases s with ⟨c, -, e⟩ | ⟨hn, e⟩ <;> simp only [exec, e] at he <;> cases he
    · exact .of_silent rfl rfl
    · exact updateBody_storedResult (hinv.session ((State.dataLegal_iff s).mpr hn).active)
  · rcases execFinalize_cases s with ⟨c, -, e⟩ | ⟨hn, e⟩ <;> simp only [exec, e] at he <;> cases he
    · exact .of_silent rfl rfl
    · exact finalizeBody_storedResult (hinv.session ((State.dataLegal_iff s).mpr hn).active) herr

/-- After a wrong tag RESULT is 0, and at most the plaintext's place has changed (R275). -/
theorem exec_authenticationFailed {i : Instr} {s t : State} (he : exec i s = .next t)
    (herr : t.status.err = .authenticationFailed) :
    t.result = 0#32 ∧ s.sameOutside t s.args.a2.toNat (s.pending.length - s.session.tagLen) := by
  obtain ⟨-, -, hepoch, -⟩ := exec_sameHost he
  cases exec_outcome he with
  | consume _ _ u code b r ht _ hu _ hauth =>
    have hcode : t.status.err = code := by rw [ht]; rfl
    obtain ⟨-, -, rfl, hb⟩ := hauth (hcode ▸ herr)
    refine ⟨by rw [ht]; rfl, State.sameOutside_of_write (by rw [ht]; exact hu.dmem) hepoch ?_⟩
    rcases hb with rfl | rfl
    · exact Nat.zero_le _
    · exact (zeros_length _).le
  | fail code hc ht =>
    rw [ht] at herr
    exact absurd herr hc.2.1
  | init _ _ _ _ _ _ _ _ _ ht => simp [ht] at herr
  | aadEmpty _ _ _ ht => simp [ht] at herr
  | aad _ _ _ ht => simp [ht] at herr
  | size _ _ _ ht => simp [ht] at herr
  | abort _ ht => simp [ht] at herr
  | update _ _ _ _ _ _ _ _ _ _ ht => simp [ht] at herr

/-- Settles O48: what is stored has RESULT bytes. -/
theorem dataCommandsStoreOnlyTheirResult : Obligations.DataCommandsStoreOnlyTheirResult := by
  intro i s t hinv hi he
  refine ⟨fun herr => ?_, fun herr => (exec_authenticationFailed he herr).2⟩
  obtain ⟨-, -, hepoch, -⟩ := exec_sameHost he
  obtain ⟨b, -, hlen, hd⟩ := exec_data_storedResult hinv hi he herr
  exact State.sameOutside_of_write hd hepoch hlen.le

/-! ## The destination's address -/

/-- The state with another destination address in ARG2. -/
def State.withDst (s : State) (d : Word) : State := { s with args := { s.args with a2 := d } }

/-- What a command answers the host: STATUS and RESULT. -/
def State.answer (s : State) : Status × Word := (s.status, s.result)

/-- What UPDATE answers does not depend on where its destination lies (R279). -/
theorem updateBody_withDst (s : State) (d : Word) : (updateBody (s.withDst d)).answer = (updateBody s).answer := by
  rcases updateBody_cases s with ⟨hf, e⟩ | ⟨hf, hd, e⟩ | ⟨hf, hd, e⟩ <;> rw [e]
  · simp only [updateBody_of_stream (s := s.withDst d) hf, updateStream, apply_ite State.answer]
    rfl
  · simp only [updateBody_of_encrypt (s := s.withDst d) hf hd, updateEncrypt, apply_ite State.answer]
    rfl
  · simp only [updateBody_of_decrypt (s := s.withDst d) hf hd, updateDecrypt, apply_ite State.answer]
    rfl

/-- Whether the plaintext's place is zeroed shows in DMEM alone (R275). -/
theorem answer_of_wrong_tag (s : State) (c : Prop) [Decidable c] (a : Nat) (b : List Byte) :
    ((if c then s.memWrite a b else s).consume.raise .authenticationFailed).answer =
      (s.consume.raise .authenticationFailed).answer := by
  split <;> rfl

/-- What FINALIZE answers does not depend on where its destination lies (R279). -/
theorem finalizeBody_withDst (s : State) (d : Word) : (finalizeBody (s.withDst d)).answer = (finalizeBody s).answer := by
  rcases finalizeBody_cases s with ⟨hf, e⟩ | ⟨hf, hd, e⟩ | ⟨hf, hd, e⟩ <;> rw [e]
  · simp only [finalizeBody_of_stream (s := s.withDst d) hf, finalizeStream, apply_ite State.answer]
    rfl
  · simp only [finalizeBody_of_encrypt (s := s.withDst d) hf hd, finalizeEncrypt, apply_ite State.answer]
    rfl
  · simp only [finalizeBody_of_decrypt (s := s.withDst d) hf hd, finalizeDecrypt, finalizeDecryptChecked,
      apply_ite State.answer, answer_of_wrong_tag]
    rfl

/-- UPDATE and FINALIZE answer the same for two destinations that lie in DMEM (R279). -/
theorem exec_data_withDst {i : Instr} {s t t' : State} {d : Word} (hi : i = .update ∨ i = .finalize)
    (hs : s.legal s.args.a2 s.args.a3 = true) (hd : s.legal d s.args.a3 = true) (he : exec i s = .next t)
    (he' : exec i (s.withDst d) = .next t') : t'.answer = t.answer := by
  have hdata : dataErrors (s.withDst d) = dataErrors s := by
    have hlegal : (s.withDst d).legal (s.withDst d).args.a2 (s.withDst d).args.a3 = s.legal s.args.a2 s.args.a3 :=
      hd.trans hs.symm
    simp only [dataErrors, hlegal]
    rfl
  cases hc : dataErrors s with
  | some c =>
    rcases hi with rfl | rfl <;> simp only [exec, execUpdate, execFinalize, hdata, hc] at he he' <;> cases he <;>
      cases he' <;> rfl
  | none =>
    rcases hi with rfl | rfl <;> simp only [exec, execUpdate, execFinalize, hdata, hc] at he he' <;> cases he <;> cases he'
    · exact updateBody_withDst s d
    · exact finalizeBody_withDst s d

/-- The output of a command that stored its RESULT bytes. -/
theorem State.StoredResult.output_eq {s t : State} (h : s.StoredResult t) (he : t.epoch = s.epoch) :
    s.output t = s.produced.take t.result.toNat := by
  obtain ⟨b, hpre, hlen, hd⟩ := h
  rw [State.output, State.memRead_of_write hd he hlen, ← hlen]
  exact List.prefix_iff_eq_take.mp hpre

/-- Settles O49: the answer does not depend on the destination, and what is stored is the first RESULT bytes of what can be,
which does not either. -/
theorem overlapDoesNotChangeTheOutput : Obligations.OverlapDoesNotChangeTheOutput := by
  intro i s s' t t' d hinv hi hs' hs hd he he'
  obtain rfl : s' = s.withDst d := hs'
  have hans := exec_data_withDst hi ((s.legal_iff _ _).mpr hs) ((s.legal_iff _ _).mpr hd) he he'
  obtain ⟨hst, hres⟩ := Prod.mk.inj hans
  refine ⟨hst, hres, ?_⟩
  by_cases herr : t.status.err = .authenticationFailed
  · rw [State.output, State.output, hres, (exec_authenticationFailed he herr).1]
    rfl
  · have hinv' : (s.withDst d).Inv :=
      hinv.congr rfl rfl rfl rfl rfl rfl rfl rfl rfl rfl rfl rfl hinv.memWf hinv.memRange
    obtain ⟨-, -, hepoch, -⟩ := exec_sameHost he
    obtain ⟨-, -, hepoch', -⟩ := exec_sameHost he'
    rw [(exec_data_storedResult hinv hi he herr).output_eq hepoch,
      (exec_data_storedResult hinv' hi he' (hst ▸ herr)).output_eq hepoch', hres]
    rfl

end Sys2Proof.Machine
end

section
/-! PROOFS. Every command's end (O19, O21, O22): a command looks at neither the ERR nor the RESULT that stood before it, an error is
all or nothing, and so the same command gives the same error again (R277, R320 to R323). -/

namespace Sys2Proof.Machine

/-! ## A command looks at neither ERR nor RESULT -/

theorem initCommit_of_complete (s : State) (code : ErrCode) (r : Word) (fam : Family) (dir : Dir) (n : Nat) :
    (initCommit (s.complete code r) fam dir n).complete .ok 0#32 = (initCommit s fam dir n).complete .ok 0#32 := by
  cases dir <;> rfl

theorem execInit_of_complete (m : Opmode) (f : FamilyField) (n : Nat) (s : State) (code : ErrCode) (r : Word) :
    execInit m f n (s.complete code r) = execInit m f n s := by
  unfold execInit
  cases dirOf m with
  | none => rfl
  | some dir =>
    cases familyOf f with
    | none => rfl
    | some fam =>
      have herr : initErrors (s.complete code r) fam dir n = initErrors s fam dir n := rfl
      simp only [herr, initCommit_of_complete]
      rfl

/-- Steps 4 to 6 of FINALIZE_DEC; the end after a wrong tag is compared for each of its two forms, zeroed or not (R275). -/
theorem finalizeDecryptChecked_of_complete (s : State) (code : ErrCode) (r : Word) (ct cand : List Byte) :
    finalizeDecryptChecked (s.complete code r) ct cand = finalizeDecryptChecked s ct cand := by
  simp only [finalizeDecryptChecked, apply_ite (fun u : State => u.consume.raise .authenticationFailed)]
  rfl

theorem finalizeDecrypt_of_complete (s : State) (code : ErrCode) (r : Word) :
    finalizeDecrypt (s.complete code r) = finalizeDecrypt s := by
  have hchecked := finalizeDecryptChecked_of_complete (s.closeAad.withPbuf []) code r
  unfold finalizeDecrypt
  simp only [← hchecked]
  rfl

theorem updateBody_of_complete (s : State) (code : ErrCode) (r : Word) : updateBody (s.complete code r) = updateBody s := by
  rcases updateBody_cases s with ⟨hf, e⟩ | ⟨hf, hd, e⟩ | ⟨hf, hd, e⟩ <;> rw [e]
  · exact updateBody_of_stream (s := s.complete code r) hf
  · exact updateBody_of_encrypt (s := s.complete code r) hf hd
  · exact updateBody_of_decrypt (s := s.complete code r) hf hd

theorem finalizeBody_of_complete (s : State) (code : ErrCode) (r : Word) :
    finalizeBody (s.complete code r) = finalizeBody s := by
  rcases finalizeBody_cases s with ⟨hf, e⟩ | ⟨hf, hd, e⟩ | ⟨hf, hd, e⟩ <;> rw [e]
  · exact finalizeBody_of_stream (s := s.complete code r) hf
  · exact finalizeBody_of_encrypt (s := s.complete code r) hf hd
  · exact (finalizeBody_of_decrypt (s := s.complete code r) hf hd).trans (finalizeDecrypt_of_complete s code r)

/-- What a command does depends on neither the ERR nor the RESULT it finds: no check reads them, and every end overwrites both
(R320). -/
theorem exec_of_complete (i : Instr) (s : State) (code : ErrCode) (r : Word) : exec i (s.complete code r) = exec i s := by
  have hdata : dataErrors (s.complete code r) = dataErrors s := rfl
  cases i with
  | init m f n => exact execInit_of_complete m f n s code r
  | updateAad => rfl
  | update =>
    simp only [exec, execUpdate, hdata, updateBody_of_complete]
    rfl
  | finalize =>
    simp only [exec, execFinalize, hdata, finalizeBody_of_complete]
    rfl
  | outputSize final => rfl
  | abort => rfl

theorem ErrCode.code_le (c : ErrCode) : c.code ≤ 9 := by cases c <;> decide

/-- Settles O19: every command completes, with one of the ten codes, and looks at neither ERR nor RESULT. -/
theorem everyCommandEndsWithAFreshCode : Obligations.EveryCommandEndsWithAFreshCode := by
  intro i s
  obtain ⟨t, ht⟩ := exec_completes i s
  exact ⟨t, ht, ErrCode.code_le _, fun c r => (exec_of_complete i s c r).trans ht⟩

/-! ## Errors -/

/-- An error is a failed check, which changes nothing but ERR and RESULT, or the end of the session (R323). -/
theorem exec_error {i : Instr} {s t : State} (h : exec i s = .next t) (herr : t.status.err ≠ .ok) :
    (t.status.err ≠ .authenticationFailed ∧ t.status.err ≠ .counterExhausted ∧ t = s.failed t.status.err) ∨
    ((t.status.err = .authenticationFailed ∨ t.status.err = .counterExhausted) ∧ s.ConsumedFrom t ∧
      s.sameOutside t s.args.a2.toNat s.args.a3.toNat) := by
  obtain ⟨-, -, hepoch, -⟩ := exec_sameHost h
  cases exec_outcome h with
  | fail code hc ht =>
    have hcode : t.status.err = code := by rw [ht]; rfl
    exact .inl (hcode ▸ ⟨hc.2.1, hc.2.2, ht⟩)
  | consume _ _ u code b r ht hc hu hb =>
    have hcode : t.status.err = code := by rw [ht]; rfl
    rw [hcode] at herr ⊢
    have hfit : b.length ≤ s.args.a3.toNat := hb.resolve_right fun hok => herr hok.2.2
    refine .inr ⟨?_, ht ▸ hu.consumedFrom code r, State.sameOutside_of_write (by rw [ht]; exact hu.dmem) hepoch hfit⟩
    exact (hc.resolve_left fun hok => herr hok.1).imp_left And.left
  | init _ _ _ _ _ _ _ _ _ ht => simp [ht] at herr
  | aadEmpty _ _ _ ht => simp [ht] at herr
  | aad _ _ _ ht => simp [ht] at herr
  | size _ _ _ ht => simp [ht] at herr
  | abort _ ht => simp [ht] at herr
  | update _ _ _ _ _ _ _ _ _ _ ht => simp [ht] at herr

/-- Settles O21: the two kinds of error, and RESULT after a wrong tag. -/
theorem errorsAreAllOrNothing : Obligations.ErrorsAreAllOrNothing := by
  intro i s t h herr
  rcases exec_error h herr with ⟨hauth, hexh, ht⟩ | ⟨hends, hcons, hmem⟩
  · exact ⟨fun _ _ => ht, fun hends => absurd hends (not_or.mpr ⟨hauth, hexh⟩)⟩
  · exact ⟨fun hauth hexh => absurd hends (not_or.mpr ⟨hauth, hexh⟩),
      fun _ => ⟨hcons, hmem, fun hauth => (exec_authenticationFailed h hauth).1⟩⟩

/-- Settles O22: the error changed only ERR and RESULT, at which the command does not look. -/
theorem retryGivesTheSameError : Obligations.RetryGivesTheSameError := by
  intro i s t h herr hauth hexh
  have ht : t = s.failed t.status.err := (errorsAreAllOrNothing i s t h herr).1 hauth hexh
  calc exec i t = exec i (s.failed t.status.err) := congrArg (exec i) ht
    _ = exec i s := exec_of_complete i s t.status.err 0#32
    _ = .next t := h

end Sys2Proof.Machine
end

section
/-! PROOFS. Reset and the idle bus (O7, O16, O17, O57): a step with no bus event pending, what every register and every byte of
DMEM reads right after reset, and that the machine is good then (R350, R351, R353). -/

namespace Sys2Proof.Machine

/-! ## The idle bus -/

/-- Settles O7: a step performs the oldest pending bus event, and there is none. -/
theorem idleBusChangesNothing : Obligations.IdleBusChangesNothing := by
  intro s hbus
  rw [step, hbus]

/-! ## Right after reset -/

/-- The session record, keystream, authenticator and pending buffer after reset (R32, R34 to R36, R350). -/
theorem State.resetWith_zeroised (c : Config) (epoch : Nat) (bus : List BusEvent) :
    (State.resetWith c epoch bus).zeroised := ⟨rfl, rfl, rfl, rfl⟩

/-- No byte of DMEM has been written since reset: each reads as the free value of the draw in force (R351). -/
theorem State.readByte_resetWith (c : Config) (epoch : Nat) (bus : List BusEvent) (a : Nat) :
    (State.resetWith c epoch bus).readByte a = Config.freeByte epoch a := rfl

/-- Settles O16: the reset step ends in `State.resetWith`, of which `State.reset` is an instance. -/
theorem resetSetsEveryRegister : Obligations.ResetSetsEveryRegister := by
  refine ⟨fun s rest => ?_, fun s hs => ?_⟩
  · obtain ⟨hsession, hks, hauth, hpbuf⟩ := State.resetWith_zeroised s.cfg (s.epoch + 1) rest
    exact ⟨_, step_reset s rest, rfl, rfl, Status.reset_word, rfl, rfl, hsession, rfl, rfl, hks, hauth, hpbuf⟩
  · subst hs
    exact ⟨Status.reset_word, rfl, rfl, State.resetWith_zeroised _ _ _, rfl, rfl⟩

/-- Settles O17: the reset step ends in `State.resetWith` at the next draw, with nothing written yet. -/
theorem resetDrawsDmemAfresh : Obligations.ResetDrawsDmemAfresh := by
  intro s t rest h
  rw [step_reset] at h
  cases h
  exact ⟨rfl, State.readByte_resetWith _ _ _⟩

/-- The parameters of 95_test_vectors.md are allowed (R6). -/
theorem Config.vectors_wf : Config.vectors.wf := by decide

/-- Settles O57: a reset leaves a good state with any allowed parameters, and those of `State.reset` are allowed. -/
theorem resetIsGood : Obligations.ResetIsGood :=
  ⟨.of_resetWith Config.vectors_wf _ _, fun _ epoch bus hc => .of_resetWith hc epoch bus⟩

end Sys2Proof.Machine
end
